-- ==== Sys2Proof/Word.lean ====
section
/-!
DEFINITION. The word and byte types of SHA256-CORE (spec 00_scope.md R8, R10, R11).

Every value of the hardware is unsigned and no rule sign-extends (R11).  `+` on `Word` is the
wrap-around `add32` of R12 and R130 by the very definition of addition on `BitVec`.
-/

namespace Sys2Proof

/-- R11: a `Word` is an unsigned 32-bit value; bit 0 is the least significant bit (R10). -/
abbrev Word := BitVec 32

/-- R11: a `Byte` is an unsigned 8-bit value. -/
abbrev Byte := BitVec 8

/-- R11: `Bytes`, a finite sequence of bytes with a 0-based index.  A `Digest` is one of length 32. -/
abbrev Bytes := List Byte

/-- Eight words: the digest state H0..H7 (R49), the working variables `a..h` and the chaining
values of one compression (R53, R167).  Field `a` is index 0, field `h` is index 7. -/
structure Words8 where
  a : Word
  b : Word
  c : Word
  d : Word
  e : Word
  f : Word
  g : Word
  h : Word
  deriving DecidableEq, Repr

end Sys2Proof
end

