-- ==== Sys2Proof/Syntax.lean ====
section
/-!
DEFINITION. The instruction set: the five commands of SHA256-CORE (spec 30_encoding.md R111,
opcode_table.json).

The instruction unit of this hardware is the command, a word written to register CMD (R19
"Command").  A command has no register, immediate or mode field (R110, R114): every operand is
taken from the operand registers (R113), so no constructor carries data.
-/

namespace Sys2Proof

/-- One constructor per row of spec/opcode_table.json (R111). -/
inductive Instr where
  /-- OP 0x1, R193: H0..H7 <- IV. -/
  | init
  /-- OP 0x2, R195: H <- compress(H, BLK0..BLK15). -/
  | compress
  /-- OP 0x3, R199: H <- SHA-256(message). -/
  | hash
  /-- OP 0x4, R225: H <- HMAC-SHA256(key, message). -/
  | hmac
  /-- OP 0x5, R245: H <- Merkle root(items). -/
  | merkle
  deriving DecidableEq, Repr

end Sys2Proof
end

