-- ==== Sys2Proof/WellFormed.lean ====
section
/-!
DEFINITION. Well-formedness of what the host can put on the bus: a command word (spec
30_encoding.md R110, R112) and a register access (20_memory.md R86).

An `Instr` carries no operand (R114), so every term of it is well formed.  What can be ill formed
is the word offered to CMD and the shape of a register access.
-/

namespace Sys2Proof

/-- R114: a command has no fields, so every command is well formed. -/
def Instr.wellFormed : Instr → Bool
  | .init => true
  | .compress => true
  | .hash => true
  | .hmac => true
  | .merkle => true

/-- R110: the reserved bits 31:4 of a command word are 0. -/
def reservedBitsZero (w : Word) : Bool := w.extractLsb' 4 28 == 0

/-- R112: the OP field of a command word is one of 0x1 .. 0x5. -/
def opcodeDefined (w : Word) : Bool :=
  1 ≤ (w.extractLsb' 0 4).toNat && (w.extractLsb' 0 4).toNat ≤ 5

/-- R112: a command word is valid when both hold. -/
def commandWordWellFormed (w : Word) : Bool := reservedBitsZero w && opcodeDefined w

/-- R86: a register access is 32 bits wide (4 bytes). -/
def accessIsWord (size : Nat) : Bool := size == 4

/-- R86: a register access is at an offset that is a multiple of 4. -/
def accessIsAligned (off : Nat) : Bool := off % 4 == 0

/-- R81: the register space is the 256 bytes 0x000 to 0x0FF. -/
def accessIsInBlock (off : Nat) : Bool := off < 256

/-- R86: the accesses that have a meaning. -/
def accessWellFormed (off size : Nat) : Bool :=
  accessIsWord size && accessIsAligned off && accessIsInBlock off

end Sys2Proof
end

