-- ==== Sys2Proof/Decode.lean ====
section
/-!
DEFINITION. The command decoder and the encoder (spec 30_encoding.md R110 to R116).

Decoding is total (R112): every word that is not one of the five valid ones is rejected by name.
Every command is exactly one 32-bit word and no mode bit changes decoding (R116).
-/

namespace Sys2Proof

/-- Why a command word is illegal (R115).  The machine reports both as ILLEGAL_CMD (R302). -/
inductive DecodeError where
  /-- A bit of 31:4 is set (R110, R115). -/
  | reservedBitSet
  /-- OP is 0x0 or 0x6 to 0xF (R111, R115). -/
  | undefinedOpcode
  deriving DecidableEq, Repr

/-- What the decoder answers. -/
inductive Decoded where
  | instr (i : Instr)
  | illegal (why : DecodeError)
  deriving DecidableEq, Repr

/-- R110: field OP, bits 3:0 of a command word. -/
def opField (w : Word) : BitVec 4 := w.extractLsb' 0 4

/-- R110: field RSVD, bits 31:4 of a command word. -/
def rsvdField (w : Word) : BitVec 28 := w.extractLsb' 4 28

/-- R111: the opcode map, from OP to the command. -/
def decodeOp (op : BitVec 4) : Decoded :=
  match op.toNat with
  | 1 => .instr .init
  | 2 => .instr .compress
  | 3 => .instr .hash
  | 4 => .instr .hmac
  | 5 => .instr .merkle
  | _ => .illegal .undefinedOpcode

/-- R112, R115: the command a word stands for, or why it is illegal. -/
def decode (w : Word) : Decoded :=
  if rsvdField w = 0 then decodeOp (opField w) else .illegal .reservedBitSet

/-- R111: the opcode map, from the command to OP. -/
def opcode : Instr → BitVec 4
  | .init => 0x1
  | .compress => 0x2
  | .hash => 0x3
  | .hmac => 0x4
  | .merkle => 0x5

/-- R110: the command word, reserved bits 0 above the OP field. -/
def encode (i : Instr) : Word := (0 : BitVec 28) ++ opcode i

/-- The instruction this decoder reads from an instruction whose bits are `w`, numbered as
spec/opcode_table.json numbers them.  A command is one bus word and not bytes in memory (R85, R116),
so no byte order enters: bit n of `w` is bit n of the word written to CMD. -/
def decodeTableWord (nbits w : Nat) : Option Instr :=
  if w % 2 ^ nbits < 2 ^ 32 then
    match decode (BitVec.ofNat 32 (w % 2 ^ nbits)) with
    | .instr i => some i
    | .illegal _ => none
  else none

end Sys2Proof
end

