-- ==== Sys2Proof/Config.lean ====
section
/-!
DEFINITION. What an instance of SHA256-CORE is configured with (spec 00_scope.md R9, R21,
20_memory.md R80) and the free values of the model.

REG_BASE, MERKLE_NODE_CAP and the predicate Admitted are OPEN parameters, "a model argument" (R9,
U14, U15, U16 of 93_implementation_defined.md).  They are plain data here (`Platform`), carried in
the state and never changed by a step, so that a statement about every state holds for every
instance.  The parameters the spec fixes are definitions.
-/

namespace Sys2Proof

/-- R9: ADDR_WIDTH = 32, so memory addresses are 0 to 2^32 - 1 (R80). -/
def Config.memSize : Nat := 2 ^ 32

/-- R9: ITEM_BYTES = 32, the size of a Merkle item. -/
def Config.itemBytes : Nat := 32

/-- R9: MAX_MSG_BYTES = 2^61 - 1; a hash accepts fewer than 2^61 bytes (R303). -/
def Config.maxHashedBytes : Nat := 2 ^ 61

/-- One range of backed memory: `size` bytes from `base` (R80: "Which addresses are backed is a
platform parameter").  `sideEffects` marks memory whose reads have side effects, in which the host
must not place a buffer (R83). -/
structure Region where
  base : Nat
  size : Nat
  sideEffects : Bool
  deriving DecidableEq, Repr

/-- R9, R21, R80: the OPEN parameters of one instance. -/
structure Platform where
  /-- REG_BASE, the bus address of register offset 0x000 (R9, R90), 256-byte aligned. -/
  regBase : Nat
  /-- MERKLE_NODE_CAP, 2 <= value <= 2^32 - 1 (R9, R46). -/
  nodeCap : Word
  /-- The backed ranges of memory: `Admitted(addr)` holds of an address in one of them (R80). -/
  regions : List Region
  deriving DecidableEq, Repr

/-- R9: the values the parameters may take. -/
def Platform.valid (p : Platform) : Bool := p.regBase % 256 == 0 && 2 ≤ p.nodeCap.toNat

/-- DESIGN CHOICE (log entry 1): the instance that `State.reset` is given, the one of the spec's own
test vectors: MERKLE_NODE_CAP = 8 (D51), every address admitted (95_test_vectors.md section 12).
No statement rests on these values: the statements quantify over the platform. -/
def Config.testPlatform : Platform :=
  { regBase := 0, nodeCap := 8, regions := [{ base := 0, size := 2 ^ 32, sideEffects := false }] }

/-- DESIGN CHOICE (log entry 2): what a byte of memory that nothing has written reads as;
95_test_vectors.md section 12 has "unlisted memory bytes are 00". -/
def Config.unlistedByte : Byte := 0

/-- R17 `any Word`: the unconstrained values, one for each draw.  There is no body to look into:
nothing can be proved about the value of a draw (log entry 3). -/
opaque Config.freeWord : Nat → Word

end Sys2Proof
end

