-- ==== Sys2Proof/Machine/Primitives.lean ====
section
/-!
DEFINITION. The bit/word primitives of the datapath (spec 40_primitives.md R130 to R139) and the
packing of bytes into words and back (00_scope.md R13, R14, 41_pipeline.md R170).  All are total
functions (R142); `+` on `Word` is `add32` (R130).
-/

namespace Sys2Proof.Machine

/-- R130: the wrap-around sum. -/
def add32 (x y : Word) : Word := x + y

/-- R131: rotation right by n mod 32 positions. -/
def rotr (x : Word) (n : Nat) : Word :=
  if n % 32 = 0 then x else (x >>> (n % 32)) ||| (x <<< (32 - n % 32))

/-- R132: rotation left; no command uses it. -/
def rotl (x : Word) (n : Nat) : Word := rotr x ((32 - n % 32) % 32)

/-- R133: logical shift right, zero fill.  The datapath uses n = 3 and n = 10 only. -/
def shr (x : Word) (n : Nat) : Word := x >>> n

/-- R134: choose. -/
def ch (x y z : Word) : Word := (x &&& y) ^^^ (~~~x &&& z)

/-- R135: majority. -/
def maj (x y z : Word) : Word := (x &&& y) ^^^ (x &&& z) ^^^ (y &&& z)

/-- R136: big sigma 0. -/
def bigSigma0 (x : Word) : Word := rotr x 2 ^^^ rotr x 13 ^^^ rotr x 22

/-- R137: big sigma 1. -/
def bigSigma1 (x : Word) : Word := rotr x 6 ^^^ rotr x 11 ^^^ rotr x 25

/-- R138: small sigma 0. -/
def smallSigma0 (x : Word) : Word := rotr x 7 ^^^ rotr x 18 ^^^ shr x 3

/-- R139: small sigma 1. -/
def smallSigma1 (x : Word) : Word := rotr x 17 ^^^ rotr x 19 ^^^ shr x 10

/-- R13: n zero bytes. -/
def zeros (n : Nat) : Bytes := List.replicate n 0

/-- R13: byte-wise exclusive-or of two sequences of one length. -/
def xorBytes (s t : Bytes) : Bytes := List.zipWith (fun x y => x ^^^ y) s t

/-- R14: four bytes packed big-endian, the first in bits 31:24. -/
def be32 (b0 b1 b2 b3 : Byte) : Word := b0 ++ b1 ++ b2 ++ b3

/-- R14: the four bytes of a word, most significant first. -/
def wordBytes (w : Word) : Bytes :=
  [w.extractLsb' 24 8, w.extractLsb' 16 8, w.extractLsb' 8 8, w.extractLsb' 0 8]

/-- R14: byte j of `BE64bytes(n)`, byte 0 the most significant. -/
def be64Byte (n j : Nat) : Byte := BitVec.ofNat 8 (n / 2 ^ (8 * (7 - j)))

/-- R14: the 8 bytes of n, most significant first. -/
def be64Bytes (n : Nat) : Bytes := (List.range 8).map (be64Byte n)

/-- The eight words in index order. -/
def wordsList (v : Words8) : List Word := [v.a, v.b, v.c, v.d, v.e, v.f, v.g, v.h]

/-- Word i of eight, i in [0, 8). -/
def wordAt (v : Words8) (i : Nat) : Word :=
  match i with
  | 0 => v.a
  | 1 => v.b
  | 2 => v.c
  | 3 => v.d
  | 4 => v.e
  | 5 => v.f
  | 6 => v.g
  | _ => v.h

/-- The eight words with word i replaced, i in [0, 8). -/
def setWordAt (v : Words8) (i : Nat) (x : Word) : Words8 :=
  match i with
  | 0 => { v with a := x }
  | 1 => { v with b := x }
  | 2 => { v with c := x }
  | 3 => { v with d := x }
  | 4 => { v with e := x }
  | 5 => { v with f := x }
  | 6 => { v with g := x }
  | _ => { v with h := x }

/-- Word-wise `add32` of two octets of words (the feed-forward of R167). -/
def addWords8 (u v : Words8) : Words8 :=
  { a := add32 u.a v.a, b := add32 u.b v.b, c := add32 u.c v.c, d := add32 u.d v.d,
    e := add32 u.e v.e, f := add32 u.f v.f, g := add32 u.g v.g, h := add32 u.h v.h }

/-- R170: the digest of eight words, each split big-endian. -/
def ser (v : Words8) : Bytes := (wordsList v).flatMap wordBytes

/-- R163: every four consecutive bytes as one big-endian word. -/
def packWords : Bytes → List Word
  | b0 :: b1 :: b2 :: b3 :: rest => be32 b0 b1 b2 b3 :: packWords rest
  | _ => []

/-- Eight words from a list of eight. -/
def wordsOfList (l : List Word) : Words8 :=
  { a := l.getD 0 0, b := l.getD 1 0, c := l.getD 2 0, d := l.getD 3 0,
    e := l.getD 4 0, f := l.getD 5 0, g := l.getD 6 0, h := l.getD 7 0 }

/-- R170: the inverse of `ser` on 32 bytes. -/
def deser (d : Bytes) : Words8 := wordsOfList (packWords d)

/-- R172: word `w` with byte k (bits 31-8k : 24-8k) replaced by `b`. -/
def setByte (w : Word) (k : Nat) (b : Byte) : Word :=
  (w &&& ~~~((0xFF : Word) <<< (24 - 8 * k))) ||| (b.setWidth 32 <<< (24 - 8 * k))

/-- R171, R205: the ASCII code of one lowercase hex digit. -/
def asciiHex (d : BitVec 4) : Byte :=
  if d.toNat ≤ 9 then 0x30 + d.setWidth 8 else 0x61 + (d.setWidth 8 - 10)

end Sys2Proof.Machine
end

