-- ==== Sys2Proof/Machine/Pipeline.lean ====
section
/-!
DEFINITION. The hash pipeline as pure functions (spec 41_pipeline.md R160 to R171), "the normative
meaning of every command", with HMAC (43_hmac.md R220) and the Merkle root (44_merkle.md R240) on
top of it.
-/

namespace Sys2Proof.Machine

/-- R160: the fill of `pad`, zero bytes until the running length is 56 mod 64; at most 63 are
needed, so 64 rounds of the loop reach the end. -/
def fillZeros : Nat → Bytes → Bytes
  | 0, p => p
  | n + 1, p => if p.length % 64 = 56 then p else fillZeros n (p ++ [0x00])

/-- R160: the padded message. -/
def pad (m : Bytes) : Bytes := fillZeros 64 (m ++ [0x80]) ++ be64Bytes (8 * m.length)

/-- R163: n blocks of 16 consecutive words. -/
def splitBlocks : Nat → List Word → List (List Word)
  | 0, _ => []
  | n + 1, ws => ws.take 16 :: splitBlocks n (ws.drop 16)

/-- R163: the ordered blocks of a padded message. -/
def parse (p : Bytes) : List (List Word) := splitBlocks (p.length / 64) (packWords p)

/-- R165: the schedule word of index `t = w.length`, from the words before it. -/
def scheduleWord (w : List Word) : Word :=
  add32 (add32 (add32 (smallSigma1 (w.getD (w.length - 2) 0)) (w.getD (w.length - 7) 0))
    (smallSigma0 (w.getD (w.length - 15) 0))) (w.getD (w.length - 16) 0)

/-- R165: n more schedule words. -/
def expand : Nat → List Word → List Word
  | 0, w => w
  | n + 1, w => expand n (w ++ [scheduleWord w])

/-- R165: the 64 schedule words of a block. -/
def schedule (b : List Word) : List Word := expand 48 b

/-- R166: one round with round constant `k` and schedule word `w`. -/
def roundFn (v : Words8) (k w : Word) : Words8 :=
  let t1 := add32 (add32 (add32 (add32 v.h (bigSigma1 v.e)) (ch v.e v.f v.g)) k) w
  let t2 := add32 (bigSigma0 v.a) (maj v.a v.b v.c)
  { a := add32 t1 t2, b := v.a, c := v.b, d := v.c, e := add32 v.d t1, f := v.e, g := v.f, h := v.g }

/-- R167: the working variables after rounds 0 .. n-1. -/
def rounds (w : List Word) : Nat → Words8 → Words8
  | 0, v => v
  | n + 1, v => roundFn (rounds w n v) (roundConstant n) (w.getD n 0)

/-- R167: the next chaining state. -/
def compress (hin : Words8) (b : List Word) : Words8 := addWords8 hin (rounds (schedule b) 64 hin)

/-- R168: the chaining state after the last block. -/
def chain (m : Bytes) : Words8 := (parse (pad m)).foldl compress iv

/-- R169: the digest of a message. -/
def sha256 (m : Bytes) : Bytes := ser (chain m)

/-- R161: the number of blocks of the padding of an L-byte sequence. -/
def blockCount (l : Nat) : Nat := (l + 8) / 64 + 1

/-- R171: the two lowercase hex characters of a byte, high digit first. -/
def hexPair (b : Byte) : Bytes := [asciiHex (b.extractLsb' 4 4), asciiHex (b.extractLsb' 0 4)]

/-- R171: the hex rendering of a digest. -/
def hexString (d : Bytes) : Bytes := d.flatMap hexPair

/-- R205: the word read from HEXk. -/
def hexWord (h : Words8) (k : Nat) : Word :=
  let half : BitVec 16 := (wordAt h (k / 2)).extractLsb' (16 * (1 - k % 2)) 16
  be32 (asciiHex (half.extractLsb' 12 4)) (asciiHex (half.extractLsb' 8 4))
    (asciiHex (half.extractLsb' 4 4)) (asciiHex (half.extractLsb' 0 4))

/-- R220: the key after normalisation, exactly 64 bytes. -/
def normKey (key : Bytes) : Bytes :=
  let k := if key.length > 64 then sha256 key else key
  k ++ zeros (64 - k.length)

/-- R220: the inner key of a normalised key. -/
def innerKey (k0 : Bytes) : Bytes := xorBytes k0 (List.replicate 64 0x36)

/-- R220: the outer key of a normalised key. -/
def outerKey (k0 : Bytes) : Bytes := xorBytes k0 (List.replicate 64 0x5c)

/-- R220: the HMAC-SHA256 tag. -/
def hmacTag (key msg : Bytes) : Bytes :=
  sha256 (outerKey (normKey key) ++ sha256 (innerKey (normKey key) ++ msg))

/-- R240, R244: a layer of odd size gets its last node once more. -/
def evenLayer (layer : List Bytes) : List Bytes :=
  if layer.length % 2 = 1 then layer ++ [layer.getLastD []] else layer

/-- R240: the parents of adjacent pairs, in order. -/
def hashPairs : List Bytes → List Bytes
  | l :: r :: rest => sha256 (l ++ r) :: hashPairs rest
  | _ => []

/-- R240: the reduction, at most `n` layers of it; a layer of n nodes needs fewer than n. -/
def reduceLayers : Nat → List Bytes → Bytes
  | 0, layer => layer.headD []
  | n + 1, layer =>
    if layer.length ≤ 1 then layer.headD [] else reduceLayers n (hashPairs (evenLayer layer))

/-- R240: the reduction of a whole layer to its root. -/
def reduceLayer (layer : List Bytes) : Bytes := reduceLayers layer.length layer

/-- R240: the Merkle root of a non-empty sequence of items. -/
def merkleRoot (items : List Bytes) : Bytes := reduceLayer ((evenLayer items).map sha256)

end Sys2Proof.Machine
end

