-- ==== Sys2Proof/Machine/State.lean ====
section
/-!
DEFINITION. The state of SHA256-CORE as plain data (spec 10_state.md), the memory the host owns
(20_memory.md R80), the schedule of the three agents (00_scope.md R20), the reasons a step can stop,
and the state after reset (R59).

Three groups of fields:
* the instance's own state: the register file (R32) and the engine-internal state (R52 to R57), the
  part `State.blockReset` resets;
* the surroundings: memory, the platform parameters, the reset input, the bus read data, the
  schedule;
* the model's own: `draws` and `raced`, which supply and select free values (log entries 3 and 9).
-/

namespace Sys2Proof.Machine

/-- R300: the error codes of STATUS.ECODE.  The codes 7 to 15 are never produced. -/
inductive ErrCode where
  | none
  | illegalCmd
  | lengthOverflow
  | merkleEmpty
  | range
  | busError
  | merkleCapacity
  deriving DecidableEq, Repr

/-- R37: the fields of STATUS.  The reserved bits 7:4 and 31:16 read 0 and hold nothing. -/
structure Status where
  /-- Bit 0 (R38): 1 while an accepted command executes. -/
  busy : Bool
  /-- Bit 1 (R39): the last accepted command completed without error. -/
  done : Bool
  /-- Bit 2 (R40): the last command offered ended in an error. -/
  err : Bool
  /-- Bit 3 (R41): a write was ignored because the engine was busy. -/
  wib : Bool
  /-- Bits 11:8 (R300): the error code, NONE when ERR = 0. -/
  ecode : ErrCode
  /-- Bits 15:12 (R42): the OP field of the last command word offered while idle. -/
  lastop : BitVec 4
  deriving DecidableEq, Repr

/-- R172: one segment of a byte stream. -/
inductive Segment where
  /-- `Mem(base, n)`: n bytes read from memory at base, ascending. -/
  | mem (base len : Nat)
  /-- `Bytes(s)`: bytes the engine already holds. -/
  | held (bytes : Bytes)
  deriving DecidableEq, Repr

/-- R172: the position inside `HashStream`: which byte the next PutByte places. -/
inductive Tail where
  /-- The next byte of the stream (BYTE). -/
  | data
  /-- The terminator 0x80 (PAD). -/
  | term
  /-- A fill byte 0x00 (PAD). -/
  | zero
  /-- Byte j of the length field (PAD). -/
  | len (j : Nat)
  /-- Every byte of the padded stream has been placed. -/
  | done
  deriving DecidableEq, Repr

/-- R55: the phase of the HMAC wrapper. -/
inductive HmacPhase where
  | keyHash
  | inner
  | outer
  deriving DecidableEq, Repr

/-- R56: the stage of the Merkle node hasher. -/
inductive MerkleStage where
  | leaf
  | reduce
  deriving DecidableEq, Repr

/-- R180: the kind of the micro-step the engine takes next. -/
inductive Phase where
  /-- INITLOAD of INIT (R193). -/
  | initLoad
  /-- BYTE or PAD of `HashStream` (R172), by `Datapath.tail`. -/
  | put
  /-- LOAD (R172, R195). -/
  | load
  /-- ROUND (R172, R195). -/
  | round
  /-- FEED (R172, R195). -/
  | feed
  /-- BYTE of the copy form of the key phase (R225). -/
  | keyByte
  /-- KEYPAD (R225). -/
  | keyPad
  /-- MASK (R225). -/
  | mask
  /-- DUP (R244). -/
  | dup
  /-- COMPLETE (R190). -/
  | complete
  deriving DecidableEq, Repr

/-- R52: the control state of the engine.  `op` is the accepted opcode. -/
inductive Fsm where
  | idle
  | run (op : BitVec 4) (phase : Phase)
  deriving DecidableEq, Repr

/-- R53 to R56: the engine-internal state, which no register read exposes. -/
structure Datapath where
  /-- R53: the working variables a..h. -/
  vars : Words8
  /-- R53: the round counter t, 0 to 64. -/
  t : Nat
  /-- R53: the schedule words W[0], W[1], .. that have been computed; at most 64. -/
  w : List Word
  /-- R53: the pre-compression chaining value cv. -/
  cv : Words8
  /-- R54: the block buffer blk[0..16). -/
  blk : Vector Word 16
  /-- R172 `pos`: the number of bytes placed in blk (log entry 6). -/
  pos : Nat
  /-- R54 `pos`: the number of message bytes consumed, the bytes of the stream being hashed that have
  been placed (log entry 6). -/
  consumed : Nat
  /-- R54: the stream descriptor: what is left of the stream being hashed. -/
  segs : List Segment
  /-- R54: the bit length to be written in the padding. -/
  bitlen : BitVec 64
  /-- R172: the chaining state S of the stream being hashed. -/
  chain : Words8
  /-- R172: the position inside `HashStream`. -/
  tail : Tail
  /-- R55: the normalised key, as far as it has been assembled; 64 bytes after KEYPAD. -/
  k0 : Bytes
  /-- R55: the inner digest. -/
  ihash : Bytes
  /-- R55: the phase of the HMAC wrapper. -/
  hmacPhase : HmacPhase
  /-- R56: the node buffer, the nodes NODE[0], NODE[1], .. it retains. -/
  node : List Bytes
  /-- R56: the current layer size m. -/
  m : Nat
  /-- R56: the pair index p. -/
  p : Nat
  /-- R56: the stage of the Merkle node hasher. -/
  stage : MerkleStage
  /-- R190, R193, R195: the `result` handed to COMPLETE. -/
  result : Words8
  deriving DecidableEq, Repr

/-- One host action: a bus transaction (R117, R341), a write of memory (R80: memory is the host's),
or a change of the reset input (R340). -/
inductive HostOp where
  /-- `WR`: a write of `data` at a bus address, `size` bytes wide (R263, R86). -/
  | write (addr size : Nat) (data : Word)
  /-- `RD`: a read at a bus address, `size` bytes wide (R260, R86). -/
  | read (addr size : Nat)
  /-- `RD <reg> == <value>`: a word read whose value the script asserts (R117). -/
  | expect (addr : Nat) (value : Word)
  /-- `WAIT`: read STATUS until BUSY = 0 (R118). -/
  | wait
  /-- A write of one byte of memory by the host or any other agent (R80, R95). -/
  | memWrite (addr : Nat) (byte : Byte)
  /-- The reset input is asserted (R340). -/
  | assertReset
  /-- The reset input is released (R340). -/
  | releaseReset
  deriving DecidableEq, Repr

/-- R20: which agent steps next. -/
inductive Event where
  /-- HOST performs one action. -/
  | host (op : HostOp)
  /-- ENGINE takes one micro-step (R180). -/
  | micro
  /-- ENGINE takes all the micro-steps the running command has left as one step (R180, R182). -/
  | command
  deriving DecidableEq, Repr

/-- Why the machine stops with a fault. -/
inductive Fault where
  /-- Raised by `HostOp.expect` when the word read is not the asserted one (R117): the test script
  failed, not the hardware.  Safe: the run stops. -/
  | assertionFailed (addr : Nat) (got wanted : Word)
  /-- Raised by `HostOp.memWrite` at an address of 2^32 or more, which does not exist (R80).
  Safe: the run stops. -/
  | noSuchAddress (addr : Nat)
  deriving DecidableEq, Repr

/-- Why the model has no step (93_implementation_defined.md, treatment `refuse`). -/
inductive Refusal where
  /-- An instruction that has no meaning yet.  Safe: the run stops. -/
  | notModelled (mnemonic : String)
  /-- Raised by a register access that is not an aligned 32-bit one (R86, U11).  Safe. -/
  | malformedAccess (off size : Nat)
  /-- Raised by a bus access outside REG_BASE .. REG_BASE + 0xFF (R81): it is not this block's, and
  the spec does not say whose it is.  Safe. -/
  | outsideRegisterSpace (addr : Nat)
  /-- Raised by a register access while the reset input is asserted (R340, U13).  Safe. -/
  | accessDuringReset
  /-- Raised by a command that reads memory whose reads have side effects (R83, U12).  Safe. -/
  | sideEffectRead (addr : Nat)
  /-- Raised by an engine step whose `fsm` holds an opcode that no command has.  No acceptance leaves
  such a state (R265), and the invariant of Safety.lean rules it out.  Safe. -/
  | undefinedEngineOp (op : BitVec 4)
  deriving DecidableEq, Repr

/-- R80: memory, as the list of the bytes that differ from `Config.unlistedByte`, addresses strictly
rising (`Memory.wf` of Ops.lean). -/
abbrev Memory := List Host.Cell

/-- The whole machine: R30, R80, R20. -/
structure State where
  /-- CTRL.IE (R35). -/
  ie : Bool
  /-- STATUS (R37). -/
  status : Status
  /-- MSG_ADDR (R43). -/
  msgAddr : Word
  /-- MSG_LEN_LO (R43). -/
  msgLenLo : Word
  /-- MSG_LEN_HI (R43). -/
  msgLenHi : Word
  /-- KEY_ADDR (R44). -/
  keyAddr : Word
  /-- KEY_LEN (R44). -/
  keyLen : Word
  /-- ITEM_ADDR (R45). -/
  itemAddr : Word
  /-- ITEM_COUNT (R45). -/
  itemCount : Word
  /-- ERR_ADDR (R47). -/
  errAddr : Word
  /-- BLK0..BLK15 (R48). -/
  blk : Vector Word 16
  /-- H0..H7 (R49). -/
  h : Words8
  /-- The control state of the engine (R52). -/
  fsm : Fsm
  /-- The engine-internal state (R53 to R56). -/
  dp : Datapath
  /-- Memory (R80). -/
  mem : Memory
  /-- The parameters of the instance (R9, R21, R80); no step changes them. -/
  platform : Platform
  /-- The reset input is asserted (R340, R341). -/
  rst : Bool
  /-- The word the last register read returned (R341: the read data of the register port). -/
  rdata : Word
  /-- What happens next, first to last (R20): the plain data that says which agent moves.  When it is
  empty the engine moves (R355: weak fairness). -/
  schedule : List Event
  /-- The model's own: how many free values have been drawn (R17). -/
  draws : Nat
  /-- The model's own: a byte of the running command's read set was written (R95). -/
  raced : Bool
  deriving DecidableEq, Repr

/-- R37, R59: STATUS after reset, 0x00000000. -/
def Status.cleared : Status :=
  { busy := false, done := false, err := false, wib := false, ecode := .none, lastop := 0 }

/-- Eight zero words. -/
def zeroWords8 : Words8 := { a := 0, b := 0, c := 0, d := 0, e := 0, f := 0, g := 0, h := 0 }

/-- R59: the engine-internal state is "unspecified; never observable before the engine writes them".
DESIGN CHOICE (log entry 4): this one value stands for it after reset and after a command ends. -/
def Datapath.unspecified : Datapath :=
  { vars := zeroWords8, t := 0, w := [], cv := zeroWords8, blk := Vector.replicate 16 0, pos := 0,
    consumed := 0, segs := [], bitlen := 0, chain := zeroWords8, tail := .data, k0 := [], ihash := [],
    hmacPhase := .keyHash, node := [], m := 0, p := 0, stage := .leaf, result := zeroWords8 }

/-- R59: the state of an instance of the given platform after a hardware reset, with nothing in
memory, nothing scheduled and the reset input released. -/
def State.resetOn (p : Platform) : State :=
  { ie := false, status := Status.cleared, msgAddr := 0, msgLenLo := 0, msgLenHi := 0, keyAddr := 0,
    keyLen := 0, itemAddr := 0, itemCount := 0, errAddr := 0, blk := Vector.replicate 16 0, h := iv,
    fsm := .idle, dp := Datapath.unspecified, mem := [], platform := p, rst := false, rdata := 0,
    schedule := [], draws := 0, raced := false }

/-- The machine right after reset, on the platform of the spec's test vectors (log entry 1). -/
def State.reset : State := State.resetOn Config.testPlatform

end Sys2Proof.Machine
end

