-- ==== Sys2Proof/Machine/Ops.lean ====
section
/-!
DEFINITION. The shared operations: memory (spec 20_memory.md), free values (00_scope.md R17), the
end of a command (42_hash_commands.md R190, 60_exceptions.md R310) and reset (70_reset_and_hazards.md
R340, R342).

Taking an exception, on this hardware, is `State.raise` (an error during execution, R310) and
`State.reject` (a rejection at acceptance, R301).  There is no vector, no saved program counter, no
mode and no return instruction (R311, R312); the host acknowledges by a STATUS write (`writeStatus`
of Flags.lean) or by offering the next command (`State.offer`).
-/

namespace Sys2Proof.Machine

/-! ### Memory -/

/-- R80: the byte memory holds at an address; an unlisted address reads as `Config.unlistedByte`. -/
def Memory.get : Memory → Nat → Byte
  | [], _ => Config.unlistedByte
  | (k, v) :: rest, a => if a = k then v else Memory.get rest a

/-- R80: memory after byte `b` is written at address `a`, in canonical form. -/
def Memory.set : Memory → Nat → Byte → Memory
  | [], a, b => if b = Config.unlistedByte then [] else [(a, b)]
  | (k, v) :: rest, a, b =>
    if a < k then (if b = Config.unlistedByte then (k, v) :: rest else (a, b) :: (k, v) :: rest)
    else if a = k then (if b = Config.unlistedByte then rest else (a, b) :: rest)
    else (k, v) :: Memory.set rest a b

/-- Every address is at least `lo`, below 2^32 and above the one before it, and no byte is the one an
unlisted address reads as. -/
def Memory.wfFrom (lo : Nat) : Memory → Bool
  | [] => true
  | (k, v) :: rest =>
    lo ≤ k && k < Config.memSize && v != Config.unlistedByte && Memory.wfFrom (k + 1) rest

/-- The canonical form of memory. -/
def Memory.wf (m : Memory) : Bool := Memory.wfFrom 0 m

/-- The range holds the address. -/
def regionHolds (r : Region) (a : Nat) : Bool := r.base ≤ a && a < r.base + r.size

/-- R80: `Admitted(addr)`. -/
def admitted (p : Platform) (a : Nat) : Bool :=
  a < Config.memSize && p.regions.any (fun r => regionHolds r a)

/-- R83: a read of the address has side effects. -/
def sideEffectAt (p : Platform) (a : Nat) : Bool :=
  p.regions.any (fun r => regionHolds r a && r.sideEffects)

/-- What an engine read of memory answers (R16, R80, R83). -/
inductive ReadResult (α : Type) where
  | ok (value : α)
  | busError (addr : Nat)
  | sideEffect (addr : Nat)
  deriving DecidableEq, Repr

/-- R16, R80: `MemRead(addr, 1)`. -/
def State.memRead (s : State) (a : Nat) : ReadResult Byte :=
  if admitted s.platform a then
    if sideEffectAt s.platform a then .sideEffect a else .ok (Memory.get s.mem a)
  else .busError a

/-- R16: `MemReadBuf(base, n)`: ascending, ended by the first read that gives no byte. -/
def State.readBuf (s : State) (base : Nat) : Nat → ReadResult Bytes
  | 0 => .ok []
  | n + 1 =>
    match s.memRead base with
    | .ok b =>
      match s.readBuf (base + 1) n with
      | .ok bs => .ok (b :: bs)
      | .busError a => .busError a
      | .sideEffect a => .sideEffect a
    | .busError a => .busError a
    | .sideEffect a => .sideEffect a

/-- R113, R243: the 32-byte items at the given addresses, read one after another. -/
def State.readItems (s : State) : List Nat → ReadResult (List Bytes)
  | [] => .ok []
  | a :: rest =>
    match s.readBuf a Config.itemBytes with
    | .ok item =>
      match s.readItems rest with
      | .ok items => .ok (item :: items)
      | .busError e => .busError e
      | .sideEffect e => .sideEffect e
    | .busError e => .busError e
    | .sideEffect e => .sideEffect e

/-! ### Free values -/

/-- R17: eight draws, numbers n to n + 7. -/
def freeWords8 (n : Nat) : Words8 :=
  { a := Config.freeWord n, b := Config.freeWord (n + 1), c := Config.freeWord (n + 2),
    d := Config.freeWord (n + 3), e := Config.freeWord (n + 4), f := Config.freeWord (n + 5),
    g := Config.freeWord (n + 6), h := Config.freeWord (n + 7) }

/-- R310, R95: each of H0..H7 becomes `any Word`, drawn once and held. -/
def State.scrambleH (s : State) : State := { s with h := freeWords8 s.draws, draws := s.draws + 8 }

/-! ### The life of a command -/

/-- R265, the first lines of `Accept`: the flags a command word offered while idle clears, and
LASTOP. -/
def State.offer (s : State) (v : Word) : State :=
  { s with
    status := { s.status with done := false, err := false, ecode := .none, lastop := opField v }
    errAddr := 0 }

/-- R265, R301: the command word is rejected; nothing starts. -/
def State.reject (s : State) (e : ErrCode) : State :=
  { s with status := { s.status with busy := false, err := true, ecode := e }, fsm := .idle }

/-- The engine falls idle and the internal state of the command is discarded (R190, R310; log
entry 4). -/
def State.settle (s : State) : State :=
  { s with fsm := .idle, dp := Datapath.unspecified, raced := false }

/-- R190: COMPLETE(result), one atomic step. -/
def State.complete (s : State) (result : Words8) : State :=
  { s.settle with h := result, status := { s.status with busy := false, done := true } }

/-- R190, R95: COMPLETE of a command that read memory: if a byte of its read set was written while it
ran, the result it leaves is `any Word` per word. -/
def State.completeRead (s : State) (result : Words8) : State :=
  if s.raced then (s.complete result).scrambleH else s.complete result

/-- R310 (and R17 `raise Error(code, addr)`): an error during execution ends the command in one atomic
step. -/
def State.raise (s : State) (code : ErrCode) (addr : Nat) : State :=
  { s.settle.scrambleH with
    status := { s.status with busy := false, err := true, ecode := code }
    errAddr := BitVec.ofNat 32 addr }

/-- R306, R83: go on with what a read answered, or end the command. -/
def State.withRead {α : Type} (s : State) (r : ReadResult α)
    (k : α → Host.Outcome State Fault Refusal) : Host.Outcome State Fault Refusal :=
  match r with
  | .ok x => k x
  | .busError a => .next (s.raise .busError a)
  | .sideEffect a => .refused (.sideEffectRead a)

/-! ### Reset -/

/-- R340, R342: every register and all internal state of the instance takes its R59 value; memory, the
platform, the bus and the schedule are not the instance's. -/
def State.blockReset (s : State) : State :=
  { State.resetOn s.platform with
    mem := s.mem, rst := s.rst, rdata := s.rdata, schedule := s.schedule, draws := s.draws }

end Sys2Proof.Machine
end

