-- ==== Sys2Proof/Machine/Flags.lean ====
section
/-!
DEFINITION. The flags (spec 10_state.md R37 to R42, R60), the STATUS and CTRL words (45_host_access.md
R266, R267) and the interrupt output (60_exceptions.md R320).
-/

namespace Sys2Proof.Machine

/-- R300: the number of an error code. -/
def ErrCode.code : ErrCode → BitVec 4
  | .none => 0
  | .illegalCmd => 1
  | .lengthOverflow => 2
  | .merkleEmpty => 3
  | .range => 4
  | .busError => 5
  | .merkleCapacity => 6

/-- A flag as one bit. -/
def bit (b : Bool) : BitVec 1 := if b then 1 else 0

/-- R37: the STATUS word: bits 31:16 and 7:4 are 0, LASTOP 15:12, ECODE 11:8, WIB 3, ERR 2, DONE 1,
BUSY 0. -/
def Status.toWord (f : Status) : Word :=
  (0 : BitVec 16) ++ f.lastop ++ f.ecode.code ++ (0 : BitVec 4) ++ bit f.wib ++ bit f.err ++
    bit f.done ++ bit f.busy

/-- R35: the CTRL word: SRST and the reserved bits read 0. -/
def ctrlWord (ie : Bool) : Word := (0 : BitVec 31) ++ bit ie

/-- R266: a write of STATUS: each of bits 1, 2, 3 that is 1 clears its flag; clearing ERR also clears
ECODE and ERR_ADDR. -/
def State.writeStatus (s : State) (v : Word) : State :=
  { s with
    status :=
      { s.status with
        done := s.status.done && !v.getLsbD 1
        err := s.status.err && !v.getLsbD 2
        ecode := if v.getLsbD 2 then .none else s.status.ecode
        wib := s.status.wib && !v.getLsbD 3 }
    errAddr := if v.getLsbD 2 then 0 else s.errAddr }

/-- R267: a write of CTRL: bit 1 resets the instance and the rest is discarded, else IE takes bit 0. -/
def State.writeCtrl (s : State) (v : Word) : State :=
  if v.getLsbD 1 then s.blockReset else { s with ie := v.getLsbD 0 }

/-- R41, R268: a write made while busy is dropped and only WIB records it. -/
def State.dropWrite (s : State) : State := { s with status := { s.status with wib := true } }

/-- R58, R320: the interrupt output, a level computed from CTRL.IE, DONE and ERR. -/
def State.irq (s : State) : Bool := s.ie && (s.status.done || s.status.err)

end Sys2Proof.Machine
end

