-- ==== Sys2Proof/Machine/Operands.lean ====
section
/-!
DEFINITION. The operands of the commands (spec 30_encoding.md R113, 20_memory.md R91, R92), the
acceptance checks over them (60_exceptions.md R301), and the register map (10_state.md R32).
-/

namespace Sys2Proof.Machine

/-- R43, R113: MSG_LEN, the 64-bit byte count of the message. -/
def State.msgLen (s : State) : Nat := s.msgLenHi.toNat * 2 ^ 32 + s.msgLenLo.toNat

/-- R241: the leaf count after the duplication of an odd last item. -/
def paddedCount (n : Nat) : Nat := n + n % 2

/-- R113, R243: the address of the item leaf i hashes: item min(i, n-1). -/
def State.leafAddr (s : State) (i : Nat) : Nat :=
  s.itemAddr.toNat + Config.itemBytes * min i (s.itemCount.toNat - 1)

/-- R243: the addresses of the leaves in order. -/
def State.leafAddrs (s : State) : List Nat :=
  (List.range (paddedCount s.itemCount.toNat)).map s.leafAddr

/-- R91: the buffer of n bytes at base does not cross the top of the address space. -/
def inRange (base n : Nat) : Bool := base + n ≤ Config.memSize

/-- R301, the checks of one command, the first that fails: `none` if the command may start. -/
def State.preCheck (s : State) : Instr → ErrCode
  | .init => .none
  | .compress => .none
  | .hash =>
    if s.msgLen ≥ Config.maxHashedBytes then .lengthOverflow
    else if !inRange s.msgAddr.toNat s.msgLen then .range
    else .none
  | .hmac =>
    if 64 + s.msgLen ≥ Config.maxHashedBytes then .lengthOverflow
    else if !inRange s.msgAddr.toNat s.msgLen then .range
    else if !inRange s.keyAddr.toNat s.keyLen.toNat then .range
    else .none
  | .merkle =>
    if s.itemCount.toNat = 0 then .merkleEmpty
    else if paddedCount s.itemCount.toNat > s.platform.nodeCap.toNat then .merkleCapacity
    else if !inRange s.itemAddr.toNat (Config.itemBytes * s.itemCount.toNat) then .range
    else .none

/-- R301, R302: the checks of a command word. -/
def State.preCheckWord (s : State) (v : Word) : ErrCode :=
  match decode v with
  | .illegal _ => .illegalCmd
  | .instr i => s.preCheck i

/-- The address lies in the buffer of n bytes at base. -/
def inBuffer (base n a : Nat) : Bool := base ≤ a && a < base + n

/-- R92: the read set of a command. -/
def State.inReadSet (s : State) (a : Nat) : Instr → Bool
  | .init => false
  | .compress => false
  | .hash => inBuffer s.msgAddr.toNat s.msgLen a
  | .hmac => inBuffer s.keyAddr.toNat s.keyLen.toNat a || inBuffer s.msgAddr.toNat s.msgLen a
  | .merkle => inBuffer s.itemAddr.toNat (Config.itemBytes * s.itemCount.toNat) a

/-- R92, R95: the engine is running a command whose read set holds the address. -/
def State.runningReads (s : State) (a : Nat) : Bool :=
  match s.fsm with
  | .idle => false
  | .run op _ =>
    match decodeOp op with
    | .illegal _ => false
    | .instr i => s.inReadSet a i

/-- R32: the names of the 64 word slots. -/
inductive Reg where
  | id
  | version
  | ctrl
  | cmd
  | status
  | msgAddr
  | msgLenLo
  | msgLenHi
  | keyAddr
  | keyLen
  | itemAddr
  | itemCount
  | nodeCap
  | errAddr
  | blk (j : Fin 16)
  | h (i : Fin 8)
  | hex (k : Fin 16)
  /-- The slots of 0x038, 0x03C and 0x0E0 to 0x0FC (R51), by slot number. -/
  | reserved (slot : Nat)
  deriving DecidableEq, Repr

/-- R32: the register of word slot n (offset 4n), n in [0, 64). -/
def regOfSlot (n : Nat) : Reg :=
  match n with
  | 0 => .id
  | 1 => .version
  | 2 => .ctrl
  | 3 => .cmd
  | 4 => .status
  | 5 => .msgAddr
  | 6 => .msgLenLo
  | 7 => .msgLenHi
  | 8 => .keyAddr
  | 9 => .keyLen
  | 10 => .itemAddr
  | 11 => .itemCount
  | 12 => .nodeCap
  | 13 => .errAddr
  | n =>
    if 16 ≤ n ∧ n < 32 then .blk (Fin.ofNat 16 (n - 16))
    else if 32 ≤ n ∧ n < 40 then .h (Fin.ofNat 8 (n - 32))
    else if 40 ≤ n ∧ n < 56 then .hex (Fin.ofNat 16 (n - 40))
    else .reserved n

/-- R32: the offset of a register. -/
def offsetOf : Reg → Nat
  | .id => 0x000
  | .version => 0x004
  | .ctrl => 0x008
  | .cmd => 0x00C
  | .status => 0x010
  | .msgAddr => 0x014
  | .msgLenLo => 0x018
  | .msgLenHi => 0x01C
  | .keyAddr => 0x020
  | .keyLen => 0x024
  | .itemAddr => 0x028
  | .itemCount => 0x02C
  | .nodeCap => 0x030
  | .errAddr => 0x034
  | .blk j => 0x040 + 4 * j.val
  | .h i => 0x080 + 4 * i.val
  | .hex k => 0x0A0 + 4 * k.val
  | .reserved slot => 4 * slot

end Sys2Proof.Machine
end

