-- ==== Sys2Proof/Machine/HashCommands.lean ====
section
/-!
DEFINITION. INIT, COMPRESS and HASH (spec 42_hash_commands.md), and the frame every command shares:
flags of the offer, acceptance checks, body, COMPLETE or error.

The meaning of a command is its whole rule, taken as one atomic engine step from acceptance to the
idle engine (41_pipeline.md R182).  `exec` of an accepted command repeats the offer and the checks of
its acceptance, which change nothing then (the operand registers are frozen, R57), so the step of the
running engine and the rule taken from an idle engine are one definition.
-/

namespace Sys2Proof.Machine

/-- The common template of the command rules: offer (R265), acceptance checks (R301), then the body. -/
def State.runCommand (s : State) (i : Instr) (body : State → Host.Outcome State Fault Refusal) :
    Host.Outcome State Fault Refusal :=
  match s.preCheck i with
  | .none => body (s.offer (encode i))
  | e => .next ((s.offer (encode i)).reject e)

/-- R193: INIT, load the initial digest state. -/
def execInit (s : State) : Host.Outcome State Fault Refusal :=
  s.runCommand .init fun s => .next (s.complete iv)

/-- R195: COMPRESS, one productive transition of the compression state machine. -/
def execCompress (s : State) : Host.Outcome State Fault Refusal :=
  s.runCommand .compress fun s => .next (s.complete (compress s.h s.blk.toList))

/-- R199: HASH, SHA-256 of the message. -/
def execHash (s : State) : Host.Outcome State Fault Refusal :=
  s.runCommand .hash fun s =>
    s.withRead (s.readBuf s.msgAddr.toNat s.msgLen) fun msg =>
      .next (s.completeRead (deser (sha256 msg)))

end Sys2Proof.Machine
end

