-- ==== Sys2Proof/Machine/HmacCommand.lean ====
section
/-!
DEFINITION. HMAC (spec 43_hmac.md R222 to R225).
-/

namespace Sys2Proof.Machine

/-- R225: HMAC-SHA256 of key and message, the key read first (R93). -/
def execHmac (s : State) : Host.Outcome State Fault Refusal :=
  s.runCommand .hmac fun s =>
    s.withRead (s.readBuf s.keyAddr.toNat s.keyLen.toNat) fun key =>
      s.withRead (s.readBuf s.msgAddr.toNat s.msgLen) fun msg =>
        .next (s.completeRead (deser (hmacTag key msg)))

end Sys2Proof.Machine
end

