-- ==== Sys2Proof/Machine/MerkleCommand.lean ====
section
/-!
DEFINITION. MERKLE (spec 44_merkle.md R242 to R245).
-/

namespace Sys2Proof.Machine

/-- R245: LEAF reads the items in index order, the last one once more when their number is odd (R243),
and hashes each; REDUCE folds the layer to its root (R244). -/
def execMerkle (s : State) : Host.Outcome State Fault Refusal :=
  s.runCommand .merkle fun s =>
    s.withRead (s.readItems s.leafAddrs) fun leafItems =>
      .next (s.completeRead (deser (reduceLayer (leafItems.map sha256))))

end Sys2Proof.Machine
end

