-- ==== Sys2Proof/Machine/Dispatch.lean ====
section
/-!
DEFINITION. The dispatch from a command to its meaning.
-/

namespace Sys2Proof.Machine

def exec (i : Instr) (s : State) : Host.Outcome State Fault Refusal :=
  match i with
  | .init => Sys2Proof.Machine.execInit s
  | .compress => Sys2Proof.Machine.execCompress s
  | .hash => Sys2Proof.Machine.execHash s
  | .hmac => Sys2Proof.Machine.execHmac s
  | .merkle => Sys2Proof.Machine.execMerkle s

end Sys2Proof.Machine
end

