-- ==== Sys2Proof/Machine/MicroSteps.lean ====
section
/-!
DEFINITION. The engine's micro-step machine (spec 41_pipeline.md R172, R180, 42_hash_commands.md R193,
R195, 43_hmac.md R225, 44_merkle.md R243, R244): the same commands as in the meanings `exec` calls,
computed one indivisible transition at a time with the internal state of R53 to R56.
-/

namespace Sys2Proof.Machine

/-- R172: where the next byte of a stream comes from. -/
inductive ByteSource where
  /-- A memory read at the address. -/
  | read (addr : Nat)
  /-- A byte the engine holds. -/
  | held (byte : Byte)
  deriving DecidableEq, Repr

/-- R172: the number of bytes of a segment. -/
def segmentLen : Segment → Nat
  | .mem _ n => n
  | .held bs => bs.length

/-- R172: the length of a stream, the total over its segments. -/
def streamLen (segs : List Segment) : Nat := (segs.map segmentLen).sum

/-- R172: the next byte of a stream and the rest of it; empty segments give no byte. -/
def popByte : List Segment → Option (ByteSource × List Segment)
  | [] => none
  | .mem _ 0 :: rest => popByte rest
  | .mem base (n + 1) :: rest => some (.read base, .mem (base + 1) n :: rest)
  | .held [] :: rest => popByte rest
  | .held (b :: bs) :: rest => some (.held b, .held bs :: rest)

/-- R172: the engine at phase `ph` of command `op`, with the internal state `dp`. -/
def State.goto (s : State) (op : BitVec 4) (ph : Phase) (dp : Datapath) : State :=
  { s with fsm := .run op ph, dp := dp }

/-- R172: while bytes of the stream are left the next PutByte takes one, then comes the terminator. -/
def dataTail (segs : List Segment) : Tail := if streamLen segs = 0 then .term else .data

/-- R172: after the terminator or a fill byte that brought the block to `pos` bytes: fill while
pos is not 56 (a full block counts as 0), then the length field. -/
def fillTail (pos : Nat) : Tail := if pos % 64 = 56 then .len 0 else .zero

/-- R172: after byte j of the length field. -/
def lenTail (j : Nat) : Tail := if j = 7 then .done else .len (j + 1)

/-- R172, the first line of `HashStream`. -/
def Datapath.startStream (dp : Datapath) (segs : List Segment) : Datapath :=
  { dp with
    segs := segs, bitlen := BitVec.ofNat 64 (8 * streamLen segs), chain := iv, pos := 0, consumed := 0
    tail := dataTail segs }

/-- R172: byte `pos` of the block buffer. -/
def setBlockByte (blk : Vector Word 16) (pos : Nat) (b : Byte) : Vector Word 16 :=
  blk.setIfInBounds (pos / 4) (setByte (blk.getD (pos / 4) 0) (pos % 4) b)

/-- R172: `PutByte(b)`, up to the start of CompressBlock when the block is full.  `segs` is what is left
of the stream afterwards and `n` the number of its bytes consumed (R54). -/
def State.putByte (s : State) (op : BitVec 4) (b : Byte) (segs : List Segment) (n : Nat) (tail : Tail) :
    State :=
  s.goto op (if s.dp.pos + 1 = 64 then .load else .put)
    { s.dp with
      blk := setBlockByte s.dp.blk s.dp.pos b, pos := s.dp.pos + 1, segs := segs, consumed := n
      tail := tail }

/-- R172 BYTE: the next byte of the stream is placed; `rest` is what is left of the stream. -/
def State.putData (s : State) (op : BitVec 4) (b : Byte) (rest : List Segment) : State :=
  s.putByte op b rest (s.dp.consumed + 1) (dataTail rest)

/-- R172 PAD: a byte that is not the stream's is placed. -/
def State.putPad (s : State) (op : BitVec 4) (b : Byte) (tail : Tail) : State :=
  s.putByte op b s.dp.segs s.dp.consumed tail

/-- R172, R180: one BYTE or PAD micro-step of `HashStream`. -/
def State.microPut (s : State) (op : BitVec 4) : Host.Outcome State Fault Refusal :=
  match s.dp.tail with
  | .data =>
    match popByte s.dp.segs with
    | none => .next s
    | some (.held b, rest) => .next (s.putData op b rest)
    | some (.read a, rest) =>
      s.withRead (s.memRead a) fun b => .next (s.putData op b rest)
  | .term => .next (s.putPad op 0x80 (fillTail (s.dp.pos + 1)))
  | .zero => .next (s.putPad op 0x00 (fillTail (s.dp.pos + 1)))
  | .len j => .next (s.putPad op (be64Byte s.dp.bitlen.toNat j) (lenTail j))
  | .done => .next s

/-- R172, R195: LOAD.  COMPRESS loads H and BLK, a stream its chaining state S and the block buffer. -/
def State.microLoad (s : State) (op : BitVec 4) : State :=
  let hin := if op = opcode .compress then s.h else s.dp.chain
  let block := if op = opcode .compress then s.blk.toList else s.dp.blk.toList
  s.goto op .round { s.dp with cv := hin, vars := hin, w := block, t := 0 }

/-- R172, R195: ROUND t, with the schedule word it needs. -/
def State.microRound (s : State) (op : BitVec 4) : State :=
  let w := if s.dp.t ≥ 16 then s.dp.w ++ [scheduleWord s.dp.w] else s.dp.w
  s.goto op (if s.dp.t + 1 = 64 then .feed else .round)
    { s.dp with
      w := w, vars := roundFn s.dp.vars (roundConstant s.dp.t) (w.getD s.dp.t 0), t := s.dp.t + 1 }

/-- R244: the hash of pair p, NODE[2p] ‖ NODE[2p+1]. -/
def State.startPair (s : State) (op : BitVec 4) (dp : Datapath) : State :=
  s.goto op .put
    (dp.startStream [.held (dp.node.getD (2 * dp.p) []), .held (dp.node.getD (2 * dp.p + 1) [])])

/-- R244: the head of the loop `while m > 1`. -/
def State.reduceHead (s : State) (op : BitVec 4) (dp : Datapath) : State :=
  if dp.m ≤ 1 then s.goto op .complete { dp with result := deser (dp.node.getD 0 []) }
  else if dp.m % 2 = 1 then s.goto op .dup dp
  else s.startPair op { dp with p := 0 }

/-- R243: the leaf of index i. -/
def State.startLeaf (s : State) (op : BitVec 4) (i : Nat) (dp : Datapath) : State :=
  s.goto op .put (dp.startStream [.mem (s.leafAddr i) Config.itemBytes])

/-- R225: `HashStream` of the HMAC wrapper has returned `d`. -/
def State.hmacStreamDone (s : State) (op : BitVec 4) (d : Bytes) (dp : Datapath) : State :=
  match dp.hmacPhase with
  | .keyHash => s.goto op .keyPad { dp with k0 := d }
  | .inner =>
    s.goto op .put
      ({ dp with ihash := d, hmacPhase := .outer }.startStream [.held (outerKey dp.k0), .held d])
  | .outer => s.goto op .complete { dp with result := deser d }

/-- R243, R244: `HashStream` of the node hasher has returned `d`. -/
def State.merkleStreamDone (s : State) (op : BitVec 4) (d : Bytes) (dp : Datapath) : State :=
  match dp.stage with
  | .leaf =>
    if dp.node.length + 1 < paddedCount s.itemCount.toNat then
      s.startLeaf op (dp.node.length + 1) { dp with node := dp.node ++ [d] }
    else
      s.reduceHead op
        { dp with node := dp.node ++ [d], stage := .reduce, m := paddedCount s.itemCount.toNat }
  | .reduce =>
    if dp.p + 1 < dp.m / 2 then s.startPair op { dp with node := dp.node.set dp.p d, p := dp.p + 1 }
    else s.reduceHead op { dp with node := (dp.node.set dp.p d).take (dp.m / 2), m := dp.m / 2 }

/-- R172: `HashStream` has returned `d`; the command goes on. -/
def State.streamDone (s : State) (op : BitVec 4) (d : Bytes) (dp : Datapath) : State :=
  match decodeOp op with
  | .instr .hmac => s.hmacStreamDone op d dp
  | .instr .merkle => s.merkleStreamDone op d dp
  | _ => s.goto op .complete { dp with result := deser d }

/-- R172, R195: FEED, the feed-forward; the one update of the chaining state per block. -/
def State.microFeed (s : State) (op : BitVec 4) : State :=
  let sum := addWords8 s.dp.cv s.dp.vars
  if op = opcode .compress then s.goto op .complete { s.dp with result := sum }
  else
    match s.dp.tail with
    | .done => s.streamDone op (ser sum) { s.dp with chain := sum, pos := 0 }
    | _ => s.goto op .put { s.dp with chain := sum, pos := 0 }

/-- R225: one BYTE micro-step of the copy form of the key phase. -/
def State.microKeyByte (s : State) (op : BitVec 4) : Host.Outcome State Fault Refusal :=
  s.withRead (s.memRead (s.keyAddr.toNat + s.dp.k0.length)) fun b =>
    .next
      (s.goto op (if s.dp.k0.length + 1 = s.keyLen.toNat then .keyPad else .keyByte)
        { s.dp with k0 := s.dp.k0 ++ [b] })

/-- R225: KEYPAD. -/
def State.microKeyPad (s : State) (op : BitVec 4) : State :=
  s.goto op .mask { s.dp with k0 := s.dp.k0 ++ zeros (64 - s.dp.k0.length) }

/-- R225: MASK, after which the inner invocation begins (R223). -/
def State.microMask (s : State) (op : BitVec 4) : State :=
  s.goto op .put
    ({ s.dp with hmacPhase := .inner }.startStream
      [.held (innerKey s.dp.k0), .mem s.msgAddr.toNat s.msgLen])

/-- R244: DUP, after which the pairs of the layer begin. -/
def State.microDup (s : State) (op : BitVec 4) : State :=
  s.startPair op
    { s.dp with node := s.dp.node ++ [s.dp.node.getD (s.dp.m - 1) []], m := s.dp.m + 1, p := 0 }

/-- R180: one micro-step of the engine; an idle engine has none. -/
def State.microStep (s : State) : Host.Outcome State Fault Refusal :=
  match s.fsm with
  | .idle => .next s
  | .run op .initLoad => .next (s.goto op .complete { s.dp with result := iv })
  | .run op .put => s.microPut op
  | .run op .load => .next (s.microLoad op)
  | .run op .round => .next (s.microRound op)
  | .run op .feed => .next (s.microFeed op)
  | .run op .keyByte => s.microKeyByte op
  | .run op .keyPad => .next (s.microKeyPad op)
  | .run op .mask => .next (s.microMask op)
  | .run op .dup => .next (s.microDup op)
  | .run _ .complete => .next (s.completeRead s.dp.result)

/-- R180: `n` micro-steps, ended by the first one that stops. -/
def State.microSteps (s : State) : Nat → Host.Outcome State Fault Refusal
  | 0 => .next s
  | n + 1 =>
    match s.microStep with
    | .next t => t.microSteps n
    | .fault f => .fault f
    | .refused r => .refused r

/-- R225: the first micro-step of HMAC: hash the key, copy it, or go straight to KEYPAD. -/
def State.startHmac (s : State) (op : BitVec 4) : State :=
  if s.keyLen.toNat > 64 then
    s.goto op .put
      ({ s.dp with hmacPhase := .keyHash }.startStream [.mem s.keyAddr.toNat s.keyLen.toNat])
  else if s.keyLen.toNat = 0 then s.goto op .keyPad { s.dp with k0 := [] }
  else s.goto op .keyByte { s.dp with k0 := [] }

/-- R265, `RUN(op, first micro-step)`: the engine at the first micro-step of the command with this
opcode.  Every internal variable a command uses is written here or by a micro-step before it is read
(R181). -/
def State.start (s : State) (op : BitVec 4) : State :=
  match decodeOp op with
  | .instr .init => s.goto op .initLoad s.dp
  | .instr .compress => s.goto op .load s.dp
  | .instr .hash => s.goto op .put (s.dp.startStream [.mem s.msgAddr.toNat s.msgLen])
  | .instr .hmac => s.startHmac op
  | .instr .merkle => s.startLeaf op 0 { s.dp with node := [], stage := .leaf }
  | .illegal _ => s

/-- R265, the last lines of `Accept`: the command with the word `v` is accepted and the engine is at its
first micro-step. -/
def State.launch (s : State) (v : Word) : State :=
  { (s.offer v).start (opField v) with status := { (s.offer v).status with busy := true } }

/-! ### Work counts -/

/-- R183, 95_test_vectors.md section 11: the micro-steps of hashing a stream of L bytes: 64·N(L) BYTE
and PAD steps and N(L) compressions of 66 steps. -/
def hashSteps (l : Nat) : Nat := 130 * blockCount l

/-- R247: the micro-steps of the reduction of a layer of m nodes: for each layer of more than one node
the DUP step of an odd one and two-block hashes of its pairs. -/
def reduceSteps : Nat → Nat → Nat
  | 0, _ => 0
  | n + 1, m =>
    if m ≤ 1 then 0 else m % 2 + hashSteps 64 * ((m + 1) / 2) + reduceSteps n ((m + 1) / 2)

/-- R183, R200, R226, R247: the micro-steps from acceptance to COMPLETE, COMPLETE among them. -/
def State.workCount (s : State) : Instr → Nat
  | .init => 2
  | .compress => 67
  | .hash => hashSteps s.msgLen + 1
  | .hmac =>
    (if s.keyLen.toNat > 64 then hashSteps s.keyLen.toNat else s.keyLen.toNat) + 1 + 1 +
      hashSteps (64 + s.msgLen) + hashSteps 96 + 1
  | .merkle =>
    hashSteps 32 * paddedCount s.itemCount.toNat +
      reduceSteps (paddedCount s.itemCount.toNat) (paddedCount s.itemCount.toNat) + 1

end Sys2Proof.Machine
end

