-- ==== Sys2Proof/Machine/HostAccess.lean ====
section
/-!
DEFINITION. Host register access (spec 45_host_access.md): reads (R260 to R262), writes (R263 to R271)
and acceptance (R265).
-/

namespace Sys2Proof.Machine

/-- R33: the word ID reads. -/
def idWord : Word := 0x53323536

/-- R34: the word VERSION reads. -/
def versionWord : Word := 0x00070001

/-- R265: `Accept(v)`, one atomic step. -/
def State.accept (s : State) (v : Word) : State :=
  match s.preCheckWord v with
  | .none => s.launch v
  | e => (s.offer v).reject e

/-- R260: the word a register read returns when it is not a read of H or HEX while busy. -/
def State.regValue (s : State) : Reg → Word
  | .id => idWord
  | .version => versionWord
  | .ctrl => ctrlWord s.ie
  | .cmd => 0
  | .status => s.status.toWord
  | .msgAddr => s.msgAddr
  | .msgLenLo => s.msgLenLo
  | .msgLenHi => s.msgLenHi
  | .keyAddr => s.keyAddr
  | .keyLen => s.keyLen
  | .itemAddr => s.itemAddr
  | .itemCount => s.itemCount
  | .nodeCap => s.platform.nodeCap
  | .errAddr => s.errAddr
  | .blk j => s.blk[j]
  | .h i => wordAt s.h i.val
  | .hex k => hexWord s.h k.val
  | .reserved _ => 0

/-- R262: the registers that read as `any Word` while busy. -/
def Reg.isResult : Reg → Bool
  | .h _ => true
  | .hex _ => true
  | _ => false

/-- R260, R262, R89: a register read puts a word on the read data lines and changes nothing else of
the machine; a read of H or HEX while busy takes a fresh draw. -/
def State.readReg (s : State) (r : Reg) : State :=
  if s.status.busy && r.isResult then
    { s with rdata := Config.freeWord s.draws, draws := s.draws + 1 }
  else { s with rdata := s.regValue r }

/-- R263, the `case` of `HostWrite`: a write made while idle. -/
def State.writeIdle (s : State) (r : Reg) (v : Word) : State :=
  match r with
  | .cmd => s.accept v
  | .msgAddr => { s with msgAddr := v }
  | .msgLenLo => { s with msgLenLo := v }
  | .msgLenHi => { s with msgLenHi := v }
  | .keyAddr => { s with keyAddr := v }
  | .keyLen => { s with keyLen := v }
  | .itemAddr => { s with itemAddr := v }
  | .itemCount => { s with itemCount := v }
  | .blk j => { s with blk := s.blk.set j v }
  | .h i => { s with h := setWordAt s.h i.val v }
  | .id => s
  | .version => s
  | .ctrl => s
  | .status => s
  | .nodeCap => s
  | .errAddr => s
  | .hex _ => s
  | .reserved _ => s

/-- R263: `HostWrite(off, v)`. -/
def State.writeReg (s : State) (r : Reg) (v : Word) : State :=
  match r with
  | .ctrl => s.writeCtrl v
  | .status => s.writeStatus v
  | r => if s.status.busy then s.dropWrite else s.writeIdle r v

/-- R81, R86, R340: the register a bus access of the given shape reaches, or why it has no meaning. -/
def State.selectReg (s : State) (addr size : Nat) : Except Refusal Reg :=
  if s.rst then .error .accessDuringReset
  else if addr < s.platform.regBase ∨ s.platform.regBase + 256 ≤ addr then
    .error (.outsideRegisterSpace addr)
  else if accessWellFormed (addr - s.platform.regBase) size then
    .ok (regOfSlot ((addr - s.platform.regBase) / 4))
  else .error (.malformedAccess (addr - s.platform.regBase) size)

/-- R117 `WR`. -/
def State.busWrite (s : State) (addr size : Nat) (v : Word) : Host.Outcome State Fault Refusal :=
  match s.selectReg addr size with
  | .ok r => .next (s.writeReg r v)
  | .error e => .refused e

/-- R117 `RD`. -/
def State.busRead (s : State) (addr size : Nat) : Host.Outcome State Fault Refusal :=
  match s.selectReg addr size with
  | .ok r => .next (s.readReg r)
  | .error e => .refused e

/-- R117 `RD <reg> == <value>`. -/
def State.busExpect (s : State) (addr : Nat) (v : Word) : Host.Outcome State Fault Refusal :=
  match s.busRead addr 4 with
  | .next t => if t.rdata = v then .next t else .fault (.assertionFailed addr t.rdata v)
  | .fault f => .fault f
  | .refused r => .refused r

/-- R80, R95: a byte of memory is written.  When the engine is running a command whose read set holds
the address, the result of that command is lost (log entry 9). -/
def State.writeMem (s : State) (a : Nat) (b : Byte) : Host.Outcome State Fault Refusal :=
  if a < Config.memSize then
    .next { s with mem := Memory.set s.mem a b, raced := s.raced || s.runningReads a }
  else .fault (.noSuchAddress a)

/-! ### Host scripts (30_encoding.md R117, R118) -/

/-- `WR <reg>, <value>`. -/
def scriptWR (p : Platform) (r : Reg) (v : Word) : Event := .host (.write (p.regBase + offsetOf r) 4 v)

/-- `RD <reg>`. -/
def scriptRD (p : Platform) (r : Reg) : Event := .host (.read (p.regBase + offsetOf r) 4)

/-- `RD <reg> == <value>`. -/
def scriptRDIs (p : Platform) (r : Reg) (v : Word) : Event := .host (.expect (p.regBase + offsetOf r) v)

/-- `CMD <mnemonic>`. -/
def scriptCMD (p : Platform) (i : Instr) : Event := scriptWR p .cmd (encode i)

/-- `SETLEN <n>`. -/
def scriptSETLEN (p : Platform) (n : Nat) : List Event :=
  [scriptWR p .msgLenLo (BitVec.ofNat 32 (n % 2 ^ 32)), scriptWR p .msgLenHi (BitVec.ofNat 32 (n / 2 ^ 32))]

/-- `ACK`. -/
def scriptACK (p : Platform) : Event := scriptWR p .status 0x0000000E

/-- `SRST`. -/
def scriptSRST (p : Platform) : Event := scriptWR p .ctrl 0x00000002

/-- `RDH`. -/
def scriptRDH (p : Platform) : List Event :=
  (List.range 8).map fun i => scriptRD p (.h (Fin.ofNat 8 i))

end Sys2Proof.Machine
end

