-- ==== Sys2Proof/Machine/Agents.lean ====
section
/-!
DEFINITION. What each agent does when it steps (spec 00_scope.md R20): ENGINE runs the command its
`fsm` holds, HOST performs one action.  MEMORY answers inside the engine's reads (`State.memRead`).
-/

namespace Sys2Proof.Machine

/-- R182: ENGINE runs the accepted command to its end as one step; an idle engine has nothing to do.
The command is decoded from the opcode `fsm` holds. -/
def State.engineCommand (s : State) : Host.Outcome State Fault Refusal :=
  match s.fsm with
  | .idle => .next s
  | .run op _ =>
    match decodeOp op with
    | .instr i => exec i s
    | .illegal _ => .refused (.undefinedEngineOp op)

/-- R340: the reset input is asserted; the instance is reset in one step. -/
def State.assertReset (s : State) : State := { s.blockReset with rst := true }

/-- R340: the reset input is released. -/
def State.releaseReset (s : State) : State := { s with rst := false }

/-- One host action; `rest` is the schedule after it.  R118 `WAIT`: while BUSY = 1 the polling goes on
(the WAIT stays scheduled) and the engine moves (R355: weak fairness); with BUSY = 0 the STATUS read is
the last one. -/
def State.hostAction (s : State) (op : HostOp) (rest : List Event) :
    Host.Outcome State Fault Refusal :=
  match op with
  | .write addr size v => { s with schedule := rest }.busWrite addr size v
  | .read addr size => { s with schedule := rest }.busRead addr size
  | .expect addr v => { s with schedule := rest }.busExpect addr v
  | .wait =>
    if s.status.busy then s.engineCommand
    else { s with schedule := rest }.busRead (s.platform.regBase + offsetOf .status) 4
  | .memWrite a b => { s with schedule := rest }.writeMem a b
  | .assertReset => .next { s with schedule := rest }.assertReset
  | .releaseReset => .next { s with schedule := rest }.releaseReset

/-- R20: the agent the schedule names steps; with nothing scheduled the engine does (R355). -/
def State.agentStep (s : State) : Host.Outcome State Fault Refusal :=
  match s.schedule with
  | [] => s.engineCommand
  | .host op :: rest => s.hostAction op rest
  | .micro :: rest => { s with schedule := rest }.microStep
  | .command :: rest => { s with schedule := rest }.engineCommand

/-- The state in which a command word `w` was just accepted, with the engine to move; a word that
is no command is the next thing the host writes to CMD instead. -/
def State.withCommandWord (s : State) (w : Word) : State :=
  let idle := { s with rst := false, schedule := [] }
  match decode w with
  | .instr _ => idle.launch w
  | .illegal _ => { idle with schedule := [scriptWR s.platform .cmd w] }

end Sys2Proof.Machine
end

