-- ==== Sys2Proof/Machine/Step.lean ====
section
/-!
DEFINITION. One step of the machine (spec 00_scope.md R20) and the state whose next step runs a given
command word.

The hardware fetches no instructions (R31, R101): a program is a host script, held in
`State.schedule`, and an instruction is a word the host writes to CMD.  The engine takes the command
from the opcode its `fsm` holds (R52, R265).
-/

namespace Sys2Proof.Machine

/-- R20: one enabled agent steps; which one is read from the schedule. -/
def step (s : State) : Host.Outcome State Fault Refusal := s.agentStep

/-- The state in which the command word `w` has just been accepted and the engine moves next, so that
`step` runs exactly that command (log entry 10). -/
def State.withFetchWord (s : State) (nbits w : Nat) : State :=
  s.withCommandWord (BitVec.ofNat 32 (w % 2 ^ nbits))

end Sys2Proof.Machine
end

