-- ==== Sys2Proof/Safety.lean ====
section
/-!
DEFINITION. The invariant of the machine: what the spec's own statements about the whole machine say of
every state it can be in.  `Inv` holds at reset and every step keeps it (both are obligations); the
statements that need it name it as a premise.
-/

namespace Sys2Proof.Machine

/-! ### The terms claims use -/

/-- R80, R83: a read of the address gives a byte. -/
def State.readable (s : State) (a : Nat) : Prop :=
  admitted s.platform a = true ∧ sideEffectAt s.platform a = false

/-- R16: the n bytes memory holds from `base` on. -/
def State.bytesAt (s : State) (base n : Nat) : Bytes :=
  (List.range n).map fun i => Memory.get s.mem (base + i)

/-- R113: the message operand of HASH and HMAC. -/
def State.message (s : State) : Bytes := s.bytesAt s.msgAddr.toNat s.msgLen

/-- R113: the key operand of HMAC. -/
def State.key (s : State) : Bytes := s.bytesAt s.keyAddr.toNat s.keyLen.toNat

/-- R113: the item sequence of MERKLE. -/
def State.items (s : State) : List Bytes :=
  (List.range s.itemCount.toNat).map fun j =>
    s.bytesAt (s.itemAddr.toNat + Config.itemBytes * j) Config.itemBytes

/-- Every byte of the n bytes from `base` on can be read. -/
def State.bufferReadable (s : State) (base n : Nat) : Prop := ∀ i < n, s.readable (base + i)

/-- Byte k of the buffer is the first one whose read is not admitted (R306). -/
def State.firstBusError (s : State) (base n k : Nat) : Prop :=
  k < n ∧ s.bufferReadable base k ∧ admitted s.platform (base + k) = false

/-- Every byte of a command's read set (R92) can be read. -/
def State.operandsReadable (s : State) : Instr → Prop
  | .init => True
  | .compress => True
  | .hash => s.bufferReadable s.msgAddr.toNat s.msgLen
  | .hmac =>
    s.bufferReadable s.keyAddr.toNat s.keyLen.toNat ∧ s.bufferReadable s.msgAddr.toNat s.msgLen
  | .merkle => s.bufferReadable s.itemAddr.toNat (Config.itemBytes * s.itemCount.toNat)

/-! ### The invariant -/

/-- R172: where the position inside `HashStream` and the fill of the block buffer can stand together
when the next thing is a PutByte.  The last length byte always fills a block: "assert pos = 0". -/
def Datapath.putOk (dp : Datapath) : Prop :=
  dp.pos < 64 ∧
    match dp.tail with
    | .data => 0 < streamLen dp.segs
    | .term => True
    | .zero => dp.pos ≠ 56
    | .len j => j < 8 ∧ dp.pos = 56 + j
    | .done => False

/-- R172: the same while a full block is compressed. -/
def Datapath.blockOk (dp : Datapath) : Prop :=
  dp.pos = 64 ∧
    match dp.tail with
    | .data => 0 < streamLen dp.segs
    | .term => True
    | .zero => True
    | .len _ => False
    | .done => True

/-- R55, R56, R243, R244: what the wrapper around `HashStream` holds while a stream is hashed. -/
def State.wrapperOk (s : State) : Instr → Prop
  | .init => False
  | .compress => False
  | .hash => True
  | .hmac => s.dp.hmacPhase ≠ .keyHash → s.dp.k0.length = 64
  | .merkle =>
    match s.dp.stage with
    | .leaf => s.dp.node.length < paddedCount s.itemCount.toNat
    | .reduce =>
      s.dp.node.length = s.dp.m ∧ s.dp.m % 2 = 0 ∧ s.dp.p < s.dp.m / 2 ∧
        s.dp.m ≤ paddedCount s.itemCount.toNat

/-- R52, R180: what holds of the engine-internal state at each micro-step of a command. -/
def State.phaseOk (s : State) (i : Instr) : Phase → Prop
  | .initLoad => i = .init
  | .put => s.dp.putOk ∧ s.wrapperOk i
  | .load => i = .compress ∨ (s.dp.blockOk ∧ s.wrapperOk i)
  | .round =>
    s.dp.t < 64 ∧ s.dp.w.length = max 16 s.dp.t ∧ (i = .compress ∨ (s.dp.blockOk ∧ s.wrapperOk i))
  | .feed =>
    s.dp.t = 64 ∧ s.dp.w.length = 64 ∧ (i = .compress ∨ (s.dp.blockOk ∧ s.wrapperOk i))
  | .keyByte => i = .hmac ∧ s.dp.k0.length < s.keyLen.toNat ∧ s.keyLen.toNat ≤ 64
  | .keyPad => i = .hmac ∧ s.dp.k0.length ≤ 64
  | .mask => i = .hmac ∧ s.dp.k0.length = 64
  | .dup =>
    i = .merkle ∧ s.dp.stage = .reduce ∧ s.dp.node.length = s.dp.m ∧ s.dp.m % 2 = 1 ∧
      1 < s.dp.m ∧ s.dp.m < paddedCount s.itemCount.toNat
  | .complete => True

/-- The engine runs a command: R38 (BUSY), R39, R265 (DONE, ERR, ECODE, ERR_ADDR are clear), R42
(LASTOP is its opcode), R57 (its operands still pass the acceptance checks) and R180. -/
structure State.RunOk (s : State) (op : BitVec 4) (ph : Phase) : Prop where
  busy : s.status.busy = true
  done : s.status.done = false
  err : s.status.err = false
  lastop : s.status.lastop = op
  notReset : s.rst = false
  command : ∃ i, decodeOp op = .instr i ∧ s.preCheck i = .none ∧ s.phaseOk i ph ∧
    (s.raced = true → i ≠ .init ∧ i ≠ .compress)

/-- The engine is idle: R38, R95. -/
structure State.IdleOk (s : State) : Prop where
  busy : s.status.busy = false
  raced : s.raced = false

/-- The engine state and the flags fit. -/
def State.engineOk (s : State) : Prop :=
  match s.fsm with
  | .idle => s.IdleOk
  | .run op ph => s.RunOk op ph

/-- R53, R54, R56, R241: the ranges of the internal state, and what its counts add up to. -/
structure State.RangesOk (s : State) : Prop where
  t : s.dp.t ≤ 64
  w : s.dp.w.length ≤ 64
  pos : s.dp.pos ≤ 64
  node : s.dp.node.length ≤ s.platform.nodeCap.toNat
  nodeBytes : ∀ d ∈ s.dp.node, d.length = 32
  /-- R54: the bytes consumed and the bytes left make up the length whose bits `bitlen` holds. -/
  counted : s.dp.bitlen = BitVec.ofNat 64 (8 * (s.dp.consumed + streamLen s.dp.segs))

/-- The invariant of every state of the machine. -/
structure Inv (s : State) : Prop where
  /-- Memory keeps its canonical form. -/
  mem : Memory.wf s.mem = true
  /-- R9: the parameters have legal values. -/
  platform : s.platform.valid = true
  /-- R39: DONE = 1 and ERR = 1 never hold together. -/
  notBoth : ¬(s.status.done = true ∧ s.status.err = true)
  /-- R37, R40: ECODE is NONE exactly when ERR = 0. -/
  ecode : s.status.err = false ↔ s.status.ecode = .none
  /-- R47: ERR_ADDR is 0 unless the last error was a BUS_ERROR. -/
  errAddr : s.status.ecode ≠ .busError → s.errAddr = 0
  engine : s.engineOk
  ranges : s.RangesOk

end Sys2Proof.Machine
end

