-- ==== Sys2Proof/Laws/State.lean ====
section
/-!
SUPPORT. One lemma per field per shared update of the state, each true by rfl, and what the updates
leave of the derived views (message length, acceptance checks, reads of memory).
-/

namespace Sys2Proof.Machine

/-! ### `State.offer` (R265) -/

@[simp] theorem State.offer_ie (s : State) (v : Word) : (s.offer v).ie = s.ie := rfl
@[simp] theorem State.offer_status (s : State) (v : Word) :
    (s.offer v).status = { s.status with done := false, err := false, ecode := .none, lastop := opField v } := rfl
@[simp] theorem State.offer_msgAddr (s : State) (v : Word) : (s.offer v).msgAddr = s.msgAddr := rfl
@[simp] theorem State.offer_msgLenLo (s : State) (v : Word) :
    (s.offer v).msgLenLo = s.msgLenLo := rfl
@[simp] theorem State.offer_msgLenHi (s : State) (v : Word) :
    (s.offer v).msgLenHi = s.msgLenHi := rfl
@[simp] theorem State.offer_keyAddr (s : State) (v : Word) : (s.offer v).keyAddr = s.keyAddr := rfl
@[simp] theorem State.offer_keyLen (s : State) (v : Word) : (s.offer v).keyLen = s.keyLen := rfl
@[simp] theorem State.offer_itemAddr (s : State) (v : Word) :
    (s.offer v).itemAddr = s.itemAddr := rfl
@[simp] theorem State.offer_itemCount (s : State) (v : Word) :
    (s.offer v).itemCount = s.itemCount := rfl
@[simp] theorem State.offer_errAddr (s : State) (v : Word) : (s.offer v).errAddr = 0 := rfl
@[simp] theorem State.offer_blk (s : State) (v : Word) : (s.offer v).blk = s.blk := rfl
@[simp] theorem State.offer_h (s : State) (v : Word) : (s.offer v).h = s.h := rfl
@[simp] theorem State.offer_fsm (s : State) (v : Word) : (s.offer v).fsm = s.fsm := rfl
@[simp] theorem State.offer_dp (s : State) (v : Word) : (s.offer v).dp = s.dp := rfl
@[simp] theorem State.offer_mem (s : State) (v : Word) : (s.offer v).mem = s.mem := rfl
@[simp] theorem State.offer_platform (s : State) (v : Word) :
    (s.offer v).platform = s.platform := rfl
@[simp] theorem State.offer_rst (s : State) (v : Word) : (s.offer v).rst = s.rst := rfl
@[simp] theorem State.offer_rdata (s : State) (v : Word) : (s.offer v).rdata = s.rdata := rfl
@[simp] theorem State.offer_schedule (s : State) (v : Word) :
    (s.offer v).schedule = s.schedule := rfl
@[simp] theorem State.offer_draws (s : State) (v : Word) : (s.offer v).draws = s.draws := rfl
@[simp] theorem State.offer_raced (s : State) (v : Word) : (s.offer v).raced = s.raced := rfl

/-! ### `State.reject` (R301) -/

@[simp] theorem State.reject_ie (s : State) (e : ErrCode) : (s.reject e).ie = s.ie := rfl
@[simp] theorem State.reject_status (s : State) (e : ErrCode) :
    (s.reject e).status = { s.status with busy := false, err := true, ecode := e } := rfl
@[simp] theorem State.reject_msgAddr (s : State) (e : ErrCode) :
    (s.reject e).msgAddr = s.msgAddr := rfl
@[simp] theorem State.reject_msgLenLo (s : State) (e : ErrCode) :
    (s.reject e).msgLenLo = s.msgLenLo := rfl
@[simp] theorem State.reject_msgLenHi (s : State) (e : ErrCode) :
    (s.reject e).msgLenHi = s.msgLenHi := rfl
@[simp] theorem State.reject_keyAddr (s : State) (e : ErrCode) :
    (s.reject e).keyAddr = s.keyAddr := rfl
@[simp] theorem State.reject_keyLen (s : State) (e : ErrCode) :
    (s.reject e).keyLen = s.keyLen := rfl
@[simp] theorem State.reject_itemAddr (s : State) (e : ErrCode) :
    (s.reject e).itemAddr = s.itemAddr := rfl
@[simp] theorem State.reject_itemCount (s : State) (e : ErrCode) :
    (s.reject e).itemCount = s.itemCount := rfl
@[simp] theorem State.reject_errAddr (s : State) (e : ErrCode) :
    (s.reject e).errAddr = s.errAddr := rfl
@[simp] theorem State.reject_blk (s : State) (e : ErrCode) : (s.reject e).blk = s.blk := rfl
@[simp] theorem State.reject_h (s : State) (e : ErrCode) : (s.reject e).h = s.h := rfl
@[simp] theorem State.reject_fsm (s : State) (e : ErrCode) : (s.reject e).fsm = .idle := rfl
@[simp] theorem State.reject_dp (s : State) (e : ErrCode) : (s.reject e).dp = s.dp := rfl
@[simp] theorem State.reject_mem (s : State) (e : ErrCode) : (s.reject e).mem = s.mem := rfl
@[simp] theorem State.reject_platform (s : State) (e : ErrCode) :
    (s.reject e).platform = s.platform := rfl
@[simp] theorem State.reject_rst (s : State) (e : ErrCode) : (s.reject e).rst = s.rst := rfl
@[simp] theorem State.reject_rdata (s : State) (e : ErrCode) : (s.reject e).rdata = s.rdata := rfl
@[simp] theorem State.reject_schedule (s : State) (e : ErrCode) :
    (s.reject e).schedule = s.schedule := rfl
@[simp] theorem State.reject_draws (s : State) (e : ErrCode) : (s.reject e).draws = s.draws := rfl
@[simp] theorem State.reject_raced (s : State) (e : ErrCode) : (s.reject e).raced = s.raced := rfl

/-! ### `State.settle` (R190) -/

@[simp] theorem State.settle_ie (s : State) : s.settle.ie = s.ie := rfl
@[simp] theorem State.settle_status (s : State) : s.settle.status = s.status := rfl
@[simp] theorem State.settle_msgAddr (s : State) : s.settle.msgAddr = s.msgAddr := rfl
@[simp] theorem State.settle_msgLenLo (s : State) : s.settle.msgLenLo = s.msgLenLo := rfl
@[simp] theorem State.settle_msgLenHi (s : State) : s.settle.msgLenHi = s.msgLenHi := rfl
@[simp] theorem State.settle_keyAddr (s : State) : s.settle.keyAddr = s.keyAddr := rfl
@[simp] theorem State.settle_keyLen (s : State) : s.settle.keyLen = s.keyLen := rfl
@[simp] theorem State.settle_itemAddr (s : State) : s.settle.itemAddr = s.itemAddr := rfl
@[simp] theorem State.settle_itemCount (s : State) : s.settle.itemCount = s.itemCount := rfl
@[simp] theorem State.settle_errAddr (s : State) : s.settle.errAddr = s.errAddr := rfl
@[simp] theorem State.settle_blk (s : State) : s.settle.blk = s.blk := rfl
@[simp] theorem State.settle_h (s : State) : s.settle.h = s.h := rfl
@[simp] theorem State.settle_fsm (s : State) : s.settle.fsm = .idle := rfl
@[simp] theorem State.settle_dp (s : State) : s.settle.dp = Datapath.unspecified := rfl
@[simp] theorem State.settle_mem (s : State) : s.settle.mem = s.mem := rfl
@[simp] theorem State.settle_platform (s : State) : s.settle.platform = s.platform := rfl
@[simp] theorem State.settle_rst (s : State) : s.settle.rst = s.rst := rfl
@[simp] theorem State.settle_rdata (s : State) : s.settle.rdata = s.rdata := rfl
@[simp] theorem State.settle_schedule (s : State) : s.settle.schedule = s.schedule := rfl
@[simp] theorem State.settle_draws (s : State) : s.settle.draws = s.draws := rfl
@[simp] theorem State.settle_raced (s : State) : s.settle.raced = false := rfl

/-! ### `State.complete` (R190) -/

@[simp] theorem State.complete_ie (s : State) (r : Words8) : (s.complete r).ie = s.ie := rfl
@[simp] theorem State.complete_status (s : State) (r : Words8) :
    (s.complete r).status = { s.status with busy := false, done := true } := rfl
@[simp] theorem State.complete_msgAddr (s : State) (r : Words8) :
    (s.complete r).msgAddr = s.msgAddr := rfl
@[simp] theorem State.complete_msgLenLo (s : State) (r : Words8) :
    (s.complete r).msgLenLo = s.msgLenLo := rfl
@[simp] theorem State.complete_msgLenHi (s : State) (r : Words8) :
    (s.complete r).msgLenHi = s.msgLenHi := rfl
@[simp] theorem State.complete_keyAddr (s : State) (r : Words8) :
    (s.complete r).keyAddr = s.keyAddr := rfl
@[simp] theorem State.complete_keyLen (s : State) (r : Words8) :
    (s.complete r).keyLen = s.keyLen := rfl
@[simp] theorem State.complete_itemAddr (s : State) (r : Words8) :
    (s.complete r).itemAddr = s.itemAddr := rfl
@[simp] theorem State.complete_itemCount (s : State) (r : Words8) :
    (s.complete r).itemCount = s.itemCount := rfl
@[simp] theorem State.complete_errAddr (s : State) (r : Words8) :
    (s.complete r).errAddr = s.errAddr := rfl
@[simp] theorem State.complete_blk (s : State) (r : Words8) : (s.complete r).blk = s.blk := rfl
@[simp] theorem State.complete_h (s : State) (r : Words8) : (s.complete r).h = r := rfl
@[simp] theorem State.complete_fsm (s : State) (r : Words8) : (s.complete r).fsm = .idle := rfl
@[simp] theorem State.complete_dp (s : State) (r : Words8) :
    (s.complete r).dp = Datapath.unspecified := rfl
@[simp] theorem State.complete_mem (s : State) (r : Words8) : (s.complete r).mem = s.mem := rfl
@[simp] theorem State.complete_platform (s : State) (r : Words8) :
    (s.complete r).platform = s.platform := rfl
@[simp] theorem State.complete_rst (s : State) (r : Words8) : (s.complete r).rst = s.rst := rfl
@[simp] theorem State.complete_rdata (s : State) (r : Words8) :
    (s.complete r).rdata = s.rdata := rfl
@[simp] theorem State.complete_schedule (s : State) (r : Words8) :
    (s.complete r).schedule = s.schedule := rfl
@[simp] theorem State.complete_draws (s : State) (r : Words8) :
    (s.complete r).draws = s.draws := rfl
@[simp] theorem State.complete_raced (s : State) (r : Words8) : (s.complete r).raced = false := rfl

/-! ### `State.scrambleH` (R310) -/

@[simp] theorem State.scrambleH_ie (s : State) : s.scrambleH.ie = s.ie := rfl
@[simp] theorem State.scrambleH_status (s : State) : s.scrambleH.status = s.status := rfl
@[simp] theorem State.scrambleH_msgAddr (s : State) : s.scrambleH.msgAddr = s.msgAddr := rfl
@[simp] theorem State.scrambleH_msgLenLo (s : State) : s.scrambleH.msgLenLo = s.msgLenLo := rfl
@[simp] theorem State.scrambleH_msgLenHi (s : State) : s.scrambleH.msgLenHi = s.msgLenHi := rfl
@[simp] theorem State.scrambleH_keyAddr (s : State) : s.scrambleH.keyAddr = s.keyAddr := rfl
@[simp] theorem State.scrambleH_keyLen (s : State) : s.scrambleH.keyLen = s.keyLen := rfl
@[simp] theorem State.scrambleH_itemAddr (s : State) : s.scrambleH.itemAddr = s.itemAddr := rfl
@[simp] theorem State.scrambleH_itemCount (s : State) : s.scrambleH.itemCount = s.itemCount := rfl
@[simp] theorem State.scrambleH_errAddr (s : State) : s.scrambleH.errAddr = s.errAddr := rfl
@[simp] theorem State.scrambleH_blk (s : State) : s.scrambleH.blk = s.blk := rfl
@[simp] theorem State.scrambleH_h (s : State) : s.scrambleH.h = freeWords8 s.draws := rfl
@[simp] theorem State.scrambleH_fsm (s : State) : s.scrambleH.fsm = s.fsm := rfl
@[simp] theorem State.scrambleH_dp (s : State) : s.scrambleH.dp = s.dp := rfl
@[simp] theorem State.scrambleH_mem (s : State) : s.scrambleH.mem = s.mem := rfl
@[simp] theorem State.scrambleH_platform (s : State) : s.scrambleH.platform = s.platform := rfl
@[simp] theorem State.scrambleH_rst (s : State) : s.scrambleH.rst = s.rst := rfl
@[simp] theorem State.scrambleH_rdata (s : State) : s.scrambleH.rdata = s.rdata := rfl
@[simp] theorem State.scrambleH_schedule (s : State) : s.scrambleH.schedule = s.schedule := rfl
@[simp] theorem State.scrambleH_draws (s : State) : s.scrambleH.draws = s.draws + 8 := rfl
@[simp] theorem State.scrambleH_raced (s : State) : s.scrambleH.raced = s.raced := rfl

/-! ### `State.raise` (R310) -/

@[simp] theorem State.raise_ie (s : State) (c : ErrCode) (a : Nat) : (s.raise c a).ie = s.ie := rfl
@[simp] theorem State.raise_status (s : State) (c : ErrCode) (a : Nat) :
    (s.raise c a).status = { s.status with busy := false, err := true, ecode := c } := rfl
@[simp] theorem State.raise_msgAddr (s : State) (c : ErrCode) (a : Nat) :
    (s.raise c a).msgAddr = s.msgAddr := rfl
@[simp] theorem State.raise_msgLenLo (s : State) (c : ErrCode) (a : Nat) :
    (s.raise c a).msgLenLo = s.msgLenLo := rfl
@[simp] theorem State.raise_msgLenHi (s : State) (c : ErrCode) (a : Nat) :
    (s.raise c a).msgLenHi = s.msgLenHi := rfl
@[simp] theorem State.raise_keyAddr (s : State) (c : ErrCode) (a : Nat) :
    (s.raise c a).keyAddr = s.keyAddr := rfl
@[simp] theorem State.raise_keyLen (s : State) (c : ErrCode) (a : Nat) :
    (s.raise c a).keyLen = s.keyLen := rfl
@[simp] theorem State.raise_itemAddr (s : State) (c : ErrCode) (a : Nat) :
    (s.raise c a).itemAddr = s.itemAddr := rfl
@[simp] theorem State.raise_itemCount (s : State) (c : ErrCode) (a : Nat) :
    (s.raise c a).itemCount = s.itemCount := rfl
@[simp] theorem State.raise_errAddr (s : State) (c : ErrCode) (a : Nat) :
    (s.raise c a).errAddr = BitVec.ofNat 32 a := rfl
@[simp] theorem State.raise_blk (s : State) (c : ErrCode) (a : Nat) :
    (s.raise c a).blk = s.blk := rfl
@[simp] theorem State.raise_h (s : State) (c : ErrCode) (a : Nat) :
    (s.raise c a).h = freeWords8 s.draws := rfl
@[simp] theorem State.raise_fsm (s : State) (c : ErrCode) (a : Nat) :
    (s.raise c a).fsm = .idle := rfl
@[simp] theorem State.raise_dp (s : State) (c : ErrCode) (a : Nat) :
    (s.raise c a).dp = Datapath.unspecified := rfl
@[simp] theorem State.raise_mem (s : State) (c : ErrCode) (a : Nat) :
    (s.raise c a).mem = s.mem := rfl
@[simp] theorem State.raise_platform (s : State) (c : ErrCode) (a : Nat) :
    (s.raise c a).platform = s.platform := rfl
@[simp] theorem State.raise_rst (s : State) (c : ErrCode) (a : Nat) :
    (s.raise c a).rst = s.rst := rfl
@[simp] theorem State.raise_rdata (s : State) (c : ErrCode) (a : Nat) :
    (s.raise c a).rdata = s.rdata := rfl
@[simp] theorem State.raise_schedule (s : State) (c : ErrCode) (a : Nat) :
    (s.raise c a).schedule = s.schedule := rfl
@[simp] theorem State.raise_draws (s : State) (c : ErrCode) (a : Nat) :
    (s.raise c a).draws = s.draws + 8 := rfl
@[simp] theorem State.raise_raced (s : State) (c : ErrCode) (a : Nat) :
    (s.raise c a).raced = false := rfl

/-! ### `State.goto` (R180) -/

@[simp] theorem State.goto_ie (s : State) (op : BitVec 4) (ph : Phase) (d : Datapath) :
    (s.goto op ph d).ie = s.ie := rfl
@[simp] theorem State.goto_status (s : State) (op : BitVec 4) (ph : Phase) (d : Datapath) :
    (s.goto op ph d).status = s.status := rfl
@[simp] theorem State.goto_msgAddr (s : State) (op : BitVec 4) (ph : Phase) (d : Datapath) :
    (s.goto op ph d).msgAddr = s.msgAddr := rfl
@[simp] theorem State.goto_msgLenLo (s : State) (op : BitVec 4) (ph : Phase) (d : Datapath) :
    (s.goto op ph d).msgLenLo = s.msgLenLo := rfl
@[simp] theorem State.goto_msgLenHi (s : State) (op : BitVec 4) (ph : Phase) (d : Datapath) :
    (s.goto op ph d).msgLenHi = s.msgLenHi := rfl
@[simp] theorem State.goto_keyAddr (s : State) (op : BitVec 4) (ph : Phase) (d : Datapath) :
    (s.goto op ph d).keyAddr = s.keyAddr := rfl
@[simp] theorem State.goto_keyLen (s : State) (op : BitVec 4) (ph : Phase) (d : Datapath) :
    (s.goto op ph d).keyLen = s.keyLen := rfl
@[simp] theorem State.goto_itemAddr (s : State) (op : BitVec 4) (ph : Phase) (d : Datapath) :
    (s.goto op ph d).itemAddr = s.itemAddr := rfl
@[simp] theorem State.goto_itemCount (s : State) (op : BitVec 4) (ph : Phase) (d : Datapath) :
    (s.goto op ph d).itemCount = s.itemCount := rfl
@[simp] theorem State.goto_errAddr (s : State) (op : BitVec 4) (ph : Phase) (d : Datapath) :
    (s.goto op ph d).errAddr = s.errAddr := rfl
@[simp] theorem State.goto_blk (s : State) (op : BitVec 4) (ph : Phase) (d : Datapath) :
    (s.goto op ph d).blk = s.blk := rfl
@[simp] theorem State.goto_h (s : State) (op : BitVec 4) (ph : Phase) (d : Datapath) :
    (s.goto op ph d).h = s.h := rfl
@[simp] theorem State.goto_fsm (s : State) (op : BitVec 4) (ph : Phase) (d : Datapath) :
    (s.goto op ph d).fsm = .run op ph := rfl
@[simp] theorem State.goto_dp (s : State) (op : BitVec 4) (ph : Phase) (d : Datapath) :
    (s.goto op ph d).dp = d := rfl
@[simp] theorem State.goto_mem (s : State) (op : BitVec 4) (ph : Phase) (d : Datapath) :
    (s.goto op ph d).mem = s.mem := rfl
@[simp] theorem State.goto_platform (s : State) (op : BitVec 4) (ph : Phase) (d : Datapath) :
    (s.goto op ph d).platform = s.platform := rfl
@[simp] theorem State.goto_rst (s : State) (op : BitVec 4) (ph : Phase) (d : Datapath) :
    (s.goto op ph d).rst = s.rst := rfl
@[simp] theorem State.goto_rdata (s : State) (op : BitVec 4) (ph : Phase) (d : Datapath) :
    (s.goto op ph d).rdata = s.rdata := rfl
@[simp] theorem State.goto_schedule (s : State) (op : BitVec 4) (ph : Phase) (d : Datapath) :
    (s.goto op ph d).schedule = s.schedule := rfl
@[simp] theorem State.goto_draws (s : State) (op : BitVec 4) (ph : Phase) (d : Datapath) :
    (s.goto op ph d).draws = s.draws := rfl
@[simp] theorem State.goto_raced (s : State) (op : BitVec 4) (ph : Phase) (d : Datapath) :
    (s.goto op ph d).raced = s.raced := rfl

/-! ### `State.dropWrite` (R268) -/

@[simp] theorem State.dropWrite_ie (s : State) : s.dropWrite.ie = s.ie := rfl
@[simp] theorem State.dropWrite_status (s : State) :
    s.dropWrite.status = { s.status with wib := true } := rfl
@[simp] theorem State.dropWrite_msgAddr (s : State) : s.dropWrite.msgAddr = s.msgAddr := rfl
@[simp] theorem State.dropWrite_msgLenLo (s : State) : s.dropWrite.msgLenLo = s.msgLenLo := rfl
@[simp] theorem State.dropWrite_msgLenHi (s : State) : s.dropWrite.msgLenHi = s.msgLenHi := rfl
@[simp] theorem State.dropWrite_keyAddr (s : State) : s.dropWrite.keyAddr = s.keyAddr := rfl
@[simp] theorem State.dropWrite_keyLen (s : State) : s.dropWrite.keyLen = s.keyLen := rfl
@[simp] theorem State.dropWrite_itemAddr (s : State) : s.dropWrite.itemAddr = s.itemAddr := rfl
@[simp] theorem State.dropWrite_itemCount (s : State) : s.dropWrite.itemCount = s.itemCount := rfl
@[simp] theorem State.dropWrite_errAddr (s : State) : s.dropWrite.errAddr = s.errAddr := rfl
@[simp] theorem State.dropWrite_blk (s : State) : s.dropWrite.blk = s.blk := rfl
@[simp] theorem State.dropWrite_h (s : State) : s.dropWrite.h = s.h := rfl
@[simp] theorem State.dropWrite_fsm (s : State) : s.dropWrite.fsm = s.fsm := rfl
@[simp] theorem State.dropWrite_dp (s : State) : s.dropWrite.dp = s.dp := rfl
@[simp] theorem State.dropWrite_mem (s : State) : s.dropWrite.mem = s.mem := rfl
@[simp] theorem State.dropWrite_platform (s : State) : s.dropWrite.platform = s.platform := rfl
@[simp] theorem State.dropWrite_rst (s : State) : s.dropWrite.rst = s.rst := rfl
@[simp] theorem State.dropWrite_rdata (s : State) : s.dropWrite.rdata = s.rdata := rfl
@[simp] theorem State.dropWrite_schedule (s : State) : s.dropWrite.schedule = s.schedule := rfl
@[simp] theorem State.dropWrite_draws (s : State) : s.dropWrite.draws = s.draws := rfl
@[simp] theorem State.dropWrite_raced (s : State) : s.dropWrite.raced = s.raced := rfl

/-! ### `State.blockReset` (R340) -/

@[simp] theorem State.blockReset_ie (s : State) : s.blockReset.ie = false := rfl
@[simp] theorem State.blockReset_status (s : State) : s.blockReset.status = Status.cleared := rfl
@[simp] theorem State.blockReset_msgAddr (s : State) : s.blockReset.msgAddr = 0 := rfl
@[simp] theorem State.blockReset_msgLenLo (s : State) : s.blockReset.msgLenLo = 0 := rfl
@[simp] theorem State.blockReset_msgLenHi (s : State) : s.blockReset.msgLenHi = 0 := rfl
@[simp] theorem State.blockReset_keyAddr (s : State) : s.blockReset.keyAddr = 0 := rfl
@[simp] theorem State.blockReset_keyLen (s : State) : s.blockReset.keyLen = 0 := rfl
@[simp] theorem State.blockReset_itemAddr (s : State) : s.blockReset.itemAddr = 0 := rfl
@[simp] theorem State.blockReset_itemCount (s : State) : s.blockReset.itemCount = 0 := rfl
@[simp] theorem State.blockReset_errAddr (s : State) : s.blockReset.errAddr = 0 := rfl
@[simp] theorem State.blockReset_blk (s : State) : s.blockReset.blk = Vector.replicate 16 0 := rfl
@[simp] theorem State.blockReset_h (s : State) : s.blockReset.h = iv := rfl
@[simp] theorem State.blockReset_fsm (s : State) : s.blockReset.fsm = .idle := rfl
@[simp] theorem State.blockReset_dp (s : State) : s.blockReset.dp = Datapath.unspecified := rfl
@[simp] theorem State.blockReset_mem (s : State) : s.blockReset.mem = s.mem := rfl
@[simp] theorem State.blockReset_platform (s : State) : s.blockReset.platform = s.platform := rfl
@[simp] theorem State.blockReset_rst (s : State) : s.blockReset.rst = s.rst := rfl
@[simp] theorem State.blockReset_rdata (s : State) : s.blockReset.rdata = s.rdata := rfl
@[simp] theorem State.blockReset_schedule (s : State) : s.blockReset.schedule = s.schedule := rfl
@[simp] theorem State.blockReset_draws (s : State) : s.blockReset.draws = s.draws := rfl
@[simp] theorem State.blockReset_raced (s : State) : s.blockReset.raced = false := rfl

/-! ### `State.completeRead` (R190, R95) -/

@[simp] theorem State.completeRead_ie (s : State) (r : Words8) :
    (s.completeRead r).ie = s.ie := by
  simp only [State.completeRead]; split <;> rfl
@[simp] theorem State.completeRead_status (s : State) (r : Words8) :
    (s.completeRead r).status = { s.status with busy := false, done := true } := by
  simp only [State.completeRead]; split <;> rfl
@[simp] theorem State.completeRead_msgAddr (s : State) (r : Words8) :
    (s.completeRead r).msgAddr = s.msgAddr := by
  simp only [State.completeRead]; split <;> rfl
@[simp] theorem State.completeRead_msgLenLo (s : State) (r : Words8) :
    (s.completeRead r).msgLenLo = s.msgLenLo := by
  simp only [State.completeRead]; split <;> rfl
@[simp] theorem State.completeRead_msgLenHi (s : State) (r : Words8) :
    (s.completeRead r).msgLenHi = s.msgLenHi := by
  simp only [State.completeRead]; split <;> rfl
@[simp] theorem State.completeRead_keyAddr (s : State) (r : Words8) :
    (s.completeRead r).keyAddr = s.keyAddr := by
  simp only [State.completeRead]; split <;> rfl
@[simp] theorem State.completeRead_keyLen (s : State) (r : Words8) :
    (s.completeRead r).keyLen = s.keyLen := by
  simp only [State.completeRead]; split <;> rfl
@[simp] theorem State.completeRead_itemAddr (s : State) (r : Words8) :
    (s.completeRead r).itemAddr = s.itemAddr := by
  simp only [State.completeRead]; split <;> rfl
@[simp] theorem State.completeRead_itemCount (s : State) (r : Words8) :
    (s.completeRead r).itemCount = s.itemCount := by
  simp only [State.completeRead]; split <;> rfl
@[simp] theorem State.completeRead_errAddr (s : State) (r : Words8) :
    (s.completeRead r).errAddr = s.errAddr := by
  simp only [State.completeRead]; split <;> rfl
@[simp] theorem State.completeRead_blk (s : State) (r : Words8) :
    (s.completeRead r).blk = s.blk := by
  simp only [State.completeRead]; split <;> rfl
@[simp] theorem State.completeRead_fsm (s : State) (r : Words8) :
    (s.completeRead r).fsm = .idle := by
  simp only [State.completeRead]; split <;> rfl
@[simp] theorem State.completeRead_dp (s : State) (r : Words8) :
    (s.completeRead r).dp = Datapath.unspecified := by
  simp only [State.completeRead]; split <;> rfl
@[simp] theorem State.completeRead_mem (s : State) (r : Words8) :
    (s.completeRead r).mem = s.mem := by
  simp only [State.completeRead]; split <;> rfl
@[simp] theorem State.completeRead_platform (s : State) (r : Words8) :
    (s.completeRead r).platform = s.platform := by
  simp only [State.completeRead]; split <;> rfl
@[simp] theorem State.completeRead_rst (s : State) (r : Words8) :
    (s.completeRead r).rst = s.rst := by
  simp only [State.completeRead]; split <;> rfl
@[simp] theorem State.completeRead_rdata (s : State) (r : Words8) :
    (s.completeRead r).rdata = s.rdata := by
  simp only [State.completeRead]; split <;> rfl
@[simp] theorem State.completeRead_schedule (s : State) (r : Words8) :
    (s.completeRead r).schedule = s.schedule := by
  simp only [State.completeRead]; split <;> rfl
@[simp] theorem State.completeRead_raced (s : State) (r : Words8) :
    (s.completeRead r).raced = false := by
  simp only [State.completeRead]; split <;> rfl

@[simp] theorem State.completeRead_of_not_raced (s : State) (r : Words8) (h : s.raced = false) :
    s.completeRead r = s.complete r := by
  simp [State.completeRead, h]

/-! ### `State.start` (R265): it only places the engine -/

@[simp] theorem State.start_ie (s : State) (op : BitVec 4) : (s.start op).ie = s.ie := by
  unfold State.start State.startHmac State.startLeaf; repeat' split
  all_goals rfl
@[simp] theorem State.start_status (s : State) (op : BitVec 4) : (s.start op).status = s.status := by
  unfold State.start State.startHmac State.startLeaf; repeat' split
  all_goals rfl
@[simp] theorem State.start_msgAddr (s : State) (op : BitVec 4) : (s.start op).msgAddr = s.msgAddr := by
  unfold State.start State.startHmac State.startLeaf; repeat' split
  all_goals rfl
@[simp] theorem State.start_msgLenLo (s : State) (op : BitVec 4) : (s.start op).msgLenLo = s.msgLenLo := by
  unfold State.start State.startHmac State.startLeaf; repeat' split
  all_goals rfl
@[simp] theorem State.start_msgLenHi (s : State) (op : BitVec 4) : (s.start op).msgLenHi = s.msgLenHi := by
  unfold State.start State.startHmac State.startLeaf; repeat' split
  all_goals rfl
@[simp] theorem State.start_keyAddr (s : State) (op : BitVec 4) : (s.start op).keyAddr = s.keyAddr := by
  unfold State.start State.startHmac State.startLeaf; repeat' split
  all_goals rfl
@[simp] theorem State.start_keyLen (s : State) (op : BitVec 4) : (s.start op).keyLen = s.keyLen := by
  unfold State.start State.startHmac State.startLeaf; repeat' split
  all_goals rfl
@[simp] theorem State.start_itemAddr (s : State) (op : BitVec 4) : (s.start op).itemAddr = s.itemAddr := by
  unfold State.start State.startHmac State.startLeaf; repeat' split
  all_goals rfl
@[simp] theorem State.start_itemCount (s : State) (op : BitVec 4) : (s.start op).itemCount = s.itemCount := by
  unfold State.start State.startHmac State.startLeaf; repeat' split
  all_goals rfl
@[simp] theorem State.start_errAddr (s : State) (op : BitVec 4) : (s.start op).errAddr = s.errAddr := by
  unfold State.start State.startHmac State.startLeaf; repeat' split
  all_goals rfl
@[simp] theorem State.start_blk (s : State) (op : BitVec 4) : (s.start op).blk = s.blk := by
  unfold State.start State.startHmac State.startLeaf; repeat' split
  all_goals rfl
@[simp] theorem State.start_h (s : State) (op : BitVec 4) : (s.start op).h = s.h := by
  unfold State.start State.startHmac State.startLeaf; repeat' split
  all_goals rfl
@[simp] theorem State.start_mem (s : State) (op : BitVec 4) : (s.start op).mem = s.mem := by
  unfold State.start State.startHmac State.startLeaf; repeat' split
  all_goals rfl
@[simp] theorem State.start_platform (s : State) (op : BitVec 4) : (s.start op).platform = s.platform := by
  unfold State.start State.startHmac State.startLeaf; repeat' split
  all_goals rfl
@[simp] theorem State.start_rst (s : State) (op : BitVec 4) : (s.start op).rst = s.rst := by
  unfold State.start State.startHmac State.startLeaf; repeat' split
  all_goals rfl
@[simp] theorem State.start_rdata (s : State) (op : BitVec 4) : (s.start op).rdata = s.rdata := by
  unfold State.start State.startHmac State.startLeaf; repeat' split
  all_goals rfl
@[simp] theorem State.start_schedule (s : State) (op : BitVec 4) : (s.start op).schedule = s.schedule := by
  unfold State.start State.startHmac State.startLeaf; repeat' split
  all_goals rfl
@[simp] theorem State.start_draws (s : State) (op : BitVec 4) : (s.start op).draws = s.draws := by
  unfold State.start State.startHmac State.startLeaf; repeat' split
  all_goals rfl
@[simp] theorem State.start_raced (s : State) (op : BitVec 4) : (s.start op).raced = s.raced := by
  unfold State.start State.startHmac State.startLeaf; repeat' split
  all_goals rfl

/-! ### `State.launch` (R265) -/

@[simp] theorem State.launch_ie (s : State) (v : Word) :
    (s.launch v).ie = s.ie := by
  simp [State.launch]
@[simp] theorem State.launch_status (s : State) (v : Word) :
    (s.launch v).status = { (s.offer v).status with busy := true } := by
  simp [State.launch]
@[simp] theorem State.launch_msgAddr (s : State) (v : Word) :
    (s.launch v).msgAddr = s.msgAddr := by
  simp [State.launch]
@[simp] theorem State.launch_msgLenLo (s : State) (v : Word) :
    (s.launch v).msgLenLo = s.msgLenLo := by
  simp [State.launch]
@[simp] theorem State.launch_msgLenHi (s : State) (v : Word) :
    (s.launch v).msgLenHi = s.msgLenHi := by
  simp [State.launch]
@[simp] theorem State.launch_keyAddr (s : State) (v : Word) :
    (s.launch v).keyAddr = s.keyAddr := by
  simp [State.launch]
@[simp] theorem State.launch_keyLen (s : State) (v : Word) :
    (s.launch v).keyLen = s.keyLen := by
  simp [State.launch]
@[simp] theorem State.launch_itemAddr (s : State) (v : Word) :
    (s.launch v).itemAddr = s.itemAddr := by
  simp [State.launch]
@[simp] theorem State.launch_itemCount (s : State) (v : Word) :
    (s.launch v).itemCount = s.itemCount := by
  simp [State.launch]
@[simp] theorem State.launch_errAddr (s : State) (v : Word) :
    (s.launch v).errAddr = 0 := by
  simp [State.launch]
@[simp] theorem State.launch_blk (s : State) (v : Word) :
    (s.launch v).blk = s.blk := by
  simp [State.launch]
@[simp] theorem State.launch_h (s : State) (v : Word) :
    (s.launch v).h = s.h := by
  simp [State.launch]
@[simp] theorem State.launch_mem (s : State) (v : Word) :
    (s.launch v).mem = s.mem := by
  simp [State.launch]
@[simp] theorem State.launch_platform (s : State) (v : Word) :
    (s.launch v).platform = s.platform := by
  simp [State.launch]
@[simp] theorem State.launch_rst (s : State) (v : Word) :
    (s.launch v).rst = s.rst := by
  simp [State.launch]
@[simp] theorem State.launch_rdata (s : State) (v : Word) :
    (s.launch v).rdata = s.rdata := by
  simp [State.launch]
@[simp] theorem State.launch_schedule (s : State) (v : Word) :
    (s.launch v).schedule = s.schedule := by
  simp [State.launch]
@[simp] theorem State.launch_draws (s : State) (v : Word) :
    (s.launch v).draws = s.draws := by
  simp [State.launch]
@[simp] theorem State.launch_raced (s : State) (v : Word) :
    (s.launch v).raced = s.raced := by
  simp [State.launch]

@[simp] theorem State.launch_fsm (s : State) (v : Word) :
    (s.launch v).fsm = ((s.offer v).start (opField v)).fsm := rfl

@[simp] theorem State.launch_dp (s : State) (v : Word) :
    (s.launch v).dp = ((s.offer v).start (opField v)).dp := rfl

/-! ### The stream counters (R54, R172) -/

@[simp] theorem Datapath.startStream_segs (dp : Datapath) (segs : List Segment) :
    (dp.startStream segs).segs = segs := rfl
@[simp] theorem Datapath.startStream_bitlen (dp : Datapath) (segs : List Segment) :
    (dp.startStream segs).bitlen = BitVec.ofNat 64 (8 * streamLen segs) := rfl
@[simp] theorem Datapath.startStream_pos (dp : Datapath) (segs : List Segment) :
    (dp.startStream segs).pos = 0 := rfl
@[simp] theorem Datapath.startStream_consumed (dp : Datapath) (segs : List Segment) :
    (dp.startStream segs).consumed = 0 := rfl
@[simp] theorem State.putByte_consumed (s : State) (op : BitVec 4) (b : Byte) (segs : List Segment)
    (n : Nat) (tail : Tail) : (s.putByte op b segs n tail).dp.consumed = n := rfl
@[simp] theorem State.putByte_segs (s : State) (op : BitVec 4) (b : Byte) (segs : List Segment)
    (n : Nat) (tail : Tail) : (s.putByte op b segs n tail).dp.segs = segs := rfl
@[simp] theorem State.putByte_bitlen (s : State) (op : BitVec 4) (b : Byte) (segs : List Segment)
    (n : Nat) (tail : Tail) : (s.putByte op b segs n tail).dp.bitlen = s.dp.bitlen := rfl
@[simp] theorem State.putData_consumed (s : State) (op : BitVec 4) (b : Byte) (rest : List Segment) :
    (s.putData op b rest).dp.consumed = s.dp.consumed + 1 := rfl
@[simp] theorem State.putPad_consumed (s : State) (op : BitVec 4) (b : Byte) (tail : Tail) :
    (s.putPad op b tail).dp.consumed = s.dp.consumed := rfl

end Sys2Proof.Machine
end

