-- ==== Sys2Proof/Laws/Memory.lean ====
section
/-!
SUPPORT. Memory: every operation keeps the canonical form, a read after a write, and what a read of a
buffer answers.
-/

namespace Sys2Proof.Machine

theorem Memory.wfFrom_mono {m : Memory} {lo lo' : Nat} (hle : lo' ≤ lo)
    (h : Memory.wfFrom lo m = true) : Memory.wfFrom lo' m = true := by
  cases m with
  | nil => rfl
  | cons c rest =>
    simp only [Memory.wfFrom, Bool.and_eq_true, decide_eq_true_eq] at h ⊢
    exact ⟨⟨⟨by omega, h.1.1.2⟩, h.1.2⟩, h.2⟩

theorem Memory.get_below {m : Memory} {lo a : Nat} (h : Memory.wfFrom lo m = true) (ha : a < lo) :
    Memory.get m a = Config.unlistedByte := by
  induction m generalizing lo with
  | nil => rfl
  | cons c rest ih =>
    simp only [Memory.wfFrom, Bool.and_eq_true, decide_eq_true_eq] at h
    have hne : a ≠ c.1 := by omega
    simp only [Memory.get, if_neg hne]
    exact ih h.2 (by omega)

theorem Memory.wfFrom_set {m : Memory} {lo a : Nat} (b : Byte) (h : Memory.wfFrom lo m = true)
    (hlo : lo ≤ a) (ha : a < Config.memSize) : Memory.wfFrom lo (Memory.set m a b) = true := by
  induction m generalizing lo with
  | nil => simp only [Memory.set]; split <;> simp_all [Memory.wfFrom]
  | cons c rest ih =>
    obtain ⟨k, v⟩ := c
    simp only [Memory.wfFrom, Bool.and_eq_true, decide_eq_true_eq] at h
    simp only [Memory.set]
    split_ifs with h1 h2 h3 h4
    · simpa [Memory.wfFrom] using h
    · simp only [Memory.wfFrom, Bool.and_eq_true, decide_eq_true_eq]
      exact ⟨⟨⟨hlo, ha⟩, by simpa using h2⟩, ⟨⟨⟨h1, h.1.1.2⟩, h.1.2⟩, h.2⟩⟩
    · exact Memory.wfFrom_mono (by omega) h.2
    · simp only [Memory.wfFrom, Bool.and_eq_true, decide_eq_true_eq]
      exact ⟨⟨⟨hlo, ha⟩, by simpa using h4⟩, h3 ▸ h.2⟩
    · simp only [Memory.wfFrom, Bool.and_eq_true, decide_eq_true_eq]
      exact ⟨h.1, ih h.2 (by omega)⟩

/-- A write keeps the canonical form. -/
theorem Memory.wf_set {m : Memory} {a : Nat} (b : Byte) (h : Memory.wf m = true)
    (ha : a < Config.memSize) : Memory.wf (Memory.set m a b) = true :=
  Memory.wfFrom_set b h (Nat.zero_le _) ha

theorem Memory.get_set_from {m : Memory} {lo a x : Nat} (b : Byte)
    (h : Memory.wfFrom lo m = true) :
    Memory.get (Memory.set m a b) x = if x = a then b else Memory.get m x := by
  induction m generalizing lo with
  | nil =>
    simp only [Memory.set]
    by_cases hb : b = Config.unlistedByte <;> by_cases hx : x = a <;> simp [hb, hx, Memory.get]
  | cons c rest ih =>
    obtain ⟨k, v⟩ := c
    simp only [Memory.wfFrom, Bool.and_eq_true, decide_eq_true_eq] at h
    have hrest : ∀ y, y ≤ k → Memory.get rest y = Config.unlistedByte := fun y hy =>
      Memory.get_below h.2 (by omega)
    have hr := ih h.2
    simp only [Memory.set]
    by_cases h1 : a < k
    · by_cases h2 : b = Config.unlistedByte
      · by_cases hx : x = a
        · have h3 : x ≠ k := by omega
          simp [h1, h2, hx, Memory.get, hrest a (by omega), show a ≠ k by omega]
        · simp [h1, h2, hx]
      · simp [h1, h2, Memory.get]
    · by_cases h3 : a = k
      · subst h3
        by_cases h2 : b = Config.unlistedByte
        · by_cases hx : x = a
          · simp [h2, hx, hrest a (le_refl a)]
          · simp [h2, hx, Memory.get]
        · by_cases hx : x = a <;> simp [h2, hx, Memory.get]
      · simp only [if_neg h1, if_neg h3, Memory.get, hr]
        by_cases hx : x = k
        · simp [hx, show ¬ k = a from fun e => h3 e.symm]
        · simp [hx]

/-- A read after a write: the byte written at its address, every other byte as before. -/
theorem Memory.get_set {m : Memory} (a x : Nat) (b : Byte) (h : Memory.wf m = true) :
    Memory.get (Memory.set m a b) x = if x = a then b else Memory.get m x :=
  Memory.get_set_from b h

/-! ### Reads of buffers -/

theorem State.memRead_of_readable {s : State} {a : Nat} (h : s.readable a) :
    s.memRead a = .ok (Memory.get s.mem a) := by
  simp [State.memRead, h.1, h.2]

theorem State.memRead_of_not_admitted {s : State} {a : Nat} (h : admitted s.platform a = false) :
    s.memRead a = .busError a := by
  simp [State.memRead, h]

theorem State.bytesAt_zero (s : State) (base : Nat) : s.bytesAt base 0 = [] := rfl

theorem State.bytesAt_succ (s : State) (base n : Nat) :
    s.bytesAt base (n + 1) = Memory.get s.mem base :: s.bytesAt (base + 1) n := by
  simp only [State.bytesAt, List.range_succ_eq_map, List.map_cons, List.map_map, Nat.add_zero]
  congr 1
  apply List.map_congr_left
  intro i _
  simp only [Function.comp, Nat.succ_eq_add_one]
  congr 1; omega

@[simp] theorem State.bytesAt_length (s : State) (base n : Nat) :
    (s.bytesAt base n).length = n := by simp [State.bytesAt]

/-- Every byte of the buffer readable: the read answers its bytes. -/
theorem State.readBuf_ok {s : State} {base n : Nat} (h : s.bufferReadable base n) :
    s.readBuf base n = .ok (s.bytesAt base n) := by
  induction n generalizing base with
  | zero => rfl
  | succ n ih =>
    have h0 := h 0 (by omega)
    rw [Nat.add_zero] at h0
    have ht : s.bufferReadable (base + 1) n := fun i hi => by
      have := h (i + 1) (by omega)
      rwa [show base + (i + 1) = base + 1 + i by omega] at this
    simp [State.readBuf, State.memRead_of_readable h0, ih ht, State.bytesAt_succ]

/-- The first byte that is not admitted ends the read. -/
theorem State.readBuf_busError {s : State} {base n k : Nat} (h : s.firstBusError base n k) :
    s.readBuf base n = .busError (base + k) := by
  induction n generalizing base k with
  | zero => exact absurd h.1 (by omega)
  | succ n ih =>
    obtain ⟨hk, hr, hb⟩ := h
    cases k with
    | zero =>
      simp only [Nat.add_zero] at hb
      simp [State.readBuf, State.memRead_of_not_admitted hb]
    | succ k =>
      have h0 := hr 0 (by omega)
      rw [Nat.add_zero] at h0
      have hn : s.firstBusError (base + 1) n k :=
        ⟨by omega, fun i hi => by
          have := hr (i + 1) (by omega)
          rwa [show base + (i + 1) = base + 1 + i by omega] at this,
         by rwa [show base + 1 + k = base + (k + 1) by omega]⟩
      simp [State.readBuf, State.memRead_of_readable h0, ih hn]
      omega

/-- What a read answers depends on the platform and on the bytes of the buffer, nothing else. -/
theorem State.readBuf_congr {s t : State} {base n : Nat} (hp : s.platform = t.platform)
    (hm : ∀ i < n, Memory.get s.mem (base + i) = Memory.get t.mem (base + i)) :
    s.readBuf base n = t.readBuf base n := by
  induction n generalizing base with
  | zero => rfl
  | succ n ih =>
    have h0 := hm 0 (by omega)
    rw [Nat.add_zero] at h0
    have ht := ih (base := base + 1) fun i hi => by
      have := hm (i + 1) (by omega)
      rwa [show base + (i + 1) = base + 1 + i by omega] at this
    simp [State.readBuf, State.memRead, hp, h0, ht]

theorem State.readBuf_length {s : State} {base n : Nat} {bs : Bytes}
    (h : s.readBuf base n = .ok bs) : bs.length = n := by
  induction n generalizing base bs with
  | zero => cases h; rfl
  | succ n ih =>
    simp only [State.readBuf] at h
    split at h
    · split at h
      · rename_i heq
        cases h
        simp [ih heq]
      · cases h
      · cases h
    · cases h
    · cases h

end Sys2Proof.Machine
end

