-- ==== Sys2Proof/Laws/PerInstr.lean ====
section
/-!
SUPPORT. The family of LAWS.json, one lemma per command: the command word is the row of
spec/opcode_table.json.
-/

namespace Sys2Proof.Laws.OpcodeRow

/-- The word of the command, its reserved bits 0 and its OP field the opcode of R111. -/
def Statement (i : Instr) : Prop :=
  i.wellFormed = true ∧ rsvdField (encode i) = 0 ∧ opField (encode i) = opcode i ∧
    (encode i).toNat = (opcode i).toNat

theorem init : Statement .init := by unfold Statement; decide

theorem compress : Statement .compress := by unfold Statement; decide

theorem hash : Statement .hash := by unfold Statement; decide

theorem hmac : Statement .hmac := by unfold Statement; decide

theorem merkle : Statement .merkle := by unfold Statement; decide

end Sys2Proof.Laws.OpcodeRow
end

