-- ==== Sys2Proof/Certificates/Slice0/Obligations.lean ====
section
/-!
DEFINITION. The statements for the provers.  Each docstring names the rules of spec/ it formalises, or
the section it is derived from.
-/

open Sys2Proof Sys2Proof.Machine

/-! ### Encoding (30_encoding.md) -/

/-- R112: a word is valid when bits 31:4 are 0 and OP is one of 1..5, the decoded command is the row
whose OP equals bits 3:0 (match `encode i`, mask 0xFFFFFFFF), and every other word is rejected at
acceptance with ILLEGAL_CMD. -/
def Obligations.DecodeIsTheOpcodeMap : Prop :=
  (∀ w : Word, (∃ i, decode w = .instr i) ↔
    (w.extractLsb' 4 28 = 0 ∧ w.extractLsb' 0 4 ∈ [(0x1 : BitVec 4), 0x2, 0x3, 0x4, 0x5])) ∧
  (∀ (w : Word) (i : Instr), decode w = .instr i ↔ w &&& 0xFFFFFFFF = encode i) ∧
  (∀ (w : Word) (i : Instr), decode w = .instr i → opcode i = w.extractLsb' 0 4) ∧
  (∀ (s : State) (w : Word), s.status.busy = false → (∀ i, decode w ≠ .instr i) →
    (s.writeReg .cmd w).status.err = true ∧ (s.writeReg .cmd w).status.ecode = .illegalCmd ∧
      (s.writeReg .cmd w).status.busy = false)

/-- 30_encoding.md sections 1 and 3: decoding the word of any command gives the command back, through
the decoder and through the table's numbering; no two words stand for one command. -/
def Obligations.DecodeEncodeRoundTrip : Prop :=
  ∀ i : Instr, i.wellFormed = true →
    decode (encode i) = .instr i ∧ decodeTableWord 32 (encode i).toNat = some i ∧
      commandWordWellFormed (encode i) = true ∧ ∀ w : Word, decode w = .instr i → w = encode i

/-- 30_encoding.md R111, written-out words: the five rows, and the illegal words of
95_test_vectors.md section 10. -/
def Obligations.WrittenOutWordsDecode : Prop :=
  decode 0b00000000000000000000000000000001 = .instr .init ∧
  decode 0b00000000000000000000000000000010 = .instr .compress ∧
  decode 0b00000000000000000000000000000011 = .instr .hash ∧
  decode 0b00000000000000000000000000000100 = .instr .hmac ∧
  decode 0b00000000000000000000000000000101 = .instr .merkle ∧
  decode 0x00000000 = .illegal .undefinedOpcode ∧ decode 0x00000006 = .illegal .undefinedOpcode ∧
  decode 0x0000000F = .illegal .undefinedOpcode ∧ decode 0x00000013 = .illegal .reservedBitSet ∧
  decode 0x80000001 = .illegal .reservedBitSet

/-! ### Primitives and tables (40_primitives.md) -/

/-- R131, R132, R133: the rotations and the shift, with their corner cases. -/
def Obligations.RotationsAndShift : Prop :=
  (∀ (x : Word) (n : Nat), rotr x n =
    if n % 32 = 0 then x
    else BitVec.ofNat 32 (x.toNat / 2 ^ (n % 32) ||| x.toNat * 2 ^ (32 - n % 32) % 2 ^ 32)) ∧
  (∀ (x : Word) (n i : Nat), i < 32 → (rotr x n).getLsbD i = x.getLsbD ((i + n) % 32)) ∧
  (∀ x : Word, rotr x 0 = x ∧ rotr x 32 = x ∧ rotr x 33 = rotr x 1) ∧
  (∀ n : Nat, rotr 0xFFFFFFFF n = 0xFFFFFFFF ∧ rotr 0 n = 0) ∧
  rotr 0x00000001 1 = 0x80000000 ∧
  (∀ (x : Word) (n : Nat), rotl x n = rotr x ((32 - n % 32) % 32)) ∧
  (∀ (x : Word) (n i : Nat), i < 32 → (rotl x n).getLsbD ((i + n) % 32) = x.getLsbD i) ∧
  rotl 0x80000000 1 = 0x00000001 ∧
  (∀ (x : Word) (n : Nat), n ≤ 31 → (shr x n).toNat = x.toNat / 2 ^ n ∧
    (1 ≤ n → (shr x n).getLsbD 31 = false)) ∧
  (∀ x : Word, shr x 0 = x) ∧ shr 0x80000000 3 = 0x10000000 ∧ shr 0xFFFFFFFF 10 = 0x003FFFFF

/-- R134, R135: choose and majority, bit by bit, with their corner cases. -/
def Obligations.ChooseAndMajority : Prop :=
  (∀ (x y z : Word) (i : Nat), i < 32 →
    (ch x y z).getLsbD i = (if x.getLsbD i then y.getLsbD i else z.getLsbD i) ∧
    (maj x y z).getLsbD i =
      decide (2 ≤ (x.getLsbD i).toNat + (y.getLsbD i).toNat + (z.getLsbD i).toNat)) ∧
  (∀ x y z : Word, ch x y z = (x &&& y) ^^^ (~~~x &&& z) ∧
    maj x y z = (x &&& y) ^^^ (x &&& z) ^^^ (y &&& z) ∧
    ch 0xFFFFFFFF y z = y ∧ ch 0 y z = z ∧ ch x y y = y ∧
    maj x x z = x ∧ maj 0 0xFFFFFFFF z = z ∧ maj x y z = maj y x z ∧ maj x y z = maj x z y) ∧
  ch 0xFF00FF00 0x12345678 0x9ABCDEF0 = 0x12BC56F0 ∧
  maj 0xF0F0F0F0 0xFF00FF00 0x0FF00FF0 = 0xFFF0FFF0

/-- R136 to R139: the four sigma functions as exclusive-ors of rotated and shifted bits, with their
corner cases and examples. -/
def Obligations.SigmaFunctions : Prop :=
  (∀ (x : Word) (i : Nat), i < 32 →
    (bigSigma0 x).getLsbD i =
      ((x.getLsbD ((i + 2) % 32) ^^ x.getLsbD ((i + 13) % 32)) ^^ x.getLsbD ((i + 22) % 32)) ∧
    (bigSigma1 x).getLsbD i =
      ((x.getLsbD ((i + 6) % 32) ^^ x.getLsbD ((i + 11) % 32)) ^^ x.getLsbD ((i + 25) % 32)) ∧
    (smallSigma0 x).getLsbD i =
      ((x.getLsbD ((i + 7) % 32) ^^ x.getLsbD ((i + 18) % 32)) ^^ x.getLsbD (i + 3)) ∧
    (smallSigma1 x).getLsbD i =
      ((x.getLsbD ((i + 17) % 32) ^^ x.getLsbD ((i + 19) % 32)) ^^ x.getLsbD (i + 10))) ∧
  (bigSigma0 0 = 0 ∧ bigSigma1 0 = 0 ∧ smallSigma0 0 = 0 ∧ smallSigma1 0 = 0) ∧
  (bigSigma0 0xFFFFFFFF = 0xFFFFFFFF ∧ bigSigma1 0xFFFFFFFF = 0xFFFFFFFF ∧
    smallSigma0 0xFFFFFFFF = 0x1FFFFFFF ∧ smallSigma1 0xFFFFFFFF = 0x003FFFFF) ∧
  (bigSigma0 0x6a09e667 = 0xce20b47e ∧ bigSigma1 0x510e527f = 0x3587272b ∧
    smallSigma0 1 = 0x02004000 ∧ smallSigma1 1 = 0x0000a000)

/-- 40_primitives.md section 4, the formulas of R140 and R141: entry i of K is the cube root of the
(i+1)-th prime times 2^32, floored and taken mod 2^32, and entry i of the IV is its square root, so
taken; the roots are computed exactly, as the largest integers whose cube or square does not exceed
p·2^96 or p·2^64. -/
def Obligations.ConstantTablesAreRootsOfPrimes : Prop :=
  let primes := (List.range 312).filter fun n =>
    decide (2 ≤ n) && (List.range n).all fun d => decide (d < 2) || decide (n % d ≠ 0)
  primes.length = 64 ∧ kTable.length = 64 ∧ (wordsList iv).length = 8 ∧
  (∀ i < 64, ∃ r : Nat, r ^ 3 ≤ primes.getD i 0 * 2 ^ 96 ∧ primes.getD i 0 * 2 ^ 96 < (r + 1) ^ 3 ∧
    roundConstant i = BitVec.ofNat 32 r) ∧
  (∀ i < 8, ∃ r : Nat, r ^ 2 ≤ primes.getD i 0 * 2 ^ 64 ∧ primes.getD i 0 * 2 ^ 64 < (r + 1) ^ 2 ∧
    wordAt iv i = BitVec.ofNat 32 r)

/-! ### The pipeline (41_pipeline.md) -/

/-- R160, R161: the padded message and its lengths. -/
def Obligations.PaddingShape : Prop :=
  (∀ m : Bytes, m.length < 2 ^ 61 →
    pad m = m ++ [0x80] ++ List.replicate ((119 - m.length % 64) % 64) 0x00 ++ be64Bytes (8 * m.length) ∧
    (m.length + 1 + (119 - m.length % 64) % 64) % 64 = 56 ∧
    (pad m).length % 64 = 0 ∧
    (pad m).length = 64 * blockCount m.length ∧
    m.length + 9 ≤ (pad m).length ∧ (pad m).length < m.length + 9 + 64 ∧
    (parse (pad m)).length = blockCount m.length ∧
    blockCount m.length = m.length / 64 + (if 56 ≤ m.length % 64 then 2 else 1) ∧
    (pad m).drop ((pad m).length - 8) = be64Bytes (8 * m.length) ∧
    ((be64Bytes (8 * m.length)).foldl (fun n b => 256 * n + b.toNat) 0 = 8 * m.length)) ∧
  (blockCount 0 = 1 ∧ blockCount 55 = 1 ∧ blockCount 56 = 2 ∧ blockCount 63 = 2 ∧ blockCount 64 = 2 ∧
    blockCount 119 = 2 ∧ blockCount 120 = 3) ∧
  pad [0x61, 0x62, 0x63] =
    [0x61, 0x62, 0x63, 0x80] ++ List.replicate 52 0x00 ++ [0, 0, 0, 0, 0, 0, 0, 0x18]

/-- R163: word j of block k is the big-endian word of bytes 64k+4j to 64k+4j+3. -/
def Obligations.ParsedBlocks : Prop :=
  (∀ (p : Bytes) (n : Nat), p.length = 64 * n → (parse p).length = n ∧
    ∀ k < n, ((parse p).getD k []).length = 16 ∧
      ∀ j < 16, ((parse p).getD k []).getD j 0 =
        p.getD (64 * k + 4 * j) 0 ++ p.getD (64 * k + 4 * j + 1) 0 ++
          p.getD (64 * k + 4 * j + 2) 0 ++ p.getD (64 * k + 4 * j + 3) 0) ∧
  parse (pad [0x61, 0x62, 0x63]) = [[0x61626380, 0, 0, 0, 0, 0, 0, 0, 0, 0, 0, 0, 0, 0, 0, 0x18]]

/-- R165: the schedule of a block, its recurrence in exact arithmetic mod 2^32. -/
def Obligations.ScheduleRecurrence : Prop :=
  (∀ b : List Word, b.length = 16 → (schedule b).length = 64 ∧
    (∀ t < 16, (schedule b).getD t 0 = b.getD t 0) ∧
    ∀ t, 16 ≤ t → t < 64 → ((schedule b).getD t 0).toNat =
      ((smallSigma1 ((schedule b).getD (t - 2) 0)).toNat + ((schedule b).getD (t - 7) 0).toNat +
        (smallSigma0 ((schedule b).getD (t - 15) 0)).toNat + ((schedule b).getD (t - 16) 0).toNat)
        % 2 ^ 32) ∧
  (∀ t < 64, (schedule (List.replicate 16 0)).getD t 0 = 0) ∧
  (schedule [0x61626380, 0, 0, 0, 0, 0, 0, 0, 0, 0, 0, 0, 0, 0, 0, 0x18]).getD 16 0 = 0x61626380 ∧
  (schedule [0x61626380, 0, 0, 0, 0, 0, 0, 0, 0, 0, 0, 0, 0, 0, 0, 0x18]).getD 17 0 = 0x000f0000

/-- 41_pipeline.md section 4 (R166, R167): one round and the feed-forward in exact arithmetic mod 2^32,
and round t of a compression uses K[t] and W[t]. -/
def Obligations.CompressionRounds : Prop :=
  (∀ (v : Words8) (k w : Word),
    let t1 := v.h.toNat + (bigSigma1 v.e).toNat + (ch v.e v.f v.g).toNat + k.toNat + w.toNat
    let t2 := (bigSigma0 v.a).toNat + (maj v.a v.b v.c).toNat
    (roundFn v k w).a.toNat = (t1 + t2) % 2 ^ 32 ∧ (roundFn v k w).b = v.a ∧ (roundFn v k w).c = v.b ∧
    (roundFn v k w).d = v.c ∧ (roundFn v k w).e.toNat = (v.d.toNat + t1) % 2 ^ 32 ∧
    (roundFn v k w).f = v.e ∧ (roundFn v k w).g = v.f ∧ (roundFn v k w).h = v.g) ∧
  (∀ (hin : Words8) (b : List Word), ∃ f : Nat → Words8, f 0 = hin ∧
    (∀ t < 64, f (t + 1) = roundFn (f t) (kTable.getD t 0) ((schedule b).getD t 0)) ∧
    ∀ i < 8, (wordAt (compress hin b) i).toNat = ((wordAt hin i).toNat + (wordAt (f 64) i).toNat) % 2 ^ 32) ∧
  compress iv [0x61626380, 0, 0, 0, 0, 0, 0, 0, 0, 0, 0, 0, 0, 0, 0, 0x18] =
    { a := 0xba7816bf, b := 0x8f01cfea, c := 0x414140de, d := 0x5dae2223,
      e := 0xb00361a3, f := 0x96177a9c, g := 0xb410ff61, h := 0xf20015ad }

/-- R170: serialization, byte by byte, and its inverse; the result registers hold the words. -/
def Obligations.SerializationAndInverse : Prop :=
  (∀ v : Words8, (ser v).length = 32 ∧
    (∀ i < 8, ∀ j < 4, (ser v).getD (4 * i + j) 0 = (wordAt v i).extractLsb' (24 - 8 * j) 8) ∧
    deser (ser v) = v) ∧
  (∀ d : Bytes, d.length = 32 → ser (deser d) = d ∧
    ∀ i < 8, wordAt (deser d) i =
      d.getD (4 * i) 0 ++ d.getD (4 * i + 1) 0 ++ d.getD (4 * i + 2) 0 ++ d.getD (4 * i + 3) 0) ∧
  (∀ (s : State) (i : Fin 8), s.status.busy = false → (s.readReg (.h i)).rdata = wordAt s.h i.val) ∧
  (ser { a := 0xba7816bf, b := 0, c := 0, d := 0, e := 0, f := 0, g := 0, h := 0 }).take 4 =
    [0xba, 0x78, 0x16, 0xbf]

/-- R171, R205: the words HEX0..HEX15, most significant byte first, are the 64 lowercase hex characters
of the digest in H; characters 2n and 2n+1 are the digits of byte n; the rendering loses nothing. -/
def Obligations.HexViewSpellsTheDigest : Prop :=
  (∀ h : Words8, (List.range 16).flatMap (fun k => wordBytes (hexWord h k)) = hexString (ser h)) ∧
  (∀ d : Bytes, (hexString d).length = 2 * d.length ∧ ∀ n < d.length,
    (hexString d).getD (2 * n) 0 = asciiHex ((d.getD n 0).extractLsb' 4 4) ∧
    (hexString d).getD (2 * n + 1) 0 = asciiHex ((d.getD n 0).extractLsb' 0 4)) ∧
  (∀ n : Fin 16, (asciiHex (BitVec.ofNat 4 n.val)).toNat =
    if n.val ≤ 9 then 0x30 + n.val else 0x61 + (n.val - 10)) ∧
  (∀ d d' : Bytes, hexString d = hexString d' → d = d') ∧
  (∀ (s : State) (k : Fin 16), s.status.busy = false →
    (s.readReg (.hex k)).rdata = hexWord s.h k.val) ∧
  (∀ (s : State) (k : Fin 16) (v : Word), s.status.busy = false → s.writeReg (.hex k) v = s) ∧
  hexWord { a := 0xba7816bf, b := 0, c := 0, d := 0, e := 0, f := 0, g := 0, h := 0xFFFFFFFF } 0
    = 0x62613738 ∧
  hexWord { a := 0xba7816bf, b := 0, c := 0, d := 0, e := 0, f := 0, g := 0, h := 0xFFFFFFFF } 1
    = 0x31366266 ∧
  hexWord { a := 0xba7816bf, b := 0, c := 0, d := 0, e := 0, f := 0, g := 0, h := 0xFFFFFFFF } 2
    = 0x30303030 ∧
  hexWord { a := 0xba7816bf, b := 0, c := 0, d := 0, e := 0, f := 0, g := 0, h := 0xFFFFFFFF } 15
    = 0x66666666

/-- R220, R221: the construction, the normalised key at lengths 0, 64 and 65 and the two laws of key
normalisation. -/
def Obligations.HmacKeyNormalisation : Prop :=
  (∀ (key msg k k0 : Bytes), k = (if key.length > 64 then sha256 key else key) →
    k0 = k ++ List.replicate (64 - k.length) 0 → k0.length = 64 ∧ normKey key = k0 ∧
      hmacTag key msg =
        sha256 (List.zipWith (· ^^^ ·) k0 (List.replicate 64 0x5c) ++
          sha256 (List.zipWith (· ^^^ ·) k0 (List.replicate 64 0x36) ++ msg)) ∧
      (hmacTag key msg).length = 32) ∧
  (normKey [] = List.replicate 64 0 ∧ innerKey (normKey []) = List.replicate 64 0x36 ∧
    outerKey (normKey []) = List.replicate 64 0x5c) ∧
  (∀ k : Bytes, k.length = 64 → normKey k = k) ∧
  (∀ k : Bytes, k.length = 65 → normKey k = sha256 k ++ List.replicate 32 0 ∧
    (parse (pad k)).length = 2) ∧
  (∀ k m : Bytes, 64 < k.length → hmacTag k m = hmacTag (sha256 k) m) ∧
  (∀ (k m : Bytes) (j : Nat), k.length + j ≤ 64 → hmacTag k m = hmacTag (k ++ List.replicate j 0) m)

/-- R240: the root: duplication of an odd last item, the leaf hashes in order, and the reduction, layer by
layer, to one node. -/
def Obligations.MerkleRootAlgorithm : Prop :=
  (∀ (items x : List Bytes), items ≠ [] →
    x = (if items.length % 2 = 1 then items ++ [items.getD (items.length - 1) []] else items) →
    x.length % 2 = 0 ∧ 2 ≤ x.length ∧ merkleRoot items = reduceLayer (x.map sha256) ∧
      (merkleRoot items).length = 32) ∧
  (∀ d : Bytes, reduceLayer [d] = d) ∧
  (∀ (layer even : List Bytes), 1 < layer.length →
    even = (if layer.length % 2 = 1 then layer ++ [layer.getD (layer.length - 1) []] else layer) →
    reduceLayer layer = reduceLayer ((List.range (even.length / 2)).map fun i =>
      sha256 (even.getD (2 * i) [] ++ even.getD (2 * i + 1) [])))

/-- 44_merkle.md, the laws of section 3 (R246) but for "order matters": one item, an odd number of
items, and duplication of the raw item against duplication of the hashed leaf; the corner case of two
items of section 2 (R245); and, as it follows from the reduction of section 1 (R240), the root of a
layer of two equal halves. -/
def Obligations.MerkleRootLaws : Prop :=
  (∀ x : Bytes, merkleRoot [x] = sha256 (sha256 x ++ sha256 x)) ∧
  (∀ x y : Bytes, merkleRoot [x, y] = sha256 (sha256 x ++ sha256 y)) ∧
  (∀ (xs : List Bytes) (x : Bytes), xs.length % 2 = 0 →
    merkleRoot (xs ++ [x]) = merkleRoot (xs ++ [x, x])) ∧
  (∀ xs : List Bytes, xs ≠ [] → (evenLayer xs).map sha256 = evenLayer (xs.map sha256)) ∧
  (∀ l r : List Bytes, l.length = r.length → (∃ k, l.length = 2 ^ k) →
    reduceLayer (l ++ r) = sha256 (reduceLayer l ++ reduceLayer r))

/-! ### The commands: what each does (42, 43, 44) -/

/-- R193: INIT always runs, whatever H, BLK and the operand registers hold, and leaves the IV in H with
DONE set; at acceptance only BUSY is set; the two micro-steps of the engine come to the same. -/
def Obligations.InitLoadsTheIv : Prop :=
  encode .init = 0x00000001 ∧
  ∀ s : State, s.preCheck .init = .none ∧ ∃ t, exec .init s = .next t ∧ t.h = iv ∧
    t.status = { s.status with busy := false, done := true, err := false, ecode := .none, lastop := 1 } ∧
    wordAt t.h 0 = 0x6a09e667 ∧ wordAt t.h 7 = 0x5be0cd19 ∧ t.errAddr = 0 ∧ t.fsm = .idle ∧
    (s.status.busy = false → s.raced = false →
      (s.writeReg .cmd 0x00000001).status =
        { s.status with busy := true, done := false, err := false, ecode := .none, lastop := 1 } ∧
      (s.writeReg .cmd 0x00000001).microSteps 2 = .next t) ∧
    (s.status.wib = false → t.status.toWord = 0x00001002)

/-- R195: COMPRESS always runs, leaves compress(old H, BLK) in H and BLK unchanged, with DONE set; any
H is legal; the 67 micro-steps of the engine come to the same. -/
def Obligations.CompressUpdatesTheChainingState : Prop :=
  encode .compress = 0x00000002 ∧
  ∀ s : State, s.preCheck .compress = .none ∧ ∃ t, exec .compress s = .next t ∧
    t.h = compress s.h s.blk.toList ∧ t.blk = s.blk ∧
    t.status = { s.status with busy := false, done := true, err := false, ecode := .none, lastop := 2 } ∧
    t.errAddr = 0 ∧ t.fsm = .idle ∧
    (s.status.busy = false → s.raced = false →
      (s.writeReg .cmd 0x00000002).status =
        { s.status with busy := true, done := false, err := false, ecode := .none, lastop := 2 } ∧
      (s.writeReg .cmd 0x00000002).microSteps 67 = .next t) ∧
    (s.h = iv → s.blk.toList = [0x61626380, 0, 0, 0, 0, 0, 0, 0, 0, 0, 0, 0, 0, 0, 0, 0x00000018] →
      t.h = { a := 0xba7816bf, b := 0x8f01cfea, c := 0x414140de, d := 0x5dae2223,
              e := 0xb00361a3, f := 0x96177a9c, g := 0xb410ff61, h := 0xf20015ad })

/-- 42_hash_commands.md section 4 (R199): HASH runs whenever the message is shorter than 2^61 bytes, in
range and readable, and leaves SHA-256 of the message in H, BLK unchanged, DONE set.  A message of no
bytes needs nothing readable. -/
def Obligations.HashLeavesTheDigest : Prop :=
  encode .hash = 0x00000003 ∧
  ∀ s : State, s.msgLen < 2 ^ 61 → s.msgAddr.toNat + s.msgLen ≤ 2 ^ 32 →
    s.operandsReadable .hash → s.raced = false →
    ∃ t, exec .hash s = .next t ∧ t.h = chain s.message ∧ ser t.h = sha256 s.message ∧ t.blk = s.blk ∧
      t.status = { s.status with busy := false, done := true, err := false, ecode := .none, lastop := 3 } ∧
      t.errAddr = 0 ∧ t.fsm = .idle

/-- 43_hmac.md (R220, R222, R225): HMAC runs whenever 64 + the message length is below 2^61, both
buffers are in range and readable, for every key length, and leaves the HMAC-SHA256 tag in H. -/
def Obligations.HmacLeavesTheTag : Prop :=
  encode .hmac = 0x00000004 ∧
  ∀ s : State, 64 + s.msgLen < 2 ^ 61 → s.msgAddr.toNat + s.msgLen ≤ 2 ^ 32 →
    s.keyAddr.toNat + s.keyLen.toNat ≤ 2 ^ 32 → s.operandsReadable .hmac → s.raced = false →
    ∃ t, exec .hmac s = .next t ∧
      (∀ k, k = (if s.key.length > 64 then sha256 s.key else s.key) →
        ∀ k0, k0 = k ++ List.replicate (64 - k.length) 0 →
          ser t.h = sha256 (List.zipWith (· ^^^ ·) k0 (List.replicate 64 0x5c) ++
            sha256 (List.zipWith (· ^^^ ·) k0 (List.replicate 64 0x36) ++ s.message))) ∧
      t.blk = s.blk ∧
      t.status = { s.status with busy := false, done := true, err := false, ecode := .none, lastop := 4 } ∧
      t.errAddr = 0 ∧ t.fsm = .idle

/-- 44_merkle.md (R240, R241, R245): MERKLE runs on every non-empty sequence of items that fits the
node buffer, is in range and readable, and leaves its root in H. -/
def Obligations.MerkleLeavesTheRoot : Prop :=
  encode .merkle = 0x00000005 ∧
  ∀ s : State, 1 ≤ s.itemCount.toNat →
    s.itemCount.toNat + s.itemCount.toNat % 2 ≤ s.platform.nodeCap.toNat →
    s.itemAddr.toNat + 32 * s.itemCount.toNat ≤ 2 ^ 32 → s.operandsReadable .merkle → s.raced = false →
    ∃ t, exec .merkle s = .next t ∧ ser t.h = merkleRoot s.items ∧ t.blk = s.blk ∧
      t.status = { s.status with busy := false, done := true, err := false, ecode := .none, lastop := 5 } ∧
      t.errAddr = 0 ∧ t.fsm = .idle

/-- 45_host_access.md section 3 (R272), 42_hash_commands.md R190: the frame of the five commands.
Whenever one of them gives a next state, everything but H, STATUS, ERR_ADDR and the engine's own state
is unchanged: CTRL, the operand registers, BLK, WIB, every byte of memory, the platform, the reset
input, the bus and the schedule. -/
def Obligations.CommandFrame : Prop :=
  ∀ (i : Instr) (s t : State), exec i s = .next t →
    t.ie = s.ie ∧ t.msgAddr = s.msgAddr ∧ t.msgLenLo = s.msgLenLo ∧ t.msgLenHi = s.msgLenHi ∧
    t.keyAddr = s.keyAddr ∧ t.keyLen = s.keyLen ∧ t.itemAddr = s.itemAddr ∧
    t.itemCount = s.itemCount ∧ t.blk = s.blk ∧ t.status.wib = s.status.wib ∧
    t.status.lastop = opcode i ∧ (∀ a, Memory.get t.mem a = Memory.get s.mem a) ∧ t.mem = s.mem ∧
    t.platform = s.platform ∧ t.rst = s.rst ∧ t.rdata = s.rdata ∧ t.schedule = s.schedule ∧
    t.status.busy = false ∧ t.fsm = .idle ∧ (t.status.done = true ↔ t.status.err = false) ∧
    (s.preCheck i ≠ .none → t.h = s.h ∧ t.draws = s.draws)

/-- R191: the only error a command can meet after its checks have passed is BUS_ERROR, and only HASH,
HMAC and MERKLE can meet it; INIT and COMPRESS always complete. -/
def Obligations.OnlyBusErrorAfterAcceptance : Prop :=
  (∀ (i : Instr) (s t : State), s.preCheck i = .none → exec i s = .next t → t.status.err = true →
    t.status.ecode = .busError ∧ (i = .hash ∨ i = .hmac ∨ i = .merkle)) ∧
  (∀ (i : Instr) (s : State), i = .init ∨ i = .compress →
    ∃ t, exec i s = .next t ∧ t.status.done = true ∧ t.status.err = false)

/-- R306, R310 (60_exceptions.md): the first byte of a buffer whose read is not admitted ends the command
in one step with BUS_ERROR and its address; each of H0..H7 holds a drawn value; nothing else changes.
HMAC reads the key before the message; MERKLE reads its items in order.  The model's own: the eight
draws that stand for `any Word` (log entry 3); the one value an idle engine's internal state has (log
entry 4); and that such a byte, met first, ends the command with BUS_ERROR whatever the later bytes of
the buffer are, also where their reads have side effects (log entry 15). -/
def Obligations.BusErrorEndsTheCommand : Prop :=
  ∀ (i : Instr) (s : State) (a : Nat), s.preCheck i = .none →
    (match i with
     | .init => False
     | .compress => False
     | .hash => ∃ k, s.firstBusError s.msgAddr.toNat s.msgLen k ∧ a = s.msgAddr.toNat + k
     | .hmac =>
       (∃ k, s.firstBusError s.keyAddr.toNat s.keyLen.toNat k ∧ a = s.keyAddr.toNat + k) ∨
       (s.bufferReadable s.keyAddr.toNat s.keyLen.toNat ∧
         ∃ k, s.firstBusError s.msgAddr.toNat s.msgLen k ∧ a = s.msgAddr.toNat + k)
     | .merkle =>
       ∃ k, s.firstBusError s.itemAddr.toNat (32 * s.itemCount.toNat) k ∧ a = s.itemAddr.toNat + k) →
    exec i s = .next
      { s with
        status :=
          { s.status with
            busy := false, done := false, err := true, ecode := .busError, lastop := opcode i }
        errAddr := BitVec.ofNat 32 a, h := freeWords8 s.draws, draws := s.draws + 8
        fsm := .idle, dp := Datapath.unspecified, raced := false }

/-- R83 (20_memory.md): a command that comes to read a byte whose reads have side effects is refused. -/
def Obligations.SideEffectReadIsRefused : Prop :=
  ∀ (s : State) (k : Nat),
    (s.preCheck .hash = .none → k < s.msgLen → s.bufferReadable s.msgAddr.toNat k →
      admitted s.platform (s.msgAddr.toNat + k) = true →
      sideEffectAt s.platform (s.msgAddr.toNat + k) = true →
      exec .hash s = .refused (.sideEffectRead (s.msgAddr.toNat + k))) ∧
    (s.preCheck .hmac = .none → k < s.keyLen.toNat → s.bufferReadable s.keyAddr.toNat k →
      admitted s.platform (s.keyAddr.toNat + k) = true →
      sideEffectAt s.platform (s.keyAddr.toNat + k) = true →
      exec .hmac s = .refused (.sideEffectRead (s.keyAddr.toNat + k))) ∧
    (s.preCheck .hmac = .none → s.bufferReadable s.keyAddr.toNat s.keyLen.toNat → k < s.msgLen →
      s.bufferReadable s.msgAddr.toNat k → admitted s.platform (s.msgAddr.toNat + k) = true →
      sideEffectAt s.platform (s.msgAddr.toNat + k) = true →
      exec .hmac s = .refused (.sideEffectRead (s.msgAddr.toNat + k))) ∧
    (s.preCheck .merkle = .none → k < 32 * s.itemCount.toNat → s.bufferReadable s.itemAddr.toNat k →
      admitted s.platform (s.itemAddr.toNat + k) = true →
      sideEffectAt s.platform (s.itemAddr.toNat + k) = true →
      exec .merkle s = .refused (.sideEffectRead (s.itemAddr.toNat + k)))

/-- 20_memory.md section 6 (R95): when a byte of the read set was written while the command ran, the
command still ends with DONE, and each word of H is a drawn value. -/
def Obligations.RacedResultIsAnyValue : Prop :=
  (∀ (i : Instr) (s : State), i = .hash ∨ i = .hmac ∨ i = .merkle → s.preCheck i = .none →
    s.operandsReadable i → s.raced = true →
    ∃ t, exec i s = .next t ∧ t.h = freeWords8 s.draws ∧ t.draws = s.draws + 8 ∧ t.raced = false ∧
      t.status.done = true ∧ t.status.err = false ∧ t.status.busy = false) ∧
  (∀ (s : State) (a : Nat) (b : Byte) (op : BitVec 4) (ph : Phase) (i : Instr), a < 2 ^ 32 →
    s.fsm = .run op ph → decodeOp op = .instr i →
    ∃ t, s.writeMem a b = .next t ∧ t.raced = (s.raced || s.inReadSet a i))

/-! ### Acceptance (45_host_access.md R265, 60_exceptions.md R301) -/

/-- R301, R302, R307: the code of the first failing check, for every command word, in exact integer
arithmetic, and what a rejected command changes: DONE, ERR, ECODE, ERR_ADDR and LASTOP only. -/
def Obligations.AcceptanceChecks : Prop :=
  (∀ (s : State) (v : Word), s.preCheckWord v =
    if v.extractLsb' 4 28 ≠ 0 ∨ v.extractLsb' 0 4 ∉ [(0x1 : BitVec 4), 0x2, 0x3, 0x4, 0x5] then .illegalCmd
    else if v.extractLsb' 0 4 = 0x1 ∨ v.extractLsb' 0 4 = 0x2 then .none
    else if v.extractLsb' 0 4 = 0x3 then
      (if s.msgLenHi.toNat * 2 ^ 32 + s.msgLenLo.toNat ≥ 2 ^ 61 then .lengthOverflow
       else if s.msgAddr.toNat + (s.msgLenHi.toNat * 2 ^ 32 + s.msgLenLo.toNat) > 2 ^ 32 then .range
       else .none)
    else if v.extractLsb' 0 4 = 0x4 then
      (if 64 + (s.msgLenHi.toNat * 2 ^ 32 + s.msgLenLo.toNat) ≥ 2 ^ 61 then .lengthOverflow
       else if s.msgAddr.toNat + (s.msgLenHi.toNat * 2 ^ 32 + s.msgLenLo.toNat) > 2 ^ 32 then .range
       else if s.keyAddr.toNat + s.keyLen.toNat > 2 ^ 32 then .range
       else .none)
    else
      (if s.itemCount.toNat = 0 then .merkleEmpty
       else if s.itemCount.toNat + s.itemCount.toNat % 2 > s.platform.nodeCap.toNat then .merkleCapacity
       else if s.itemAddr.toNat + 32 * s.itemCount.toNat > 2 ^ 32 then .range
       else .none)) ∧
  (∀ (s : State) (v : Word), s.status.busy = false → s.fsm = .idle → s.preCheckWord v ≠ .none →
    s.writeReg .cmd v =
      { s with
        status :=
          { s.status with
            done := false, err := true, ecode := s.preCheckWord v, lastop := v.extractLsb' 0 4 }
        errAddr := 0 }) ∧
  (∀ s : State, s.status.busy = false → s.status.wib = false →
    (s.writeReg .cmd 0x00000007).status.toWord = 0x00007104)

/-- R265: `Accept` of a word that passes its checks: the flags, LASTOP, BUSY and the engine at the first
micro-step of the command; WIB, CTRL, H, BLK, the operand registers and memory are unchanged. -/
def Obligations.AcceptanceStartsTheEngine : Prop :=
  ∀ (s : State) (v : Word), s.status.busy = false → s.preCheckWord v = .none →
    ∃ (t : State) (ph : Phase) (i : Instr), s.writeReg .cmd v = t ∧ decode v = .instr i ∧
      t.status = { s.status with
        busy := true, done := false, err := false, ecode := .none, lastop := v.extractLsb' 0 4 } ∧
      t.errAddr = 0 ∧ t.fsm = .run (v.extractLsb' 0 4) ph ∧
      ph = (match i with
        | .init => .initLoad
        | .compress => .load
        | .hash => .put
        | .hmac =>
          if s.keyLen.toNat > 64 then .put else if s.keyLen.toNat = 0 then .keyPad else .keyByte
        | .merkle => .put) ∧
      t.ie = s.ie ∧ t.h = s.h ∧ t.blk = s.blk ∧ t.msgAddr = s.msgAddr ∧ t.msgLenLo = s.msgLenLo ∧
      t.msgLenHi = s.msgLenHi ∧ t.keyAddr = s.keyAddr ∧ t.keyLen = s.keyLen ∧
      t.itemAddr = s.itemAddr ∧ t.itemCount = s.itemCount ∧ t.mem = s.mem ∧ t.platform = s.platform ∧
      t.draws = s.draws ∧ t.schedule = s.schedule

/-! ### Host register access (45_host_access.md) -/

/-- R268, R41 (and R350): while BUSY = 1 a write to any register but CTRL and STATUS has no effect except
that it sets WIB; LASTOP, the operands and the running command are untouched. -/
def Obligations.WritesWhileBusyAreDropped : Prop :=
  ∀ (s : State) (r : Reg) (v : Word), s.status.busy = true → r ≠ .ctrl → r ≠ .status →
    s.writeReg r v = { s with status := { s.status with wib := true } }

/-- R264 (and 45_host_access.md R270, R271): a write to an operand register, to BLKj or to Hi while idle
stores the whole word, whatever it is, and no other register's value changes but HEX2i and HEX2i+1 with
Hi; everything else in the state is as before.  Legality is checked at acceptance only. -/
def Obligations.IdleWritesStore : Prop :=
  (∀ s : State, s.status.busy = false →
    ((s.writeReg .msgLenHi 0x20000000).readReg .msgLenHi).rdata = 0x20000000 ∧
      (s.writeReg .msgLenHi 0x20000000).preCheck .hash = .lengthOverflow) ∧
  ∀ (s : State) (r : Reg) (v : Word), s.status.busy = false →
    (r ∈ [Reg.msgAddr, .msgLenLo, .msgLenHi, .keyAddr, .keyLen, .itemAddr, .itemCount] ∨
      (∃ j, r = .blk j) ∨ ∃ i, r = .h i) →
    (s.writeReg r v).regValue r = v ∧
    (∀ r' : Reg, r' ≠ r → (∀ (i : Fin 8) (k : Fin 16), r = .h i → r' = .hex k → k.val / 2 ≠ i.val) →
      (s.writeReg r v).regValue r' = s.regValue r') ∧
    { s.writeReg r v with
      msgAddr := s.msgAddr, msgLenLo := s.msgLenLo, msgLenHi := s.msgLenHi, keyAddr := s.keyAddr
      keyLen := s.keyLen, itemAddr := s.itemAddr, itemCount := s.itemCount, blk := s.blk, h := s.h }
      = s

/-- R269: writes while idle to read-only registers and reserved offsets have no effect and set no
flag. -/
def Obligations.ReadOnlyWritesAreIgnored : Prop :=
  ∀ (s : State) (r : Reg) (v : Word), s.status.busy = false →
    (r ∈ [Reg.id, .version, .nodeCap, .errAddr] ∨ (∃ k, r = .hex k) ∨ ∃ n, r = .reserved n) →
    s.writeReg r v = s

/-- R260: the word a register read returns, and that it changes nothing but the read data; every register
but H and HEX reads so while busy too. -/
def Obligations.RegisterReads : Prop :=
  (∀ (s : State) (r : Reg), s.status.busy = false ∨ ((∀ i, r ≠ .h i) ∧ ∀ k, r ≠ .hex k) →
    s.readReg r = { s with rdata := s.regValue r }) ∧
  (∀ s : State, s.regValue .id = 0x53323536 ∧ s.regValue .version = 0x00070001 ∧
    s.regValue .nodeCap = s.platform.nodeCap ∧
    (s.regValue .ctrl = if s.ie then 1 else 0) ∧ s.regValue .cmd = 0 ∧
    s.regValue .status = s.status.toWord ∧ s.regValue .msgAddr = s.msgAddr ∧
    s.regValue .msgLenLo = s.msgLenLo ∧ s.regValue .msgLenHi = s.msgLenHi ∧
    s.regValue .keyAddr = s.keyAddr ∧ s.regValue .keyLen = s.keyLen ∧
    s.regValue .itemAddr = s.itemAddr ∧ s.regValue .itemCount = s.itemCount ∧
    s.regValue .errAddr = s.errAddr ∧ (∀ j, s.regValue (.blk j) = s.blk[j]) ∧
    (∀ i : Fin 8, s.regValue (.h i) = wordAt s.h i.val) ∧
    (∀ k : Fin 16, s.regValue (.hex k) = hexWord s.h k.val) ∧ ∀ n, s.regValue (.reserved n) = 0) ∧
  (∀ p : Platform, ((State.resetOn p).readReg .id).rdata = 0x53323536 ∧
    ((State.resetOn p).readReg .status).rdata = 0 ∧
    ((State.resetOn p).readReg (.h 0)).rdata = 0x6a09e667)

/-- 45_host_access.md section 1 (R262): a read of Hi or HEXk while busy returns a fresh free value (the
draws are the model's own, log entry 3): two reads in a row take two different draws. -/
def Obligations.BusyResultReadsAreAnyWord : Prop :=
  ∀ (s : State) (r r' : Reg), s.status.busy = true → ((∃ i, r = .h i) ∨ ∃ k, r = .hex k) →
    ((∃ i, r' = .h i) ∨ ∃ k, r' = .hex k) →
    s.readReg r = { s with rdata := Config.freeWord s.draws, draws := s.draws + 1 } ∧
    ((s.readReg r).readReg r').rdata = Config.freeWord (s.draws + 1)

/-- 10_state.md R37: the bits of the STATUS word. -/
def Obligations.StatusWordLayout : Prop :=
  ∀ f : Status, f.toWord.getLsbD 0 = f.busy ∧ f.toWord.getLsbD 1 = f.done ∧ f.toWord.getLsbD 2 = f.err ∧
    f.toWord.getLsbD 3 = f.wib ∧ f.toWord.extractLsb' 4 4 = 0 ∧
    (f.toWord.extractLsb' 8 4).toNat =
      (match f.ecode with
       | .none => 0
       | .illegalCmd => 1
       | .lengthOverflow => 2
       | .merkleEmpty => 3
       | .range => 4
       | .busError => 5
       | .merkleCapacity => 6) ∧
    f.toWord.extractLsb' 12 4 = f.lastop ∧ f.toWord.extractLsb' 16 16 = 0

/-- R266: a STATUS write, while idle or busy. -/
def Obligations.StatusWriteClearsFlags : Prop :=
  (∀ (s : State) (v : Word), s.writeReg .status v =
    { s with
      status :=
        { busy := s.status.busy
          done := if v.getLsbD 1 then false else s.status.done
          err := if v.getLsbD 2 then false else s.status.err
          wib := if v.getLsbD 3 then false else s.status.wib
          ecode := if v.getLsbD 2 then .none else s.status.ecode
          lastop := s.status.lastop }
      errAddr := if v.getLsbD 2 then 0 else s.errAddr }) ∧
  (∀ s : State, s.status.toWord = 0x0000100A →
    (s.writeReg .status 0x2).status.toWord = 0x00001008)

/-- R267, R342 (and R35): a CTRL write, while idle or busy: bit 1 resets the instance exactly as the
reset input does and the IE bit of that write is discarded, otherwise IE takes bit 0 and nothing else
changes; no other host write stops a running command. -/
def Obligations.CtrlWriteAndSoftReset : Prop :=
  (∀ (s : State) (v : Word), v.getLsbD 1 = false → s.writeReg .ctrl v = { s with ie := v.getLsbD 0 }) ∧
  (∀ (s : State) (v : Word), v.getLsbD 1 = true → s.rst = false →
    s.writeReg .ctrl v = s.assertReset.releaseReset) ∧
  (∀ (s : State) (v : Word), v.getLsbD 1 = true →
    (∀ r : Reg, (s.writeReg .ctrl v).regValue r = (State.resetOn s.platform).regValue r) ∧
    (s.writeReg .ctrl v).ie = false ∧ (s.writeReg .ctrl v).regValue .status = 0 ∧
    (s.writeReg .ctrl v).h = iv ∧ (s.writeReg .ctrl v).fsm = .idle ∧ (s.writeReg .ctrl v).mem = s.mem) ∧
  (∀ (s : State) (r : Reg) (v : Word), s.status.busy = true → (r = .ctrl → v.getLsbD 1 = false) →
    (s.writeReg r v).fsm = s.fsm ∧ (s.writeReg r v).dp = s.dp ∧
      (s.writeReg r v).status.busy = true)

/-- R59, R340: the value every register and the engine hold after the reset input was asserted, from any
state; memory and the platform are not the instance's.  (The value of the engine-internal state, which
R59 leaves unspecified, is not stated.) -/
def Obligations.ResetValues : Prop :=
  ∀ s t : State, t = s.assertReset →
    t.regValue .id = 0x53323536 ∧ t.regValue .version = 0x00070001 ∧
    t.regValue .nodeCap = s.platform.nodeCap ∧ t.ie = false ∧ t.regValue .ctrl = 0 ∧
    t.regValue .status = 0 ∧ t.msgAddr = 0 ∧ t.msgLenLo = 0 ∧ t.msgLenHi = 0 ∧ t.keyAddr = 0 ∧
    t.keyLen = 0 ∧ t.itemAddr = 0 ∧ t.itemCount = 0 ∧ t.errAddr = 0 ∧
    (∀ j, t.regValue (.blk j) = 0) ∧ t.h = iv ∧ t.regValue (.h 0) = 0x6a09e667 ∧
    t.regValue (.h 7) = 0x5be0cd19 ∧ (∀ k : Fin 16, t.regValue (.hex k) = hexWord iv k.val) ∧
    t.fsm = .idle ∧ t.irq = false ∧ t.mem = s.mem ∧ t.platform = s.platform ∧
    (∀ (addr size : Nat) (v : Word), t.busWrite addr size v = .refused .accessDuringReset ∧
      t.busRead addr size = .refused .accessDuringReset) ∧
    ∃ u, t.releaseReset.busWrite (s.platform.regBase + 0x00C) 4 (encode .init) = .next u ∧
      u.status.busy = true

/-- 60_exceptions.md section 3 (R320): the interrupt output, and how its sources come and go: 0 from
acceptance on, IE at the end of a command, whatever it is, 0 after both flags are written with 1 and
while IE = 0; WIB raises none. -/
def Obligations.InterruptOutput : Prop :=
  (∀ s : State, s.irq = true ↔ s.ie = true ∧ (s.status.done = true ∨ s.status.err = true)) ∧
  (∀ (s : State) (v : Word), s.status.busy = false → s.preCheckWord v = .none →
    (s.writeReg .cmd v).irq = false) ∧
  (∀ (s : State) (v : Word), s.status.busy = false → s.preCheckWord v ≠ .none →
    (s.writeReg .cmd v).irq = s.ie) ∧
  (∀ (i : Instr) (s t : State), exec i s = .next t → t.irq = s.ie) ∧
  (∀ (s : State) (v : Word), v.getLsbD 1 = true → v.getLsbD 2 = true →
    (s.writeReg .status v).irq = false) ∧
  (∀ s : State, s.dropWrite.irq = s.irq ∧ s.assertReset.irq = false) ∧
  (∀ (s : State) (v : Word), v.getLsbD 0 = false ∨ v.getLsbD 1 = true →
    (s.writeReg .ctrl v).irq = false)

/-- R86 (and R32, R81): an aligned 32-bit access to offset o of the register block reaches the register
R32 names there, the offsets of R32's table written out, and an access of another width or alignment is
refused; the register map gives each of the 64 word slots one register. -/
def Obligations.RegisterMapAndAccessShape : Prop :=
  (∀ e ∈ [(0x000, Reg.id), (0x004, .version), (0x008, .ctrl), (0x00C, .cmd), (0x010, .status),
      (0x014, .msgAddr), (0x018, .msgLenLo), (0x01C, .msgLenHi), (0x020, .keyAddr), (0x024, .keyLen),
      (0x028, .itemAddr), (0x02C, .itemCount), (0x030, .nodeCap), (0x034, .errAddr),
      (0x038, .reserved 14), (0x03C, .reserved 15)],
    offsetOf e.2 = e.1 ∧ regOfSlot (e.1 / 4) = e.2) ∧
  (∀ j : Fin 16, offsetOf (.blk j) = 0x040 + 4 * j.val ∧ regOfSlot (0x10 + j.val) = .blk j) ∧
  (∀ i : Fin 8, offsetOf (.h i) = 0x080 + 4 * i.val ∧ regOfSlot (0x20 + i.val) = .h i) ∧
  (∀ k : Fin 16, offsetOf (.hex k) = 0x0A0 + 4 * k.val ∧ regOfSlot (0x28 + k.val) = .hex k) ∧
  (∀ n : Fin 8, regOfSlot (0x38 + n.val) = .reserved (0x38 + n.val)) ∧
  (∀ (s : State) (r : Reg), s.rst = false → (∀ n, r = .reserved n → n ∈ [14, 15, 56, 57, 58, 59, 60, 61, 62, 63]) →
    (∀ v : Word, s.busWrite (s.platform.regBase + offsetOf r) 4 v = .next (s.writeReg r v)) ∧
    s.busRead (s.platform.regBase + offsetOf r) 4 = .next (s.readReg r)) ∧
  (∀ (s : State) (off size : Nat), s.rst = false → off < 256 → size ≠ 4 ∨ off % 4 ≠ 0 →
    (∀ v : Word, s.busWrite (s.platform.regBase + off) size v = .refused (.malformedAccess off size)) ∧
    s.busRead (s.platform.regBase + off) size = .refused (.malformedAccess off size)) ∧
  (∀ n < 64, offsetOf (regOfSlot n) = 4 * n) ∧
  (∀ r r' : Reg, (∀ n, r ≠ .reserved n) → offsetOf r = offsetOf r' → (∀ n, r' ≠ .reserved n) → r = r')

/-- 20_memory.md R81 gives the block 256 bytes of the bus.  A bus access outside them, of any width, is
refused under its own name: that is the model's choice (log entry 18), the spec says nothing of it. -/
def Obligations.AccessOutsideTheBlock : Prop :=
  ∀ (s : State) (addr size : Nat), s.rst = false →
    addr < s.platform.regBase ∨ s.platform.regBase + 256 ≤ addr →
    (∀ v : Word, s.busWrite addr size v = .refused (.outsideRegisterSpace addr)) ∧
    s.busRead addr size = .refused (.outsideRegisterSpace addr)

/-! ### Memory (20_memory.md) -/

/-- 20_memory.md section 1 (R80): a byte the host writes is the byte memory then holds at that address,
every other byte is as before, the canonical form is kept, and no register changes.  The model's choice
(log entry 8): R80 says nothing of a host write, so the byte is stored at every address below 2^32,
admitted or not, and a write at 2^32 or above, which does not exist, is a fault; `raced` is the model's
own mark (log entry 9). -/
def Obligations.HostMemoryWrite : Prop :=
  (∀ (s : State) (a : Nat) (b : Byte), Memory.wf s.mem = true → a < 2 ^ 32 →
    ∃ t, s.writeMem a b = .next t ∧ Memory.wf t.mem = true ∧ Memory.get t.mem a = b ∧
      (∀ x, x ≠ a → Memory.get t.mem x = Memory.get s.mem x) ∧
      { t with mem := s.mem, raced := s.raced } = s) ∧
  (∀ (s : State) (a : Nat) (b : Byte), 2 ^ 32 ≤ a → s.writeMem a b = .fault (.noSuchAddress a))

/-- R82: the engine never writes memory, in a whole command or in a micro-step, and no register access
writes it either; no step changes the platform. -/
def Obligations.OnlyTheHostWritesMemory : Prop :=
  (∀ (i : Instr) (s t : State), exec i s = .next t → t.mem = s.mem) ∧
  (∀ s t : State, s.microStep = .next t → t.mem = s.mem) ∧
  (∀ (s : State) (r : Reg) (v : Word), (s.writeReg r v).mem = s.mem) ∧
  (∀ s t : State, step s = .next t →
    t.platform = s.platform ∧ (t.mem = s.mem ∨ ∃ a b rest, s.schedule = .host (.memWrite a b) :: rest))

/-- R358 (and R92, R270): two runs of a command from the same operand registers and the same bytes in
its read set, with the duty of R352 kept, end alike and leave the same H, whatever else differs; H
and BLK are operands of COMPRESS alone. -/
def Obligations.ResultDependsOnOperandsAlone : Prop :=
  ∀ (i : Instr) (s t : State), s.platform = t.platform → s.raced = false → t.raced = false →
    s.msgAddr = t.msgAddr → s.msgLenLo = t.msgLenLo → s.msgLenHi = t.msgLenHi →
    s.keyAddr = t.keyAddr → s.keyLen = t.keyLen → s.itemAddr = t.itemAddr →
    s.itemCount = t.itemCount → (i = .compress → s.h = t.h ∧ s.blk = t.blk) →
    (∀ a, s.inReadSet a i = true → Memory.get s.mem a = Memory.get t.mem a) →
    (∀ r, exec i s = .refused r ↔ exec i t = .refused r) ∧
    ∀ s', exec i s = .next s' → ∃ t', exec i t = .next t' ∧
      s'.status.done = t'.status.done ∧ s'.status.err = t'.status.err ∧
      s'.status.ecode = t'.status.ecode ∧ s'.errAddr = t'.errAddr ∧
      (s'.status.done = true → s'.h = t'.h)

/-! ### The machine -/

/-- The invariant of Safety.lean holds after reset, on every instance with legal parameters. -/
def Obligations.InvariantHoldsAtReset : Prop :=
  (∀ p : Platform, p.valid = true → Inv (State.resetOn p)) ∧ Inv State.reset

/-- 10_state.md R38, R39, R47, R53, R56, R57, 41_pipeline.md R172, R180, 44_merkle.md R241: every step of
every agent keeps the invariant: canonical memory; BUSY exactly while the engine runs; DONE and ERR
never together; ECODE NONE exactly when ERR = 0; ERR_ADDR 0 but after a BUS_ERROR; a running command's
checks still pass; the internal counters in range at every micro-step; the message bytes consumed (R54)
and those left add up to the length in `bitlen`; the node buffer within MERKLE_NODE_CAP. -/
def Obligations.EveryStepKeepsTheInvariant : Prop :=
  ∀ s t : State, Inv s → step s = .next t → Inv t

/-- 41_pipeline.md R182 (and 00_scope.md section 7): when it is the engine's turn, step runs the command decoded
from the opcode the engine holds; and so it does in the state `withFetchWord` makes.  The model's
choices: that the engine moves when nothing is scheduled, and the schedule itself (log entry 11), and
what `withFetchWord` is (log entry 10). -/
def Obligations.StepRunsTheDecodedCommand : Prop :=
  (∀ (s : State) (i : Instr) (op : BitVec 4) (ph : Phase), s.fsm = .run op ph →
    decodeOp op = .instr i →
    (s.schedule = [] → step s = exec i s) ∧
    (∀ rest, s.schedule = .command :: rest → step s = exec i { s with schedule := rest })) ∧
  (∀ (s : State) (i : Instr), decodeTableWord 32 (encode i).toNat = some i ∧
    step (s.withFetchWord 32 (encode i).toNat) = exec i (s.withFetchWord 32 (encode i).toNat))

/-- 00_scope.md R20, 30_encoding.md R117, R118: a step is the step of the agent the schedule names, for
every event a schedule can hold.  The whole of it is the model's choice: R20 gives no scheduler (log
entry 11), and that a failed script assertion is a fault and that a WAIT keeps its STATUS read for the
end are the model's too (log entry 19).  What a running engine does is `exec` of its command. -/
def Obligations.ScheduleNamesTheAgent : Prop :=
  ∀ (s : State) (rest : List Event),
    (s.schedule = [] → s.fsm = .idle → step s = .next s) ∧
    (s.schedule = .micro :: rest → step s = { s with schedule := rest }.microStep) ∧
    (∀ addr size v, s.schedule = .host (.write addr size v) :: rest →
      step s = { s with schedule := rest }.busWrite addr size v) ∧
    (∀ addr size, s.schedule = .host (.read addr size) :: rest →
      step s = { s with schedule := rest }.busRead addr size) ∧
    (∀ a b, s.schedule = .host (.memWrite a b) :: rest →
      step s = { s with schedule := rest }.writeMem a b) ∧
    (s.schedule = .host .assertReset :: rest → step s = .next { s with schedule := rest }.assertReset) ∧
    (s.schedule = .host .releaseReset :: rest →
      step s = .next { s with schedule := rest }.releaseReset) ∧
    (s.schedule = .command :: rest →
      (s.fsm = .idle → step s = .next { s with schedule := rest }) ∧
      ∀ op ph i, s.fsm = .run op ph → decodeOp op = .instr i →
        step s = exec i { s with schedule := rest }) ∧
    (s.schedule = .host .wait :: rest →
      (s.status.busy = false →
        step s = { s with schedule := rest }.busRead (s.platform.regBase + 0x010) 4) ∧
      (s.status.busy = true → ∀ op ph i, s.fsm = .run op ph → decodeOp op = .instr i →
        step s = exec i s)) ∧
    (∀ addr v, s.schedule = .host (.expect addr v) :: rest →
      (∀ t, { s with schedule := rest }.busRead addr 4 = .next t →
        (t.rdata = v → step s = .next t) ∧
        (t.rdata ≠ v → step s = .fault (.assertionFailed addr t.rdata v))) ∧
      ∀ e, { s with schedule := rest }.busRead addr 4 = .refused e → step s = .refused e)

/-- 41_pipeline.md R172, R180, R182, R183 (and R200, R226, R247): from the acceptance of a command, the
micro-steps counted by its work count come to exactly what the command does as one step, whether it
completes, meets a bus error or is refused; and unless it stops, no fewer do: the engine is busy until
the last. -/
def Obligations.MicroStepsComputeTheCommand : Prop :=
  ∀ (i : Instr) (s : State), s.status.busy = false → s.raced = false → s.preCheck i = .none →
    (s.writeReg .cmd (encode i)).microSteps (s.workCount i) = exec i (s.writeReg .cmd (encode i)) ∧
    exec i (s.writeReg .cmd (encode i)) = exec i s ∧
    (s.operandsReadable i → ∀ n < s.workCount i,
      ∃ t, (s.writeReg .cmd (encode i)).microSteps n = .next t ∧ t.status.busy = true)

/-- 10_state.md R54, 41_pipeline.md R172: the count of message bytes consumed.  A command that starts a
stream starts at 0 with the bit length of the whole; a BYTE micro-step that places a byte consumes one
byte of the stream, and PAD, LOAD and ROUND none.  (That R54's `pos` is a count beside the `pos` of
R172 is the model's reading, log entry 6.) -/
def Obligations.MessageBytesConsumed : Prop :=
  (∀ s : State, s.status.busy = false → s.preCheck .hash = .none →
    (s.writeReg .cmd (encode .hash)).dp.consumed = 0 ∧
    (s.writeReg .cmd (encode .hash)).dp.bitlen.toNat = 8 * s.msgLen ∧
    streamLen (s.writeReg .cmd (encode .hash)).dp.segs = s.msgLen) ∧
  (∀ (s t : State) (op : BitVec 4), s.fsm = .run op .put → s.microStep = .next t → t.fsm ≠ .idle →
    t.dp.bitlen = s.dp.bitlen ∧
    if s.dp.tail = .data ∧ 0 < streamLen s.dp.segs then
      t.dp.consumed = s.dp.consumed + 1 ∧ streamLen s.dp.segs = streamLen t.dp.segs + 1
    else t.dp.consumed = s.dp.consumed ∧ t.dp.segs = s.dp.segs) ∧
  (∀ (s t : State) (op : BitVec 4), s.fsm = .run op .load ∨ s.fsm = .run op .round →
    s.microStep = .next t → t.dp.bitlen = s.dp.bitlen ∧ t.dp.consumed = s.dp.consumed ∧
      t.dp.segs = s.dp.segs)

/-- 41_pipeline.md R180, R182: the engine may take the micro-steps that are left as one step from
wherever it stands: the command does what it would have done from its acceptance. -/
def Obligations.MergingTheRestOfACommand : Prop :=
  ∀ (s t : State) (op : BitVec 4) (ph : Phase) (i : Instr), s.fsm = .run op ph →
    decodeOp op = .instr i → s.preCheck i = .none → s.microStep = .next t → t.fsm ≠ .idle →
    (∃ ph', t.fsm = .run op ph') ∧ exec i t = exec i s

/-- R197: HASH of a message and INIT followed by one COMPRESS for each block of the padded message leave
the same H. -/
def Obligations.StreamingEqualsMonolithic : Prop :=
  ∀ s : State, s.preCheck .hash = .none → s.operandsReadable .hash → s.raced = false →
    ∃ u t : State, exec .init s = .next u ∧ exec .hash s = .next t ∧
      ∃ v : State,
        (parse (pad s.message)).foldl
          (fun (o : Host.Outcome State Fault Refusal) (b : List Word) =>
            match o with
            | .next x => exec .compress { x with blk := Vector.ofFn fun j => b.getD j.val 0 }
            | .fault f => .fault f
            | .refused r => .refused r)
          (.next u) = .next v ∧ v.h = t.h

/-- 41_pipeline.md R181, 10_state.md R61: the engine-internal state an idle engine holds never matters to
a command accepted later: not to what the command does, not at any micro-step to its phase or to any
register. -/
def Obligations.IdleInternalStateNeverMatters : Prop :=
  ∀ (i : Instr) (s : State) (d : Datapath) (n : Nat), s.status.busy = false → s.preCheck i = .none →
    match (s.writeReg .cmd (encode i)).microSteps n,
      ({ s with dp := d }.writeReg .cmd (encode i)).microSteps n with
    | .next t, .next u => t.fsm = u.fsm ∧ { t with dp := u.dp } = u
    | .fault _, .fault _ => True
    | .refused r, .refused r' => r = r'
    | _, _ => False

/-- 70_reset_and_hazards.md section 3 (R357): which micro-step the engine takes next and which address it
reads next never depend on the bytes read or the words computed. -/
def Obligations.WorkIsDataIndependent : Prop :=
  ∀ (i : Instr) (s : State) (h : Words8) (b : Vector Word 16) (m : Memory) (n : Nat),
    s.status.busy = false → s.preCheck i = .none →
    match (s.writeReg .cmd (encode i)).microSteps n,
      ({ s with h := h, blk := b, mem := m }.writeReg .cmd (encode i)).microSteps n with
    | .next t, .next u =>
      t.fsm = u.fsm ∧ t.errAddr = u.errAddr ∧ t.status = u.status ∧ t.dp.tail = u.dp.tail ∧
        t.dp.pos = u.dp.pos ∧ t.dp.consumed = u.dp.consumed ∧ t.dp.bitlen = u.dp.bitlen ∧
        t.dp.segs.map segmentLen = u.dp.segs.map segmentLen ∧ t.dp.k0.length = u.dp.k0.length ∧
        ∀ a rest, popByte t.dp.segs = some (.read a, rest) →
          ∃ rest', popByte u.dp.segs = some (.read a, rest')
    | .fault _, .fault _ => True
    | .refused r, .refused r' => r = r'
    | _, _ => False

/-- 70_reset_and_hazards.md R355, 30_encoding.md R118: a WAIT ends: from every state of a running command
the engine's next step under the WAIT ends the command or refuses it, and the step after that reads
STATUS with BUSY = 0 and goes on.  The model's choices: that the engine moves during a WAIT and takes
its whole command as that one step, the WAIT staying scheduled (log entry 11), and that the polling
reads are one STATUS read at the end (log entry 19). -/
def Obligations.WaitTerminates : Prop :=
  ∀ (s : State) (rest : List Event), Inv s → s.status.busy = true →
    s.schedule = .host .wait :: rest →
    (∃ a, step s = .refused (.sideEffectRead a)) ∨
    ∃ t, step s = .next t ∧ t.status.busy = false ∧ t.schedule = .host .wait :: rest ∧
      step t = .next { t with schedule := rest, rdata := t.status.toWord }
end

