-- ==== Sys2Proof/Laws/Pipeline.lean ====
section
/-!
SUPPORT. The pure pipeline: the fill of the padding, the growth of the schedule, and absorbing a padded
message one byte at a time, which is what the engine's micro-steps do.
-/

namespace Sys2Proof.Machine

/-! ### Lengths -/

@[simp] theorem wordBytes_length (w : Word) : (wordBytes w).length = 4 := rfl

@[simp] theorem ser_length (v : Words8) : (ser v).length = 32 := rfl

@[simp] theorem sha256_length (m : Bytes) : (sha256 m).length = 32 := rfl

@[simp] theorem be64Bytes_length (n : Nat) : (be64Bytes n).length = 8 := rfl

@[simp] theorem zeros_length (n : Nat) : (zeros n).length = n := by simp [zeros]

theorem normKey_length (key : Bytes) : (normKey key).length = 64 := by
  simp only [normKey, List.length_append, zeros_length]
  split <;> simp_all

theorem innerKey_length {k0 : Bytes} (h : k0.length = 64) : (innerKey k0).length = 64 := by
  simp [innerKey, xorBytes, h]

theorem outerKey_length {k0 : Bytes} (h : k0.length = 64) : (outerKey k0).length = 64 := by
  simp [outerKey, xorBytes, h]

theorem evenLayer_length (l : List Bytes) : (evenLayer l).length = l.length + l.length % 2 := by
  unfold evenLayer; split <;> simp <;> omega

theorem hashPairs_length (l : List Bytes) : (hashPairs l).length = l.length / 2 := by
  induction l using hashPairs.induct with
  | case1 a b rest ih => simp [hashPairs, ih]; omega
  | case2 l h =>
    match l, h with
    | [], _ => rfl
    | [_], _ => simp [hashPairs]
    | a :: b :: rest, h => exact absurd rfl (h a b rest)

/-- The bound on the number of layers does not matter once it is the number of nodes. -/
theorem reduceLayers_bound {n m : Nat} {layer : List Bytes} (hn : layer.length ≤ n)
    (hm : layer.length ≤ m) : reduceLayers n layer = reduceLayers m layer := by
  induction n generalizing m layer with
  | zero =>
    have h0 : layer = [] := List.length_eq_zero_iff.mp (by omega)
    subst h0
    cases m <;> rfl
  | succ n ih =>
    by_cases h1 : layer.length ≤ 1
    · cases m with
      | zero =>
        have h0 : layer = [] := List.length_eq_zero_iff.mp (by omega)
        subst h0
        rfl
      | succ m => rw [reduceLayers, reduceLayers, if_pos h1, if_pos h1]
    · obtain ⟨m, rfl⟩ : ∃ k, m = k + 1 := ⟨m - 1, by omega⟩
      rw [reduceLayers, reduceLayers, if_neg h1, if_neg h1]
      have hl : (hashPairs (evenLayer layer)).length = (layer.length + layer.length % 2) / 2 := by
        rw [hashPairs_length, evenLayer_length]
      exact ih (by omega) (by omega)

/-- R240: one layer of the reduction. -/
theorem reduceLayer_step {layer : List Bytes} (h : 1 < layer.length) :
    reduceLayer layer = reduceLayer (hashPairs (evenLayer layer)) := by
  obtain ⟨n, hn⟩ : ∃ n, layer.length = n + 1 := ⟨layer.length - 1, by omega⟩
  have hl : (hashPairs (evenLayer layer)).length = (layer.length + layer.length % 2) / 2 := by
    rw [hashPairs_length, evenLayer_length]
  rw [reduceLayer, hn, reduceLayers, if_neg (by omega), reduceLayer]
  exact reduceLayers_bound (by omega) (Nat.le_refl _)

/-! ### Words and bytes -/

/-- Packing the four bytes of a word gives the word back. -/
theorem be32_wordBytes (w : Word) :
    be32 (w.extractLsb' 24 8) (w.extractLsb' 16 8) (w.extractLsb' 8 8) (w.extractLsb' 0 8) = w := by
  apply BitVec.eq_of_getLsbD_eq
  intro i hi
  simp only [be32, BitVec.getLsbD_append, BitVec.getLsbD_extractLsb']
  split_ifs with h1 h2 h3
  · simp [h1]
  · have : i - 8 < 8 := by omega
    simp [this, show 8 + (i - 8) = i by omega]
  · have : i - 8 - 8 < 8 := by omega
    simp [this, show 16 + (i - 8 - 8) = i by omega]
  · have : i - 8 - 8 - 8 < 8 := by omega
    simp [this, show 24 + (i - 8 - 8 - 8) = i by omega]

theorem packWords_ser (v : Words8) : packWords (ser v) = wordsList v := by
  simp [ser, wordsList, wordBytes, packWords, be32_wordBytes]

/-- R170: deserialisation undoes serialisation. -/
theorem deser_ser_eq (v : Words8) : deser (ser v) = v := by
  simp [deser, packWords_ser, wordsOfList, wordsList]

theorem packWords_append {l r : Bytes} {n : Nat} (h : l.length = 4 * n) :
    packWords (l ++ r) = packWords l ++ packWords r := by
  induction n generalizing l with
  | zero => simp [List.length_eq_zero_iff.mp h, packWords]
  | succ n ih =>
    match l, h with
    | a :: b :: c :: d :: rest, h =>
      simp only [List.cons_append, packWords]
      rw [ih (by simp at h; omega)]

theorem packWords_length (l : Bytes) : (packWords l).length = l.length / 4 := by
  induction l using packWords.induct with
  | case1 a b c d rest ih => simp [packWords, ih]; omega
  | case2 l h =>
    match l, h with
    | [], _ => rfl
    | [_], _ => simp [packWords]
    | [_, _], _ => simp [packWords]
    | [_, _, _], _ => simp [packWords]
    | a :: b :: c :: d :: rest, h => exact absurd rfl (h a b c d rest)

/-! ### The schedule -/

theorem expand_add (a b : Nat) (w : List Word) : expand (a + b) w = expand b (expand a w) := by
  induction a generalizing w with
  | zero => rw [Nat.zero_add]; rfl
  | succ a ih => rw [Nat.succ_add]; exact ih _

theorem expand_succ (n : Nat) (w : List Word) :
    expand (n + 1) w = expand n w ++ [scheduleWord (expand n w)] := expand_add n 1 w

@[simp] theorem expand_length (n : Nat) (w : List Word) : (expand n w).length = w.length + n := by
  induction n generalizing w with
  | zero => rfl
  | succ n ih => rw [expand, ih]; simp; omega

/-- What has been computed of the schedule stays. -/
theorem expand_getD {w : List Word} {i : Nat} (n : Nat) (h : i < w.length) :
    (expand n w).getD i 0 = w.getD i 0 := by
  induction n with
  | zero => rfl
  | succ n ih =>
    rw [expand_succ, List.getD_append _ _ _ _ (by simp; omega), ih]

/-! ### Absorbing bytes -/

/-- The chaining state and the bytes of the block in progress, after one more byte. -/
def absorb (x : Words8 × Bytes) (b : Byte) : Words8 × Bytes :=
  if x.2.length + 1 = 64 then (compress x.1 (packWords (x.2 ++ [b])), []) else (x.1, x.2 ++ [b])

theorem foldl_absorb_part {c : Words8} {part l : Bytes} (h : part.length + l.length < 64) :
    l.foldl absorb (c, part) = (c, part ++ l) := by
  induction l generalizing part with
  | nil => simp
  | cons b l ih =>
    simp only [List.length_cons] at h
    have : ¬ part.length + 1 = 64 := by omega
    rw [List.foldl_cons, absorb, if_neg this, ih (by simp; omega)]
    simp

theorem foldl_absorb_block {c : Words8} {l : Bytes} (h : l.length = 64) :
    l.foldl absorb (c, []) = (compress c (packWords l), []) := by
  have hne : l ≠ [] := by intro e; simp [e] at h
  conv_lhs => rw [← List.dropLast_append_getLast hne]
  have hl : l.dropLast.length = 63 := by simp [h]
  rw [List.foldl_append, foldl_absorb_part (l := l.dropLast) (by simp [h])]
  simp only [List.foldl_cons, List.foldl_nil, List.nil_append, absorb, hl, if_true]
  rw [List.dropLast_append_getLast]

theorem foldl_absorb_blocks (n : Nat) {c : Words8} {l : Bytes} (h : l.length = 64 * n) :
    l.foldl absorb (c, []) = ((splitBlocks n (packWords l)).foldl compress c, []) := by
  induction n generalizing c l with
  | zero => simp [List.length_eq_zero_iff.mp h, splitBlocks]
  | succ n ih =>
    have h1 : (l.take 64).length = 64 := by simp; omega
    have h2 : (l.drop 64).length = 64 * n := by simp; omega
    have hp : packWords l = packWords (l.take 64) ++ packWords (l.drop 64) := by
      rw [← packWords_append (n := 16) h1, List.take_append_drop]
    have h16 : (packWords (l.take 64)).length = 16 := by rw [packWords_length, h1]
    conv_lhs => rw [← List.take_append_drop 64 l]
    rw [List.foldl_append, foldl_absorb_block h1, ih h2, hp]
    simp only [splitBlocks, List.foldl_cons]
    rw [← h16, List.take_left, List.drop_left]

/-! ### The padding -/

/-- The zeros the fill of R160 appends to a sequence of `n` bytes. -/
def fillCount (n : Nat) : Nat := (120 - n % 64) % 64

theorem fillZeros_eq {n : Nat} {p : Bytes} (h : fillCount p.length ≤ n) :
    fillZeros n p = p ++ zeros (fillCount p.length) := by
  induction n generalizing p with
  | zero => simp [fillZeros, Nat.le_zero.mp h, zeros]
  | succ n ih =>
    unfold fillZeros
    split_ifs with h56
    · have : fillCount p.length = 0 := by unfold fillCount; omega
      simp [this, zeros]
    · have hc : fillCount p.length = fillCount (p ++ [(0x00 : Byte)]).length + 1 := by
        simp only [fillCount, List.length_append, List.length_cons, List.length_nil]; omega
      rw [ih (by omega), hc]
      simp only [zeros, List.replicate_succ, List.append_assoc, List.cons_append, List.nil_append]

/-- The padded message as data, terminator, fill and length field. -/
theorem pad_split (m : Bytes) :
    pad m = m ++ 0x80 :: (zeros (fillCount (m.length + 1)) ++ be64Bytes (8 * m.length)) := by
  have h : fillCount (m ++ [(0x80 : Byte)]).length ≤ 64 := by unfold fillCount; omega
  rw [pad, fillZeros_eq h]
  simp

theorem pad_length (m : Bytes) : (pad m).length = 64 * blockCount m.length := by
  simp only [pad_split, List.length_append, List.length_cons, zeros_length, be64Bytes_length,
    fillCount, blockCount]
  omega

/-- Absorbing the padded message byte by byte is the hash of its blocks. -/
theorem foldl_absorb_pad (m : Bytes) : (pad m).foldl absorb (iv, []) = (chain m, []) := by
  rw [foldl_absorb_blocks (blockCount m.length) (pad_length m), chain, parse, pad_length,
    Nat.mul_div_cancel_left _ (by decide : 0 < 64)]

end Sys2Proof.Machine
end

