-- ==== Sys2Proof/Laws/MicroSteps.lean ====
section
/-!
SUPPORT. The engine's micro-steps: how they add up, one compression, one placed byte, the padding, and a
whole `HashStream` (spec 41_pipeline.md R172).
-/

namespace Sys2Proof.Machine

/-! ### Adding micro-steps -/

/-- After n micro-steps that reached `t`, the next k are those of `t`. -/
theorem microSteps_add {s t : State} {n : Nat} (k : Nat) (h : s.microSteps n = .next t) :
    s.microSteps (n + k) = t.microSteps k := by
  induction n generalizing s with
  | zero => cases h; rw [Nat.zero_add]
  | succ n ih =>
    rw [Nat.succ_add]
    simp only [State.microSteps] at h ⊢
    cases hs : s.microStep with
    | next u => rw [hs] at h; exact ih h
    | fault f => rw [hs] at h; cases h
    | refused r => rw [hs] at h; cases h

/-- Two runs of micro-steps, one after the other. -/
theorem microSteps_trans {s t u : State} {n k : Nat} (h : s.microSteps n = .next t)
    (h' : t.microSteps k = .next u) : s.microSteps (n + k) = .next u := by
  rw [microSteps_add k h, h']

/-- A micro-step that stops ends the run. -/
theorem microSteps_refused {s : State} {n : Nat} {r : Refusal} (k : Nat)
    (h : s.microSteps n = .refused r) : s.microSteps (n + k) = .refused r := by
  induction n generalizing s with
  | zero => cases h
  | succ n ih =>
    rw [Nat.succ_add]
    simp only [State.microSteps] at h ⊢
    cases hs : s.microStep with
    | next u => rw [hs] at h; exact ih h
    | fault f => rw [hs] at h; cases h
    | refused r' => rw [hs] at h; cases h; rfl

/-- An idle engine stays as it is. -/
theorem microSteps_idle {s : State} (h : s.fsm = .idle) (k : Nat) : s.microSteps k = .next s := by
  induction k with
  | zero => rfl
  | succ k ih => simp only [State.microSteps, State.microStep, h, ih]

theorem microSteps_one {s t : State} (h : s.microStep = .next t) : s.microSteps 1 = .next t := by
  simp only [State.microSteps, h]

/-! ### A read that gives no byte ends the command -/

/-- From `s` the engine has come to `o` after n micro-steps, and stays there. -/
def State.EndsBy (s : State) (n : Nat) (o : Host.Outcome State Fault Refusal) : Prop :=
  ∀ k, s.microSteps (n + k) = o

theorem State.EndsBy.mono {s : State} {n n' : Nat} {o : Host.Outcome State Fault Refusal}
    (h : s.EndsBy n o) (hn : n ≤ n') : s.EndsBy n' o := by
  intro k
  have := h (n' - n + k)
  rwa [show n + (n' - n + k) = n' + k by omega] at this

theorem State.EndsBy.after {s t : State} {n k : Nat} {o : Host.Outcome State Fault Refusal}
    (hs : s.microSteps n = .next t) (h : t.EndsBy k o) : s.EndsBy (n + k) o := by
  intro j
  rw [Nat.add_assoc, microSteps_add _ hs, h j]

/-- The answer of a read that gives no value. -/
def ReadResult.stops {α : Type} : ReadResult α → Prop
  | .ok _ => False
  | .busError _ => True
  | .sideEffect _ => True

/-- Where a read gives no value, what would be done with one does not matter. -/
theorem withRead_stops {α : Type} {s : State} {r : ReadResult α} (h : r.stops)
    (k k' : α → Host.Outcome State Fault Refusal) : s.withRead r k = s.withRead r k' := by
  cases r with
  | ok x => exact h.elim
  | busError a => rfl
  | sideEffect a => rfl

/-- One micro-step whose read gives no byte is the last one. -/
theorem endsBy_of_withRead {α : Type} {s u : State} {r : ReadResult α} (h : r.stops)
    {k : α → Host.Outcome State Fault Refusal} (hs : u.microStep = s.withRead r k) :
    u.EndsBy 1 (s.withRead r k) := by
  intro j
  cases r with
  | ok x => exact h.elim
  | busError a =>
    have h1 : u.microSteps 1 = .next (s.raise .busError a) := microSteps_one hs
    rw [microSteps_add j h1, microSteps_idle rfl]
    rfl
  | sideEffect a =>
    have h1 : u.microSteps 1 = .refused (.sideEffectRead a) := by
      simp only [State.microSteps, hs, State.withRead]
    rw [microSteps_refused j h1]
    rfl

/-! ### One compression: LOAD, ROUND and FEED -/

/-- The internal state after k rounds of the compression of `block` from `hin`. -/
def Datapath.afterRounds (dp : Datapath) (hin : Words8) (block : List Word) (k : Nat) : Datapath :=
  { dp with cv := hin, vars := rounds (schedule block) k hin, w := expand (k - 16) block, t := k }

/-- What a stream leaves alone: the wrapper's own state and the length to be written. -/
structure Datapath.SameWrapper (dp dp' : Datapath) : Prop where
  bitlen : dp'.bitlen = dp.bitlen
  k0 : dp'.k0 = dp.k0
  ihash : dp'.ihash = dp.ihash
  hmacPhase : dp'.hmacPhase = dp.hmacPhase
  node : dp'.node = dp.node
  m : dp'.m = dp.m
  p : dp'.p = dp.p
  stage : dp'.stage = dp.stage

theorem Datapath.SameWrapper.refl (dp : Datapath) : dp.SameWrapper dp :=
  ⟨rfl, rfl, rfl, rfl, rfl, rfl, rfl, rfl⟩

theorem Datapath.SameWrapper.trans {a b c : Datapath} (h : a.SameWrapper b) (h' : b.SameWrapper c) :
    a.SameWrapper c :=
  ⟨h'.bitlen.trans h.bitlen, h'.k0.trans h.k0, h'.ihash.trans h.ihash,
    h'.hmacPhase.trans h.hmacPhase, h'.node.trans h.node, h'.m.trans h.m, h'.p.trans h.p,
    h'.stage.trans h.stage⟩

@[simp] theorem Datapath.afterRounds_cv (dp : Datapath) (hin : Words8) (block : List Word) (k : Nat) :
    (dp.afterRounds hin block k).cv = hin := rfl
@[simp] theorem Datapath.afterRounds_vars (dp : Datapath) (hin : Words8) (block : List Word) (k : Nat) :
    (dp.afterRounds hin block k).vars = rounds (schedule block) k hin := rfl
@[simp] theorem Datapath.afterRounds_tail (dp : Datapath) (hin : Words8) (block : List Word) (k : Nat) :
    (dp.afterRounds hin block k).tail = dp.tail := rfl
@[simp] theorem Datapath.afterRounds_segs (dp : Datapath) (hin : Words8) (block : List Word) (k : Nat) :
    (dp.afterRounds hin block k).segs = dp.segs := rfl
theorem Datapath.afterRounds_sameWrapper (dp : Datapath) (hin : Words8) (block : List Word) (k : Nat) :
    dp.SameWrapper (dp.afterRounds hin block k) := ⟨rfl, rfl, rfl, rfl, rfl, rfl, rfl, rfl⟩

/-- R167: the feed-forward, after 64 rounds. -/
theorem addWords8_rounds (hin : Words8) (b : List Word) {n : Nat} (hn : n = 64) :
    addWords8 hin (rounds (schedule b) n hin) = compress hin b := by
  rw [hn, compress]

/-- The internal state after FEED of a stream left the chaining state `c`. -/
def Datapath.fed (dp : Datapath) (c : Words8) : Datapath := { dp with chain := c, pos := 0 }

theorem Datapath.fed_sameWrapper (dp : Datapath) (c : Words8) : dp.SameWrapper (dp.fed c) :=
  ⟨rfl, rfl, rfl, rfl, rfl, rfl, rfl, rfl⟩

theorem microStep_load (s : State) {op : BitVec 4} (hop : op ≠ opcode .compress) (dp : Datapath) :
    (s.goto op .load dp).microStep =
      .next (s.goto op .round (dp.afterRounds dp.chain dp.blk.toList 0)) := by
  show Host.Outcome.next ((s.goto op .load dp).microLoad op) = _
  simp only [State.microLoad, if_neg hop]
  rfl

theorem microStep_load_compress (s : State) (dp : Datapath) :
    (s.goto (opcode .compress) .load dp).microStep =
      .next (s.goto (opcode .compress) .round (dp.afterRounds s.h s.blk.toList 0)) := rfl

theorem microStep_round (s : State) (op : BitVec 4) (dp : Datapath) {w : List Word}
    (hw : (if dp.t ≥ 16 then dp.w ++ [scheduleWord dp.w] else dp.w) = w) :
    (s.goto op .round dp).microStep =
      .next (s.goto op (if dp.t + 1 = 64 then .feed else .round)
        { dp with
          w := w, vars := roundFn dp.vars (roundConstant dp.t) (w.getD dp.t 0), t := dp.t + 1 }) := by
  subst hw; rfl

theorem streamDone_goto (s : State) (op : BitVec 4) (ph : Phase) (dp dp' : Datapath) (d : Bytes) :
    (s.goto op ph dp).streamDone op d dp' = s.streamDone op d dp' := rfl

theorem microStep_feed (s : State) {op : BitVec 4} (hop : op ≠ opcode .compress) (dp : Datapath) :
    (s.goto op .feed dp).microStep =
      .next (if dp.tail = .done then
          s.streamDone op (ser (addWords8 dp.cv dp.vars)) (dp.fed (addWords8 dp.cv dp.vars))
        else s.goto op .put (dp.fed (addWords8 dp.cv dp.vars))) := by
  show Host.Outcome.next ((s.goto op .feed dp).microFeed op) = _
  simp only [State.microFeed, if_neg hop, State.goto_dp]
  cases hd : dp.tail <;> simp [Datapath.fed, hd, streamDone_goto] <;> rfl

theorem microStep_feed_compress (s : State) (dp : Datapath) :
    (s.goto (opcode .compress) .feed dp).microStep =
      .next (s.goto (opcode .compress) .complete { dp with result := addWords8 dp.cv dp.vars }) := rfl

/-- k rounds from the first one on. -/
theorem microSteps_rounds (s : State) (op : BitVec 4) (dp : Datapath) (hin : Words8)
    {block : List Word} (hb : block.length = 16) {k : Nat} (hk : k ≤ 64) :
    (s.goto op .round (dp.afterRounds hin block 0)).microSteps k =
      .next (s.goto op (if k = 64 then .feed else .round) (dp.afterRounds hin block k)) := by
  induction k with
  | zero => rfl
  | succ k ih =>
    refine microSteps_trans (ih (by omega)) (microSteps_one ?_)
    rw [if_neg (by omega)]
    have hw : (if k ≥ 16 then expand (k - 16) block ++ [scheduleWord (expand (k - 16) block)]
        else expand (k - 16) block) = expand (k + 1 - 16) block := by
      split_ifs with h
      · rw [← expand_succ, show k - 16 + 1 = k + 1 - 16 by omega]
      · rw [show k - 16 = 0 by omega, show k + 1 - 16 = 0 by omega]
    have hg : (expand (k + 1 - 16) block).getD k 0 = (schedule block).getD k 0 := by
      have e := expand_getD (w := expand (k + 1 - 16) block) (i := k) (48 - (k + 1 - 16))
        (by simp [hb]; omega)
      rw [← e, ← expand_add, show k + 1 - 16 + (48 - (k + 1 - 16)) = 48 by omega, schedule]
    rw [microStep_round s op (dp.afterRounds hin block k) hw]
    simp only [Datapath.afterRounds, hg]
    rfl

/-- R172: `CompressBlock` of a stream, 66 micro-steps. -/
theorem microSteps_block (s : State) {op : BitVec 4} (hop : op ≠ opcode .compress) (dp : Datapath) :
    ∃ dp' : Datapath, dp'.chain = compress dp.chain dp.blk.toList ∧ dp'.pos = 0 ∧
      dp'.segs = dp.segs ∧ dp'.tail = dp.tail ∧ dp.SameWrapper dp' ∧
      (dp.tail = .done → (s.goto op .load dp).microSteps 66 =
        .next (s.streamDone op (ser (compress dp.chain dp.blk.toList)) dp')) ∧
      (dp.tail ≠ .done → (s.goto op .load dp).microSteps 66 = .next (s.goto op .put dp')) := by
  obtain ⟨n, hn⟩ : ∃ n : Nat, n = 64 := ⟨_, rfl⟩
  have h1 := microSteps_one (microStep_load s hop dp)
  have h2 := microSteps_rounds s op dp dp.chain (block := dp.blk.toList) (by simp) (le_of_eq hn)
  rw [if_pos hn] at h2
  have h3 := microSteps_one (microStep_feed s hop (dp.afterRounds dp.chain dp.blk.toList n))
  rw [Datapath.afterRounds_cv, Datapath.afterRounds_vars, addWords8_rounds _ _ hn,
    Datapath.afterRounds_tail] at h3
  have h4 := microSteps_trans (microSteps_trans h1 h2) h3
  rw [show 1 + n + 1 = 66 by omega] at h4
  refine ⟨(dp.afterRounds dp.chain dp.blk.toList n).fed (compress dp.chain dp.blk.toList),
    rfl, rfl, rfl, rfl, (dp.afterRounds_sameWrapper _ _ n).trans (Datapath.fed_sameWrapper _ _), ?_, ?_⟩
  · intro ht; rw [h4, if_pos ht]
  · intro ht; rw [h4, if_neg ht]

/-- R195: the 67 micro-steps of COMPRESS up to COMPLETE. -/
theorem microSteps_compress (s : State) (dp : Datapath) :
    ∃ dp' : Datapath, dp'.result = compress s.h s.blk.toList ∧
      (s.goto (opcode .compress) .load dp).microSteps 66 =
        .next (s.goto (opcode .compress) .complete dp') := by
  obtain ⟨n, hn⟩ : ∃ n : Nat, n = 64 := ⟨_, rfl⟩
  have h1 := microSteps_one (microStep_load_compress s dp)
  have h2 := microSteps_rounds s (opcode .compress) dp s.h (block := s.blk.toList) (by simp) (le_of_eq hn)
  rw [if_pos hn] at h2
  have h3 := microSteps_one (microStep_feed_compress s (dp.afterRounds s.h s.blk.toList n))
  have h4 := microSteps_trans (microSteps_trans h1 h2) h3
  rw [show 1 + n + 1 = 66 by omega] at h4
  exact ⟨_, addWords8_rounds s.h s.blk.toList hn, h4⟩

/-! ### The block buffer -/

theorem packWords_getD {l : Bytes} {i : Nat} (h : 4 * i + 3 < l.length) :
    (packWords l).getD i 0 =
      be32 (l.getD (4 * i) 0) (l.getD (4 * i + 1) 0) (l.getD (4 * i + 2) 0) (l.getD (4 * i + 3) 0) := by
  induction i generalizing l with
  | zero =>
    match l, h with
    | a :: b :: c :: d :: rest, _ => simp [packWords]
  | succ i ih =>
    match l, h with
    | a :: b :: c :: d :: rest, h =>
      simp only [List.length_cons] at h
      have := ih (l := rest) (by omega)
      simp only [packWords, List.getD_cons_succ, this,
        show 4 * (i + 1) = 4 * i + 1 + 1 + 1 + 1 by omega]

/-- Byte j of a word after byte k was replaced. -/
theorem wordBytes_setByte (w : Word) (b : Byte) {k j : Nat} (hk : k < 4) (hj : j < 4) :
    (wordBytes (setByte w k b)).getD j 0 = if j = k then b else (wordBytes w).getD j 0 := by
  have key : ∀ i : Nat, i < 8 →
      ((wordBytes (setByte w k b)).getD j 0).getLsbD i =
        (if j = k then b else (wordBytes w).getD j 0).getLsbD i := by
    intro i hi
    interval_cases k <;> interval_cases j <;> interval_cases i <;> simp [wordBytes, setByte]
  exact BitVec.eq_of_getLsbD_eq key

/-- Byte j of the block buffer. -/
def blockByte (blk : Vector Word 16) (j : Nat) : Byte :=
  (wordBytes (blk.getD (j / 4) 0)).getD (j % 4) 0

theorem vector_getD_setIfInBounds (v : Vector Word 16) (x : Word) {i j : Nat} (hj : j < 16) :
    (v.setIfInBounds i x).getD j 0 = if j = i then x else v.getD j 0 := by
  have e : ∀ u : Vector Word 16, u.getD j 0 = u[j] := fun u => by simp [Vector.getD, hj]
  rw [e, e, Vector.getElem_setIfInBounds]
  simp only [eq_comm]

theorem blockByte_setBlockByte (blk : Vector Word 16) (b : Byte) {pos j : Nat} (hj : j < 64) :
    blockByte (setBlockByte blk pos b) j = if j = pos then b else blockByte blk j := by
  unfold blockByte setBlockByte
  rw [vector_getD_setIfInBounds _ _ (by omega)]
  by_cases h : j / 4 = pos / 4
  · rw [if_pos h, wordBytes_setByte _ _ (by omega) (by omega), ← h]
    by_cases hjp : j = pos
    · simp [hjp]
    · rw [if_neg (by omega), if_neg hjp]
  · rw [if_neg h, if_neg (by rintro rfl; exact h rfl)]

/-- A block buffer that holds 64 given bytes holds their words. -/
theorem block_toList {blk : Vector Word 16} {l : Bytes} (hl : l.length = 64)
    (h : ∀ j < 64, blockByte blk j = l.getD j 0) : blk.toList = packWords l := by
  apply List.ext_getElem
  · simp [packWords_length, hl]
  · intro i h1 h2
    have hi : i < 16 := by simpa using h1
    have e := packWords_getD (l := l) (i := i) (by omega)
    rw [List.getD_eq_getElem _ _ h2] at e
    have w : ∀ k < 4, l.getD (4 * i + k) 0 = (wordBytes blk[i]).getD k 0 := by
      intro k hk
      rw [← h _ (by omega), blockByte, show (4 * i + k) / 4 = i by omega,
        show (4 * i + k) % 4 = k by omega]
      simp [Vector.getD, hi]
    have w0 := w 0 (by omega)
    rw [Nat.add_zero] at w0
    rw [e, w0, w 1 (by omega), w 2 (by omega), w 3 (by omega), Vector.getElem_toList]
    exact (be32_wordBytes _).symm

/-! ### Placing bytes -/

/-- The chaining state and the bytes placed so far are `x`. -/
structure Datapath.Holds (dp : Datapath) (x : Words8 × Bytes) : Prop where
  chain : dp.chain = x.1
  pos : dp.pos = x.2.length
  lt : x.2.length < 64
  bytes : ∀ j < x.2.length, blockByte dp.blk j = x.2.getD j 0

/-- The micro-steps of placing n bytes in a block that holds p: one each, and a compression for each
block filled. -/
def putSteps (p n : Nat) : Nat := n + 66 * ((p + n) / 64)

theorem putSteps_add (p n k : Nat) : putSteps p (n + k) = putSteps p n + putSteps ((p + n) % 64) k := by
  unfold putSteps; omega

theorem absorb_length {x : Words8 × Bytes} (b : Byte) (h : x.2.length < 64) :
    (absorb x b).2.length = (x.2.length + 1) % 64 := by
  unfold absorb
  split_ifs with h1
  · simp [h1]
  · rw [Nat.mod_eq_of_lt (by omega)]; simp

/-- The internal state after one byte was placed. -/
def Datapath.place (dp : Datapath) (b : Byte) (segs : List Segment) (n : Nat) (tail : Tail) :
    Datapath :=
  { dp with
    blk := setBlockByte dp.blk dp.pos b, pos := dp.pos + 1, segs := segs, consumed := n, tail := tail }

theorem Datapath.place_sameWrapper (dp : Datapath) (b : Byte) (segs : List Segment) (n : Nat) (tail : Tail) :
    dp.SameWrapper (dp.place b segs n tail) := ⟨rfl, rfl, rfl, rfl, rfl, rfl, rfl, rfl⟩

theorem Datapath.Holds.place_bytes {dp : Datapath} {x : Words8 × Bytes} (h : dp.Holds x) (b : Byte)
    (segs : List Segment) (n : Nat) (tail : Tail) :
    ∀ j < x.2.length + 1, blockByte (dp.place b segs n tail).blk j = (x.2 ++ [b]).getD j 0 := by
  intro j hj
  have hl := h.lt
  show blockByte (setBlockByte dp.blk dp.pos b) j = _
  rw [blockByte_setBlockByte _ _ (by omega), h.pos]
  by_cases e : j = x.2.length
  · subst e; simp
  · rw [if_neg e, List.getD_append _ _ _ _ (by omega), h.bytes j (by omega)]

/-- A byte placed in a block it does not fill. -/
theorem Datapath.Holds.place_part {dp : Datapath} {x : Words8 × Bytes} (h : dp.Holds x) (b : Byte)
    (segs : List Segment) (n : Nat) (tail : Tail) (hlt : x.2.length + 1 < 64) :
    (dp.place b segs n tail).Holds (absorb x b) := by
  rw [absorb, if_neg (by omega)]
  refine ⟨h.chain, ?_, by simpa using hlt, ?_⟩
  · show dp.pos + 1 = _
    rw [h.pos]; simp
  · simpa using h.place_bytes b segs n tail

/-- A byte that fills a block: the words of the block. -/
theorem Datapath.Holds.place_full {dp : Datapath} {x : Words8 × Bytes} (h : dp.Holds x) (b : Byte)
    (segs : List Segment) (n : Nat) (tail : Tail) (he : x.2.length + 1 = 64) :
    compress (dp.place b segs n tail).chain (dp.place b segs n tail).blk.toList = (absorb x b).1 := by
  rw [absorb, if_pos he, block_toList (l := x.2 ++ [b]) (by simpa using he)]
  · rw [← h.chain]; rfl
  · intro j hj; exact h.place_bytes b segs n tail j (by omega)

/-- R172: PutByte of a byte that is not the last one of the padded stream. -/
theorem putByte_run (s : State) {op : BitVec 4} (hop : op ≠ opcode .compress) {dp : Datapath}
    {x : Words8 × Bytes} (h : dp.Holds x) (b : Byte) (segs : List Segment) (n : Nat) {tail : Tail}
    (ht : tail ≠ .done) :
    ∃ dp' : Datapath, dp'.Holds (absorb x b) ∧ dp'.segs = segs ∧ dp'.tail = tail ∧
      dp.SameWrapper dp' ∧
      ((s.goto op .put dp).putByte op b segs n tail).microSteps (putSteps x.2.length 1 - 1) =
        .next (s.goto op .put dp') := by
  have hlt := h.lt
  by_cases he : x.2.length + 1 = 64
  · obtain ⟨dp', hc, hp, hs, htl, hw, -, hrun⟩ := microSteps_block s hop (dp.place b segs n tail)
    rw [h.place_full b segs n tail he] at hc
    have e : (s.goto op .put dp).putByte op b segs n tail = s.goto op .load (dp.place b segs n tail) := by
      simp only [State.putByte, State.goto_dp, h.pos, if_pos he]
      simp only [Datapath.place, h.pos]
      rfl
    have hx : (absorb x b).2 = [] := by rw [absorb, if_pos he]
    refine ⟨dp', ⟨hc, by rw [hp, hx]; rfl, by rw [hx]; decide, by rw [hx]; intro j hj; cases hj⟩,
      hs, htl, (dp.place_sameWrapper b segs n tail).trans hw, ?_⟩
    rw [e, show putSteps x.2.length 1 - 1 = 66 by unfold putSteps; omega, hrun ht]
  · refine ⟨dp.place b segs n tail, h.place_part b segs n tail (by omega), rfl, rfl,
      ⟨rfl, rfl, rfl, rfl, rfl, rfl, rfl, rfl⟩, ?_⟩
    rw [show putSteps x.2.length 1 - 1 = 0 by unfold putSteps; omega]
    simp only [State.microSteps, State.putByte, State.goto_dp, h.pos, if_neg he]
    simp only [Datapath.place, h.pos]
    rfl

/-- R172: PutByte of the last byte of the padded stream. -/
theorem putByte_last (s : State) {op : BitVec 4} (hop : op ≠ opcode .compress) {dp : Datapath}
    {x : Words8 × Bytes} (h : dp.Holds x) (b : Byte) (segs : List Segment) (n : Nat)
    (he : x.2.length + 1 = 64) :
    ∃ dp' : Datapath, dp.SameWrapper dp' ∧
      ((s.goto op .put dp).putByte op b segs n .done).microSteps 66 =
        .next (s.streamDone op (ser (absorb x b).1) dp') := by
  obtain ⟨dp', -, -, -, -, hw, hrun, -⟩ := microSteps_block s hop (dp.place b segs n .done)
  have e : (s.goto op .put dp).putByte op b segs n .done = s.goto op .load (dp.place b segs n .done) := by
    simp only [State.putByte, State.goto_dp, h.pos, if_pos he]
    simp only [Datapath.place, h.pos]
    rfl
  refine ⟨dp', (dp.place_sameWrapper b segs n .done).trans hw, ?_⟩
  rw [e, hrun rfl, h.place_full b segs n .done he]

/-- R172 PAD from a phase just entered. -/
theorem putPad_goto (s : State) (op : BitVec 4) (ph : Phase) (dp : Datapath) (b : Byte) (tail : Tail) :
    (s.goto op ph dp).putPad op b tail =
      (s.goto op ph dp).putByte op b dp.segs dp.consumed tail := rfl

/-- R172 BYTE from a phase just entered: one more byte of the stream is consumed (R54). -/
theorem putData_goto (s : State) (op : BitVec 4) (ph : Phase) (dp : Datapath) (b : Byte)
    (rest : List Segment) :
    (s.goto op ph dp).putData op b rest =
      (s.goto op ph dp).putByte op b rest (dp.consumed + 1) (dataTail rest) := rfl

/-! ### The padding -/

/-- R172: the length field, from its byte j on. -/
theorem run_len (s : State) {op : BitVec 4} (hop : op ≠ opcode .compress) (i : Nat) {dp : Datapath}
    {x : Words8 × Bytes} (h : dp.Holds x) {j : Nat} (hi : j + i = 7) (ht : dp.tail = .len j)
    (hx : x.2.length = 56 + j) :
    ∃ dp' : Datapath, dp.SameWrapper dp' ∧
      (s.goto op .put dp).microSteps (i + 67) =
        .next (s.streamDone op
          (ser (((List.range' j (i + 1)).map (be64Byte dp.bitlen.toNat)).foldl absorb x).1) dp') := by
  induction i generalizing dp x j with
  | zero =>
    obtain ⟨dp', hw, hr⟩ := putByte_last s hop h (be64Byte dp.bitlen.toNat j) dp.segs dp.consumed (by omega)
    refine ⟨dp', hw, ?_⟩
    have h1 : (s.goto op .put dp).microSteps 1 =
        .next ((s.goto op .put dp).putByte op (be64Byte dp.bitlen.toNat j) dp.segs dp.consumed
          .done) := by
      refine microSteps_one ?_
      show (s.goto op .put dp).microPut op = _
      simp only [State.microPut, putPad_goto, State.goto_dp, ht, lenTail, if_pos (show j = 7 by omega)]
    rw [show 0 + 67 = 1 + 66 by rfl, microSteps_add _ h1, hr]
    simp
  | succ i ih =>
    obtain ⟨dp1, hh, hseg, htail, hw, hr⟩ := putByte_run s hop h (be64Byte dp.bitlen.toNat j) dp.segs dp.consumed
      (tail := .len (j + 1)) (by simp)
    obtain ⟨dp2, hw2, hr2⟩ := ih hh (j := j + 1) (by omega) htail
      (by rw [absorb_length _ h.lt, Nat.mod_eq_of_lt (by omega)]; omega)
    refine ⟨dp2, hw.trans hw2, ?_⟩
    have h1 : (s.goto op .put dp).microSteps 1 =
        .next ((s.goto op .put dp).putByte op (be64Byte dp.bitlen.toNat j) dp.segs dp.consumed
          (.len (j + 1))) := by
      refine microSteps_one ?_
      show (s.goto op .put dp).microPut op = _
      simp only [State.microPut, putPad_goto, State.goto_dp, ht, lenTail, if_neg (show ¬ j = 7 by omega)]
    rw [show putSteps x.2.length 1 - 1 = 0 by unfold putSteps; omega] at hr
    rw [show i + 1 + 67 = 1 + (0 + (i + 67)) by omega, microSteps_add _ h1, microSteps_add _ hr, hr2,
      hw.bitlen]
    simp [List.range'_succ]

/-- R172: the fill and the length field, from a block that holds the bytes placed. -/
theorem run_fill (s : State) {op : BitVec 4} (hop : op ≠ opcode .compress) (z : Nat) {dp : Datapath}
    {x : Words8 × Bytes} (h : dp.Holds x) (hz : fillCount x.2.length = z)
    (ht : dp.tail = fillTail x.2.length) :
    ∃ dp' : Datapath, dp.SameWrapper dp' ∧
      (s.goto op .put dp).microSteps (putSteps x.2.length (z + 8)) =
        .next (s.streamDone op
          (ser ((zeros z ++ be64Bytes dp.bitlen.toNat).foldl absorb x).1) dp') := by
  have hlt := h.lt
  induction z generalizing dp x with
  | zero =>
    have h56 : x.2.length = 56 := by unfold fillCount at hz; omega
    obtain ⟨dp', hw, hr⟩ := run_len s hop 7 h (j := 0) (by omega)
      (by rw [ht, fillTail, if_pos (by omega)]) (by omega)
    refine ⟨dp', hw, ?_⟩
    rw [show putSteps x.2.length (0 + 8) = 7 + 67 by unfold putSteps; omega, hr]
    rfl
  | succ z ih =>
    have hne : ¬ x.2.length % 64 = 56 := by unfold fillCount at hz; omega
    obtain ⟨dp1, hh, hseg, htail, hw, hr⟩ := putByte_run s hop h 0x00 dp.segs dp.consumed
      (tail := fillTail (x.2.length + 1)) (by unfold fillTail; split <;> simp)
    have hl := absorb_length (0x00 : Byte) h.lt
    obtain ⟨dp2, hw2, hr2⟩ := ih hh
      (by rw [hl]; unfold fillCount at hz ⊢; omega)
      (by rw [htail, hl, fillTail, fillTail, Nat.mod_mod]) hh.lt
    refine ⟨dp2, hw.trans hw2, ?_⟩
    have h1 : (s.goto op .put dp).microSteps 1 =
        .next ((s.goto op .put dp).putByte op 0x00 dp.segs dp.consumed
          (fillTail (x.2.length + 1))) := by
      refine microSteps_one ?_
      show (s.goto op .put dp).microPut op = _
      have : dp.tail = .zero := by rw [ht, fillTail, if_neg hne]
      simp only [State.microPut, putPad_goto, State.goto_dp, this, h.pos]
    rw [hl] at hr2
    rw [show z + 1 + 8 = 1 + (z + 8) by omega, putSteps_add,
      show putSteps x.2.length 1 = 1 + (putSteps x.2.length 1 - 1) by unfold putSteps; omega,
      Nat.add_assoc, microSteps_add _ h1, microSteps_add _ hr, hr2, hw.bitlen]
    simp [zeros, List.replicate_succ]

/-- R172: the padding, from its terminator on. -/
theorem run_pad (s : State) {op : BitVec 4} (hop : op ≠ opcode .compress) {dp : Datapath}
    {x : Words8 × Bytes} (h : dp.Holds x) (ht : dp.tail = .term) :
    ∃ dp' : Datapath, dp.SameWrapper dp' ∧
      (s.goto op .put dp).microSteps (putSteps x.2.length (1 + (fillCount (x.2.length + 1) + 8))) =
        .next (s.streamDone op
          (ser ((0x80 :: (zeros (fillCount (x.2.length + 1)) ++ be64Bytes dp.bitlen.toNat)).foldl
            absorb x).1) dp') := by
  have hlt := h.lt
  obtain ⟨dp1, hh, hseg, htail, hw, hr⟩ := putByte_run s hop h 0x80 dp.segs dp.consumed
    (tail := fillTail (x.2.length + 1)) (by unfold fillTail; split <;> simp)
  have hl := absorb_length (0x80 : Byte) h.lt
  obtain ⟨dp2, hw2, hr2⟩ := run_fill s hop (fillCount (x.2.length + 1)) hh
    (by rw [hl]; unfold fillCount; omega) (by rw [htail, hl, fillTail, fillTail, Nat.mod_mod])
  refine ⟨dp2, hw.trans hw2, ?_⟩
  have h1 : (s.goto op .put dp).microSteps 1 =
      .next ((s.goto op .put dp).putByte op 0x80 dp.segs dp.consumed
          (fillTail (x.2.length + 1))) := by
    refine microSteps_one ?_
    show (s.goto op .put dp).microPut op = _
    simp only [State.microPut, putPad_goto, State.goto_dp, ht, h.pos]
  rw [hl] at hr2
  rw [putSteps_add,
    show putSteps x.2.length 1 = 1 + (putSteps x.2.length 1 - 1) by unfold putSteps; omega,
    Nat.add_assoc, microSteps_add _ h1, microSteps_add _ hr, hr2, hw.bitlen]
  simp

/-! ### The data bytes of a stream -/

/-- One more byte before those read. -/
def ReadResult.cons (b : Byte) : ReadResult Bytes → ReadResult Bytes
  | .ok bs => .ok (b :: bs)
  | .busError a => .busError a
  | .sideEffect a => .sideEffect a

/-- These bytes before those read. -/
def ReadResult.append (l : Bytes) : ReadResult Bytes → ReadResult Bytes
  | .ok bs => .ok (l ++ bs)
  | .busError a => .busError a
  | .sideEffect a => .sideEffect a

/-- R172: the bytes of a stream, read in order. -/
def State.readSegs (s : State) : List Segment → ReadResult Bytes
  | [] => .ok []
  | .held bs :: rest => (s.readSegs rest).append bs
  | .mem base n :: rest =>
    match s.readBuf base n with
    | .ok bs => (s.readSegs rest).append bs
    | .busError a => .busError a
    | .sideEffect a => .sideEffect a

theorem ReadResult.append_nil (r : ReadResult Bytes) : r.append [] = r := by cases r <;> rfl

theorem ReadResult.append_cons (b : Byte) (l : Bytes) (r : ReadResult Bytes) :
    r.append (b :: l) = (r.append l).cons b := by cases r <;> rfl

theorem streamLen_cons (g : Segment) (rest : List Segment) :
    streamLen (g :: rest) = segmentLen g + streamLen rest := by simp [streamLen]

/-- A stream is at its end exactly when its length is 0. -/
theorem popByte_none {segs : List Segment} (h : streamLen segs = 0) : popByte segs = none := by
  induction segs using popByte.induct with
  | case1 => rfl
  | case2 base rest ih =>
    rw [streamLen_cons] at h
    simp only [popByte]
    exact ih (by omega)
  | case3 base n rest => rw [streamLen_cons] at h; simp [segmentLen] at h
  | case4 rest ih =>
    rw [streamLen_cons] at h
    simp only [popByte]
    exact ih (by omega)
  | case5 b bs rest => rw [streamLen_cons] at h; simp [segmentLen] at h

theorem readSegs_end (s : State) {segs : List Segment} (h : streamLen segs = 0) :
    s.readSegs segs = .ok [] := by
  induction segs with
  | nil => rfl
  | cons g rest ih =>
    rw [streamLen_cons] at h
    have hr := ih (by omega)
    cases g with
    | mem base n =>
      have : n = 0 := by simp only [segmentLen] at h; omega
      subst this
      simp [State.readSegs, State.readBuf, hr, ReadResult.append]
    | held bs =>
      have : bs = [] := List.length_eq_zero_iff.mp (by simp only [segmentLen] at h; omega)
      subst this
      simp [State.readSegs, hr, ReadResult.append]

/-- The next byte of a stream that is not at its end, and what reading the stream answers by it. -/
theorem popByte_some (s : State) {segs : List Segment} (h : 0 < streamLen segs) :
    ∃ src rest, popByte segs = some (src, rest) ∧ streamLen segs = streamLen rest + 1 ∧
      s.readSegs segs =
        match src with
        | .held b => (s.readSegs rest).cons b
        | .read a =>
          match s.memRead a with
          | .ok b => (s.readSegs rest).cons b
          | .busError e => .busError e
          | .sideEffect e => .sideEffect e := by
  induction segs using popByte.induct with
  | case1 => simp [streamLen] at h
  | case2 base rest ih =>
    rw [streamLen_cons] at h ⊢
    obtain ⟨src, r, h1, h2, h3⟩ := ih (by simpa [segmentLen] using h)
    refine ⟨src, r, by simpa only [popByte] using h1, by simpa [segmentLen] using h2, ?_⟩
    rw [← h3]
    simp [State.readSegs, State.readBuf, ReadResult.append_nil]
  | case3 base n rest =>
    refine ⟨.read base, .mem (base + 1) n :: rest, rfl, ?_, ?_⟩
    · simp only [streamLen_cons, segmentLen]; omega
    · simp only [State.readSegs, State.readBuf]
      cases s.memRead base with
      | ok b =>
        simp only
        cases s.readBuf (base + 1) n <;> simp [ReadResult.append_cons, ReadResult.cons]
      | busError e => rfl
      | sideEffect e => rfl
  | case4 rest ih =>
    rw [streamLen_cons] at h ⊢
    obtain ⟨src, r, h1, h2, h3⟩ := ih (by simpa [segmentLen] using h)
    refine ⟨src, r, by simpa only [popByte] using h1, by simpa [segmentLen] using h2, ?_⟩
    rw [← h3]
    simp [State.readSegs, ReadResult.append_nil]
  | case5 b bs rest =>
    refine ⟨.held b, .held bs :: rest, rfl, ?_, ?_⟩
    · simp only [streamLen_cons, segmentLen, List.length_cons]; omega
    · simp only [State.readSegs, ReadResult.append_cons]

theorem memRead_goto (s : State) (op : BitVec 4) (ph : Phase) (dp : Datapath) (a : Nat) :
    (s.goto op ph dp).memRead a = s.memRead a := rfl

theorem withRead_goto {α : Type} (s : State) (op : BitVec 4) (ph : Phase) (dp : Datapath)
    (r : ReadResult α) (k : α → Host.Outcome State Fault Refusal) :
    (s.goto op ph dp).withRead r k = s.withRead r k := by cases r <;> rfl

theorem foldl_absorb_lt {x : Words8 × Bytes} (l : Bytes) (h : x.2.length < 64) :
    (l.foldl absorb x).2.length = (x.2.length + l.length) % 64 := by
  induction l generalizing x with
  | nil => simp [Nat.mod_eq_of_lt h]
  | cons b l ih =>
    rw [List.foldl_cons, ih (by rw [absorb_length _ h]; omega), absorb_length _ h]
    simp only [List.length_cons]; omega

/-- R172: the data bytes of a stream, when all of them can be read. -/
theorem run_data (s : State) {op : BitVec 4} (hop : op ≠ opcode .compress) {d : Bytes}
    {dp : Datapath} {x : Words8 × Bytes} (h : dp.Holds x) (hr : s.readSegs dp.segs = .ok d)
    (ht : dp.tail = dataTail dp.segs) :
    streamLen dp.segs = d.length ∧
    ∃ dp' : Datapath, dp'.Holds (d.foldl absorb x) ∧ dp'.tail = .term ∧ dp.SameWrapper dp' ∧
      (s.goto op .put dp).microSteps (putSteps x.2.length d.length) = .next (s.goto op .put dp') := by
  have hlt := h.lt
  generalize hn : streamLen dp.segs = n
  induction n generalizing dp x d with
  | zero =>
    rw [readSegs_end s hn] at hr
    cases hr
    refine ⟨rfl, dp, h, by rw [ht, dataTail, if_pos hn], Datapath.SameWrapper.refl dp, ?_⟩
    rw [show putSteps x.2.length ([] : Bytes).length = 0 by
      simp only [putSteps, List.length_nil]; omega]
    rfl
  | succ n ih =>
    have htail : dp.tail = .data := by rw [ht, dataTail, if_neg (by omega)]
    obtain ⟨src, rest, h1, h2, h3⟩ := popByte_some s (segs := dp.segs) (by omega)
    have key : ∃ b bs, d = b :: bs ∧ s.readSegs rest = .ok bs ∧
        (s.goto op .put dp).microStep =
          .next ((s.goto op .put dp).putByte op b rest (dp.consumed + 1) (dataTail rest)) := by
      rw [h3] at hr
      have hm : (s.goto op .put dp).microStep = (s.goto op .put dp).microPut op := rfl
      rw [hm]
      simp only [State.microPut, putData_goto, State.goto_dp, htail, h1]
      cases src with
      | held b =>
        simp only at hr ⊢
        cases hb : s.readSegs rest with
        | ok bs => rw [hb] at hr; cases hr; exact ⟨b, bs, rfl, rfl, rfl⟩
        | busError e => rw [hb] at hr; cases hr
        | sideEffect e => rw [hb] at hr; cases hr
      | read a =>
        simp only [memRead_goto] at hr ⊢
        cases ha : s.memRead a with
        | ok b =>
          rw [ha] at hr
          cases hb : s.readSegs rest with
          | ok bs => simp only [hb] at hr; cases hr; exact ⟨b, bs, rfl, rfl, rfl⟩
          | busError e => simp only [hb] at hr; cases hr
          | sideEffect e => simp only [hb] at hr; cases hr
        | busError e => rw [ha] at hr; cases hr
        | sideEffect e => rw [ha] at hr; cases hr
    obtain ⟨b, bs, rfl, hbs, hstep⟩ := key
    obtain ⟨dp1, hh, hseg, htl, hw, hrun⟩ := putByte_run s hop h b rest (dp.consumed + 1)
      (tail := dataTail rest) (by unfold dataTail; split <;> simp)
    obtain ⟨hlen, dp2, hh2, htl2, hw2, hrun2⟩ := ih (d := bs) hh (by rw [hseg]; exact hbs)
      (by rw [htl, hseg]) hh.lt (by rw [hseg]; omega)
    refine ⟨by simp [← hlen], dp2, hh2, htl2, hw.trans hw2, ?_⟩
    rw [absorb_length _ hlt] at hrun2
    rw [List.length_cons, Nat.add_comm bs.length, putSteps_add,
      show putSteps x.2.length 1 = 1 + (putSteps x.2.length 1 - 1) by unfold putSteps; omega,
      Nat.add_assoc, microSteps_add _ (microSteps_one hstep), microSteps_add _ hrun, hrun2]

/-- R172, R306: a stream one of whose bytes cannot be read ends the command. -/
theorem run_data_stops (s : State) {op : BitVec 4} (hop : op ≠ opcode .compress)
    {dp : Datapath} {x : Words8 × Bytes} (h : dp.Holds x) (hr : (s.readSegs dp.segs).stops)
    (ht : dp.tail = dataTail dp.segs) (k : Bytes → Host.Outcome State Fault Refusal) :
    (s.goto op .put dp).EndsBy (putSteps x.2.length (streamLen dp.segs))
      (s.withRead (s.readSegs dp.segs) k) := by
  have hlt := h.lt
  generalize hn : streamLen dp.segs = n
  induction n generalizing dp x with
  | zero => rw [readSegs_end s hn] at hr; exact hr.elim
  | succ n ih =>
    have htail : dp.tail = .data := by rw [ht, dataTail, if_neg (by omega)]
    obtain ⟨src, rest, h1, h2, h3⟩ := popByte_some s (segs := dp.segs) (by omega)
    have hm : (s.goto op .put dp).microStep = (s.goto op .put dp).microPut op := rfl
    simp only [State.microPut, putData_goto, State.goto_dp, htail, h1] at hm
    have next : ∀ b : Byte, s.readSegs dp.segs = (s.readSegs rest).cons b →
        (s.goto op .put dp).microStep =
          .next ((s.goto op .put dp).putByte op b rest (dp.consumed + 1) (dataTail rest)) →
        (s.goto op .put dp).EndsBy (putSteps x.2.length (n + 1))
          (s.withRead (s.readSegs dp.segs) k) := by
      intro b hb hstep
      obtain ⟨dp1, hh, hseg, htl, hw, hrun⟩ := putByte_run s hop h b rest (dp.consumed + 1)
        (tail := dataTail rest) (by unfold dataTail; split <;> simp)
      have hst : (s.readSegs rest).stops := by
        rw [hb] at hr; cases hx : s.readSegs rest <;> rw [hx] at hr <;> exact hr
      have e := ih hh (by rw [hseg]; exact hst) (by rw [htl, hseg]) hh.lt (by rw [hseg]; omega)
      rw [hseg, absorb_length _ hlt] at e
      have e2 : s.withRead (s.readSegs dp.segs) k = s.withRead (s.readSegs rest) k := by
        rw [hb]
        cases hx : s.readSegs rest with
        | ok bs => rw [hx] at hst; exact hst.elim
        | busError a => rfl
        | sideEffect a => rfl
      rw [e2, Nat.add_comm n, putSteps_add,
        show putSteps x.2.length 1 = 1 + (putSteps x.2.length 1 - 1) by unfold putSteps; omega,
        Nat.add_assoc]
      exact State.EndsBy.after (microSteps_one hstep) (State.EndsBy.after hrun e)
    cases src with
    | held b => exact next b h3 hm
    | read a =>
      simp only [memRead_goto] at hm h3
      cases ha : s.memRead a with
      | ok b =>
        rw [ha] at h3 hm
        exact next b h3 hm
      | busError e =>
        rw [ha] at h3 hm
        rw [h3]
        refine (endsBy_of_withRead (s := s) (r := (.busError e : ReadResult Bytes)) trivial hm).mono ?_
        unfold putSteps; omega
      | sideEffect e =>
        rw [ha] at h3 hm
        rw [h3]
        refine (endsBy_of_withRead (s := s) (r := (.sideEffect e : ReadResult Bytes)) trivial hm).mono ?_
        unfold putSteps; omega

/-! ### A whole stream -/

/-- What a stream leaves of the wrapper's state it started in. -/
structure Datapath.SameStore (dp dp' : Datapath) : Prop where
  k0 : dp'.k0 = dp.k0
  hmacPhase : dp'.hmacPhase = dp.hmacPhase
  node : dp'.node = dp.node
  m : dp'.m = dp.m
  p : dp'.p = dp.p
  stage : dp'.stage = dp.stage

theorem startStream_holds (dp : Datapath) (segs : List Segment) :
    (dp.startStream segs).Holds (iv, []) := ⟨rfl, rfl, by simp, by simp⟩

/-- R172: `HashStream` of a stream whose bytes can be read returns its SHA-256, after the micro-steps
R183 counts. -/
theorem run_stream (s : State) {op : BitVec 4} (hop : op ≠ opcode .compress) (dp : Datapath)
    {segs : List Segment} {d : Bytes} (hr : s.readSegs segs = .ok d) (hd : d.length < 2 ^ 61) :
    ∃ dp' : Datapath, dp.SameStore dp' ∧
      (s.goto op .put (dp.startStream segs)).microSteps (hashSteps d.length) =
        .next (s.streamDone op (sha256 d) dp') := by
  obtain ⟨hlen, dp1, hh, htl, hw, hrun⟩ := run_data s hop (startStream_holds dp segs) hr rfl
  rw [show ((iv, []) : Words8 × Bytes).2.length = 0 from rfl] at hrun
  obtain ⟨dp2, hw2, hrun2⟩ := run_pad s hop hh htl
  refine ⟨dp2, ⟨hw2.k0.trans hw.k0, hw2.hmacPhase.trans hw.hmacPhase, hw2.node.trans hw.node,
    hw2.m.trans hw.m, hw2.p.trans hw.p, hw2.stage.trans hw.stage⟩, ?_⟩
  have hbl : dp1.bitlen.toNat = 8 * d.length := by
    rw [hw.bitlen]
    show (BitVec.ofNat 64 (8 * streamLen (dp.startStream segs).segs)).toNat = _
    rw [hlen, BitVec.toNat_ofNat]
    omega
  have hl : (d.foldl absorb (iv, [])).2.length = d.length % 64 := by
    rw [foldl_absorb_lt _ (by simp)]; simp
  rw [hl] at hrun2
  have hcount : hashSteps d.length =
      putSteps 0 d.length + putSteps (d.length % 64) (1 + (fillCount (d.length % 64 + 1) + 8)) := by
    unfold hashSteps putSteps blockCount fillCount; omega
  have hsum : (0x80 :: (zeros (fillCount (d.length % 64 + 1)) ++ be64Bytes dp1.bitlen.toNat)).foldl absorb
      (d.foldl absorb (iv, [])) = (chain d, []) := by
    rw [← List.foldl_append, ← foldl_absorb_pad, pad_split, hbl,
      show fillCount (d.length % 64 + 1) = fillCount (d.length + 1) by unfold fillCount; omega]
  rw [hcount, microSteps_add _ hrun, hrun2, hsum]
  rfl

/-- R172, R306: a stream one of whose bytes cannot be read ends the command. -/
theorem run_stream_stops (s : State) {op : BitVec 4} (hop : op ≠ opcode .compress) (dp : Datapath)
    {segs : List Segment} (hr : (s.readSegs segs).stops)
    (k : Bytes → Host.Outcome State Fault Refusal) :
    (s.goto op .put (dp.startStream segs)).EndsBy (hashSteps (streamLen segs))
      (s.withRead (s.readSegs segs) k) := by
  refine (run_data_stops s hop (startStream_holds dp segs) hr rfl k).mono ?_
  show putSteps 0 (streamLen segs) ≤ _
  unfold putSteps hashSteps blockCount; omega

end Sys2Proof.Machine
end

