-- ==== Sys2Proof/Laws/WrapperRuns.lean ====
section
/-!
SUPPORT. The micro-steps of HASH, HMAC and MERKLE from acceptance to COMPLETE (spec 42_hash_commands.md
R199, 43_hmac.md R225, 44_merkle.md R243 to R245), or to the read that ends the command.
-/

namespace Sys2Proof.Machine

theorem ReadResult.append_ok {l m : Bytes} {r : ReadResult Bytes} (h : r = .ok m) :
    r.append l = .ok (l ++ m) := by subst h; rfl

theorem ReadResult.append_stops {l : Bytes} {r : ReadResult Bytes} (h : r.stops) :
    (r.append l).stops := by cases r <;> exact h

/-- Either a read gives a value or it stops. -/
theorem ReadResult.ok_or_stops {α : Type} (r : ReadResult α) : (∃ x, r = .ok x) ∨ r.stops := by
  cases r with
  | ok x => exact .inl ⟨x, rfl⟩
  | busError a => exact .inr trivial
  | sideEffect a => exact .inr trivial

theorem withRead_append {s : State} {l : Bytes} {r : ReadResult Bytes} (h : r.stops)
    (k k' : Bytes → Host.Outcome State Fault Refusal) :
    s.withRead (r.append l) k = s.withRead r k' := by
  cases r with
  | ok x => exact h.elim
  | busError a => rfl
  | sideEffect a => rfl

theorem readSegs_mem (s : State) (base n : Nat) : s.readSegs [.mem base n] = s.readBuf base n := by
  simp only [State.readSegs]
  cases s.readBuf base n with
  | ok bs => simp [ReadResult.append]
  | busError a => rfl
  | sideEffect a => rfl

theorem streamLen_mem (base n : Nat) : streamLen [.mem base n] = n := by
  simp [streamLen, segmentLen]

theorem opcode_ne_compress {i : Instr} (h : i ≠ .compress) : opcode i ≠ opcode .compress := by
  cases i <;> first | exact absurd rfl h | decide

/-! ### HASH -/

/-- HASH of a readable message, up to COMPLETE. -/
theorem run_hash (s : State) (dp : Datapath) {base n : Nat} {d : Bytes}
    (hr : s.readBuf base n = .ok d) (hn : n < 2 ^ 61) :
    ∃ dp' : Datapath, dp'.result = deser (sha256 d) ∧
      (s.goto (opcode .hash) .put (dp.startStream [.mem base n])).microSteps (hashSteps n) =
        .next (s.goto (opcode .hash) .complete dp') := by
  have hl := State.readBuf_length hr
  obtain ⟨dp1, -, h⟩ := run_stream s (opcode_ne_compress (i := .hash) (by decide)) dp
    (segs := [.mem base n]) (by rw [readSegs_mem, hr]) (by omega)
  rw [hl] at h
  exact ⟨{ dp1 with result := deser (sha256 d) }, rfl, h⟩

/-- HASH of a message that cannot be read. -/
theorem run_hash_stops (s : State) (dp : Datapath) {base n : Nat} (hr : (s.readBuf base n).stops)
    (k : Bytes → Host.Outcome State Fault Refusal) :
    (s.goto (opcode .hash) .put (dp.startStream [.mem base n])).EndsBy (hashSteps n)
      (s.withRead (s.readBuf base n) k) := by
  have h := run_stream_stops s (opcode_ne_compress (i := .hash) (by decide)) dp
    (segs := [.mem base n]) (by rwa [readSegs_mem]) k
  rwa [streamLen_mem, readSegs_mem] at h

/-! ### HMAC -/

/-- R225: one BYTE of the key's copy form, when the byte can be read. -/
theorem microStep_keyByte (s : State) {dp : Datapath} {b : Byte}
    (hb : s.memRead (s.keyAddr.toNat + dp.k0.length) = .ok b) :
    (s.goto (opcode .hmac) .keyByte dp).microStep =
      .next (s.goto (opcode .hmac)
        (if dp.k0.length + 1 = s.keyLen.toNat then .keyPad else .keyByte)
        { dp with k0 := dp.k0 ++ [b] }) := by
  show (s.goto (opcode .hmac) .keyByte dp).microKeyByte (opcode .hmac) = _
  simp only [State.microKeyByte, State.goto_dp, memRead_goto, State.goto_keyAddr, hb]
  rfl

theorem result_update (dp : Datapath) (r : Words8) : ({ dp with result := r } : Datapath).result = r := rfl

/-- R225: the copy form of the key phase, from byte `dp.k0.length` on. -/
theorem run_keyBytes (s : State) (r : Nat) {dp : Datapath} {l : Bytes}
    (hk : dp.k0.length + (r + 1) = s.keyLen.toNat)
    (hr : s.readBuf (s.keyAddr.toNat + dp.k0.length) (r + 1) = .ok l) :
    (s.goto (opcode .hmac) .keyByte dp).microSteps (r + 1) =
      .next (s.goto (opcode .hmac) .keyPad { dp with k0 := dp.k0 ++ l }) := by
  induction r generalizing dp l with
  | zero =>
    refine microSteps_one ?_
    simp only [State.readBuf] at hr
    cases hb : s.memRead (s.keyAddr.toNat + dp.k0.length) with
    | ok b =>
      simp only [hb] at hr
      cases hr
      rw [microStep_keyByte s hb, if_pos (by omega)]
    | busError a => simp only [hb] at hr; cases hr
    | sideEffect a => simp only [hb] at hr; cases hr
  | succ r ih =>
    rw [State.readBuf] at hr
    cases hb : s.memRead (s.keyAddr.toNat + dp.k0.length) with
    | ok b =>
      simp only [hb] at hr
      cases hrest : s.readBuf (s.keyAddr.toNat + dp.k0.length + 1) (r + 1) with
      | ok bs =>
        simp only [hrest] at hr
        cases hr
        have e := ih (dp := { dp with k0 := dp.k0 ++ [b] }) (l := bs) (by simp; omega)
          (by simpa [Nat.add_assoc] using hrest)
        have h1 : (s.goto (opcode .hmac) .keyByte dp).microSteps 1 =
            .next (s.goto (opcode .hmac) .keyByte { dp with k0 := dp.k0 ++ [b] }) := by
          refine microSteps_one ?_
          rw [microStep_keyByte s hb, if_neg (by omega)]
        rw [show r + 1 + 1 = 1 + (r + 1) by omega, microSteps_add _ h1, e]
        simp
      | busError a => simp only [hrest] at hr; cases hr
      | sideEffect a => simp only [hrest] at hr; cases hr
    | busError a => simp only [hb] at hr; cases hr
    | sideEffect a => simp only [hb] at hr; cases hr

theorem run_keyBytes_stops (s : State) (r : Nat) {dp : Datapath}
    (hk : dp.k0.length + (r + 1) = s.keyLen.toNat)
    (hr : (s.readBuf (s.keyAddr.toNat + dp.k0.length) (r + 1)).stops)
    (k : Bytes → Host.Outcome State Fault Refusal) :
    (s.goto (opcode .hmac) .keyByte dp).EndsBy (r + 1)
      (s.withRead (s.readBuf (s.keyAddr.toNat + dp.k0.length) (r + 1)) k) := by
  induction r generalizing dp with
  | zero =>
    have hm : (s.goto (opcode .hmac) .keyByte dp).microStep =
        (s.goto (opcode .hmac) .keyByte dp).microKeyByte (opcode .hmac) := rfl
    simp only [State.microKeyByte, State.goto_dp, memRead_goto, State.goto_keyAddr] at hm
    simp only [State.readBuf] at hr ⊢
    cases hb : s.memRead (s.keyAddr.toNat + dp.k0.length) with
    | ok b => simp only [hb] at hr; exact hr.elim
    | busError a =>
      rw [hb] at hm
      exact endsBy_of_withRead (s := s) (r := (.busError a : ReadResult Bytes)) trivial hm
    | sideEffect a =>
      rw [hb] at hm
      exact endsBy_of_withRead (s := s) (r := (.sideEffect a : ReadResult Bytes)) trivial hm
  | succ r ih =>
    have hm : (s.goto (opcode .hmac) .keyByte dp).microStep =
        (s.goto (opcode .hmac) .keyByte dp).microKeyByte (opcode .hmac) := rfl
    simp only [State.microKeyByte, State.goto_dp, memRead_goto, State.goto_keyAddr] at hm
    rw [State.readBuf] at hr ⊢
    cases hb : s.memRead (s.keyAddr.toNat + dp.k0.length) with
    | ok b =>
      simp only [hb] at hr ⊢
      have hst : (s.readBuf (s.keyAddr.toNat + dp.k0.length + 1) (r + 1)).stops := by
        cases hx : s.readBuf (s.keyAddr.toNat + dp.k0.length + 1) (r + 1) <;> rw [hx] at hr <;> exact hr
      have e := ih (dp := { dp with k0 := dp.k0 ++ [b] }) (by simp; omega)
        (by simpa [Nat.add_assoc] using hst)
      have h1 : (s.goto (opcode .hmac) .keyByte dp).microSteps 1 =
          .next (s.goto (opcode .hmac) .keyByte { dp with k0 := dp.k0 ++ [b] }) := by
        refine microSteps_one ?_
        rw [microStep_keyByte s hb, if_neg (by omega)]
      rw [show r + 1 + 1 = 1 + (r + 1) by omega]
      refine State.EndsBy.after h1 ?_
      have ha : s.keyAddr.toNat + dp.k0.length + 1 =
          s.keyAddr.toNat + ({ dp with k0 := dp.k0 ++ [b] } : Datapath).k0.length := by simp; omega
      rw [← ha] at e
      cases hx : s.readBuf (s.keyAddr.toNat + dp.k0.length + 1) (r + 1) with
      | ok bs => rw [hx] at hst; exact hst.elim
      | busError a => rw [hx] at e; exact e
      | sideEffect a => rw [hx] at e; exact e
    | busError a =>
      rw [hb] at hm
      exact (endsBy_of_withRead (s := s) (r := (.busError a : ReadResult Bytes)) trivial hm).mono
        (by omega)
    | sideEffect a =>
      rw [hb] at hm
      exact (endsBy_of_withRead (s := s) (r := (.sideEffect a : ReadResult Bytes)) trivial hm).mono
        (by omega)

/-- R222, R226: the micro-steps of the key phase before KEYPAD. -/
def State.keySteps (s : State) : Nat :=
  if s.keyLen.toNat > 64 then hashSteps s.keyLen.toNat else s.keyLen.toNat

/-- R222, R225: the key phase, up to MASK: the engine holds the normalised key. -/
theorem run_key (s : State) {key : Bytes}
    (hr : s.readBuf s.keyAddr.toNat s.keyLen.toNat = .ok key) :
    ∃ dp' : Datapath, dp'.k0 = normKey key ∧
      (s.startHmac (opcode .hmac)).microSteps (s.keySteps + 1) =
        .next (s.goto (opcode .hmac) .mask dp') := by
  have hl := State.readBuf_length hr
  have hpad : ∀ dp : Datapath, (s.goto (opcode .hmac) .keyPad dp).microSteps 1 =
      .next (s.goto (opcode .hmac) .mask { dp with k0 := dp.k0 ++ zeros (64 - dp.k0.length) }) :=
    fun dp => microSteps_one rfl
  unfold State.startHmac State.keySteps
  split_ifs with h1 h2
  · obtain ⟨dp1, hs, hrun⟩ := run_stream s (opcode_ne_compress (i := .hmac) (by decide))
      { s.dp with hmacPhase := .keyHash } (segs := [.mem s.keyAddr.toNat s.keyLen.toNat])
      (by rw [readSegs_mem, hr]) (by have := s.keyLen.isLt; omega)
    have hph : dp1.hmacPhase = .keyHash := hs.hmacPhase
    have hd : s.streamDone (opcode .hmac) (sha256 key) dp1 =
        s.goto (opcode .hmac) .keyPad { dp1 with k0 := sha256 key } := by
      show s.hmacStreamDone (opcode .hmac) (sha256 key) dp1 = _
      simp only [State.hmacStreamDone, hph]
    rw [hl, hd] at hrun
    refine ⟨_, ?_, by rw [microSteps_add _ hrun, hpad]⟩
    simp only [normKey]
    rw [if_pos (by omega)]
  · have : key = [] := List.length_eq_zero_iff.mp (by omega)
    subst this
    refine ⟨{ s.dp with k0 := [] ++ zeros 64 }, ?_, ?_⟩
    · simp [normKey]
    · rw [h2, Nat.zero_add, hpad]; rfl
  · obtain ⟨r, hk⟩ : ∃ r, s.keyLen.toNat = r + 1 := ⟨s.keyLen.toNat - 1, by omega⟩
    have hrun := run_keyBytes s r (dp := { s.dp with k0 := [] }) (l := key) (by simp; omega)
      (by simpa [hk] using hr)
    rw [hk, microSteps_add _ hrun, hpad]
    refine ⟨_, ?_, rfl⟩
    simp only [normKey, List.nil_append]
    rw [if_neg (by omega)]

theorem run_key_stops (s : State) (hr : (s.readBuf s.keyAddr.toNat s.keyLen.toNat).stops)
    (k : Bytes → Host.Outcome State Fault Refusal) :
    (s.startHmac (opcode .hmac)).EndsBy s.keySteps
      (s.withRead (s.readBuf s.keyAddr.toNat s.keyLen.toNat) k) := by
  unfold State.startHmac State.keySteps
  split_ifs with h1 h2
  · have h := run_stream_stops s (opcode_ne_compress (i := .hmac) (by decide))
      { s.dp with hmacPhase := .keyHash } (segs := [.mem s.keyAddr.toNat s.keyLen.toNat])
      (by rwa [readSegs_mem]) k
    rwa [streamLen_mem, readSegs_mem] at h
  · rw [h2] at hr; exact hr.elim
  · obtain ⟨r, hk⟩ : ∃ r, s.keyLen.toNat = r + 1 := ⟨s.keyLen.toNat - 1, by omega⟩
    have h := run_keyBytes_stops s r (dp := { s.dp with k0 := [] }) (by simp; omega)
      (by simpa [hk] using hr) k
    simpa [hk] using h

theorem readSegs_held_mem (s : State) (l : Bytes) (base n : Nat) :
    s.readSegs [.held l, .mem base n] = (s.readBuf base n).append l := by
  show (s.readSegs [.mem base n]).append l = _
  rw [readSegs_mem]

theorem readSegs_held_held (s : State) (l r : Bytes) :
    s.readSegs [.held l, .held r] = .ok (l ++ r) := by
  simp [State.readSegs, ReadResult.append]

theorem microStep_mask (s : State) (dp : Datapath) :
    (s.goto (opcode .hmac) .mask dp).microStep =
      .next (s.goto (opcode .hmac) .put
        ({ dp with hmacPhase := .inner }.startStream
          [.held (innerKey dp.k0), .mem s.msgAddr.toNat s.msgLen])) := rfl

/-- R225: the inner invocation, from MASK up to the first byte of the outer one. -/
theorem run_hmac_inner (s : State) {dp : Datapath} {msg : Bytes} (hk : dp.k0.length = 64)
    (hr : s.readBuf s.msgAddr.toNat s.msgLen = .ok msg) (hn : 64 + s.msgLen < 2 ^ 61) :
    ∃ dp' : Datapath, dp'.hmacPhase = .outer ∧
      (s.goto (opcode .hmac) .mask dp).microSteps (1 + hashSteps (64 + s.msgLen)) =
        .next (s.goto (opcode .hmac) .put
          (dp'.startStream [.held (outerKey dp.k0), .held (sha256 (innerKey dp.k0 ++ msg))])) := by
  have hl := State.readBuf_length hr
  have hlen : (innerKey dp.k0 ++ msg).length = 64 + s.msgLen := by
    rw [List.length_append, innerKey_length hk, hl]
  obtain ⟨dp1, hs1, hrun1⟩ := run_stream s (opcode_ne_compress (i := .hmac) (by decide))
    { dp with hmacPhase := .inner }
    (segs := [.held (innerKey dp.k0), .mem s.msgAddr.toNat s.msgLen]) (d := innerKey dp.k0 ++ msg)
    (by rw [readSegs_held_mem, ReadResult.append_ok hr]) (by omega)
  generalize sha256 (innerKey dp.k0 ++ msg) = d at hrun1 ⊢
  have hph1 : dp1.hmacPhase = .inner := hs1.hmacPhase
  have hk1 : dp1.k0 = dp.k0 := hs1.k0
  have hd1 : s.streamDone (opcode .hmac) d dp1 =
      s.goto (opcode .hmac) .put
        ({ dp1 with ihash := d, hmacPhase := .outer }.startStream [.held (outerKey dp.k0), .held d]) := by
    show s.hmacStreamDone (opcode .hmac) _ dp1 = _
    simp only [State.hmacStreamDone, hph1, hk1]
  rw [hlen, hd1] at hrun1
  exact ⟨{ dp1 with ihash := d, hmacPhase := .outer }, rfl,
    microSteps_trans (microSteps_one (microStep_mask s dp)) hrun1⟩

/-- R225: the outer invocation, up to COMPLETE. -/
theorem run_hmac_outer (s : State) {dp : Datapath} {o d : Bytes} (ho : o.length = 64)
    (hd : d.length = 32) (hp : dp.hmacPhase = .outer) :
    ∃ dp' : Datapath, dp'.result = deser (sha256 (o ++ d)) ∧
      (s.goto (opcode .hmac) .put (dp.startStream [.held o, .held d])).microSteps (hashSteps 96) =
        .next (s.goto (opcode .hmac) .complete dp') := by
  have hlen : (o ++ d).length = 96 := by rw [List.length_append, ho, hd]
  obtain ⟨dp2, hs2, hrun2⟩ := run_stream s (opcode_ne_compress (i := .hmac) (by decide)) dp
    (segs := [.held o, .held d]) (readSegs_held_held _ _ _) (by omega)
  generalize sha256 (o ++ d) = e at hrun2 ⊢
  have hph2 : dp2.hmacPhase = .outer := hs2.hmacPhase.trans hp
  have hd2 : s.streamDone (opcode .hmac) e dp2 =
      s.goto (opcode .hmac) .complete { dp2 with result := deser e } := by
    show s.hmacStreamDone (opcode .hmac) _ dp2 = _
    simp only [State.hmacStreamDone, hph2]
  rw [hlen, hd2] at hrun2
  exact ⟨_, result_update _ _, hrun2⟩

/-- R225: the inner and the outer invocation, from MASK up to COMPLETE. -/
theorem run_hmac (s : State) {dp : Datapath} {msg : Bytes} (hk : dp.k0.length = 64)
    (hr : s.readBuf s.msgAddr.toNat s.msgLen = .ok msg) (hn : 64 + s.msgLen < 2 ^ 61) :
    ∃ dp' : Datapath,
      dp'.result = deser (sha256 (outerKey dp.k0 ++ sha256 (innerKey dp.k0 ++ msg))) ∧
      (s.goto (opcode .hmac) .mask dp).microSteps (1 + hashSteps (64 + s.msgLen) + hashSteps 96) =
        .next (s.goto (opcode .hmac) .complete dp') := by
  obtain ⟨dp1, hp1, h1⟩ := run_hmac_inner s hk hr hn
  obtain ⟨dp2, hr2, h2⟩ := run_hmac_outer s (outerKey_length hk)
    (sha256_length (innerKey dp.k0 ++ msg)) hp1
  exact ⟨dp2, hr2, microSteps_trans h1 h2⟩

theorem run_hmac_stops (s : State) {dp : Datapath} (hk : dp.k0.length = 64)
    (hr : (s.readBuf s.msgAddr.toNat s.msgLen).stops) (k : Bytes → Host.Outcome State Fault Refusal) :
    (s.goto (opcode .hmac) .mask dp).EndsBy (1 + hashSteps (64 + s.msgLen))
      (s.withRead (s.readBuf s.msgAddr.toNat s.msgLen) k) := by
  have hik := innerKey_length hk
  have h1 := microSteps_one (microStep_mask s dp)
  generalize innerKey dp.k0 = l at hik h1
  have hl : streamLen [.held l, .mem s.msgAddr.toNat s.msgLen] = 64 + s.msgLen := by
    rw [streamLen_cons, streamLen_mem, segmentLen, hik]
  have h := run_stream_stops s (opcode_ne_compress (i := .hmac) (by decide))
    { dp with hmacPhase := .inner } (segs := [.held l, .mem s.msgAddr.toNat s.msgLen])
    (by rw [readSegs_held_mem]; exact ReadResult.append_stops hr) k
  rw [readSegs_held_mem, withRead_append hr k k, hl] at h
  exact State.EndsBy.after h1 h

/-! ### MERKLE: the leaves -/

/-- The internal state when leaf 32-byte digests `l` are stored and the next leaf is hashed. -/
theorem run_leaves (s : State) (c : Nat) {dp : Datapath} {items : List Bytes} {i : Nat}
    (hc : i + (c + 1) = paddedCount s.itemCount.toNat) (hst : dp.stage = .leaf) (hi : dp.node.length = i)
    (hr : s.readItems ((List.range' i (c + 1)).map s.leafAddr) = .ok items) :
    ∃ dp' : Datapath, dp'.node = dp.node ++ items.map sha256 ∧ dp'.stage = .reduce ∧
      dp'.m = paddedCount s.itemCount.toNat ∧
      (s.startLeaf (opcode .merkle) i dp).microSteps (hashSteps 32 * (c + 1)) =
        .next (s.reduceHead (opcode .merkle) dp') := by
  induction c generalizing dp items i with
  | zero =>
    simp only [Nat.zero_add, List.range'_one, List.map_cons, List.map_nil, State.readItems] at hr
    cases hb : s.readBuf (s.leafAddr i) Config.itemBytes with
    | ok item =>
      rw [hb] at hr
      cases hr
      have hl : item.length = 32 := State.readBuf_length hb
      obtain ⟨dp1, hs, hrun⟩ := run_stream s (opcode_ne_compress (i := .merkle) (by decide)) dp
        (segs := [.mem (s.leafAddr i) Config.itemBytes]) (by rw [readSegs_mem, hb])
        (by rw [hl]; norm_num)
      have hd : s.streamDone (opcode .merkle) (sha256 item) dp1 =
          s.reduceHead (opcode .merkle)
            { dp1 with
              node := dp1.node ++ [sha256 item], stage := .reduce
              m := paddedCount s.itemCount.toNat } := by
        show s.merkleStreamDone (opcode .merkle) _ dp1 = _
        have e1 : dp1.stage = .leaf := hs.stage.trans hst
        have e2 : dp1.node.length = i := by rw [hs.node, hi]
        simp only [State.merkleStreamDone, e1, e2]
        rw [if_neg (by omega)]
      rw [hl, hd] at hrun
      refine ⟨_, ?_, rfl, rfl, by rw [Nat.zero_add, Nat.mul_one]; exact hrun⟩
      show dp1.node ++ [sha256 item] = _
      rw [hs.node]; rfl
    | busError a => rw [hb] at hr; cases hr
    | sideEffect a => rw [hb] at hr; cases hr
  | succ c ih =>
    rw [List.range'_succ, List.map_cons, State.readItems] at hr
    cases hb : s.readBuf (s.leafAddr i) Config.itemBytes with
    | ok item =>
      rw [hb] at hr
      cases hrest : s.readItems ((List.range' (i + 1) (c + 1)).map s.leafAddr) with
      | ok rest =>
        simp only [hrest] at hr
        cases hr
        have hl : item.length = 32 := State.readBuf_length hb
        obtain ⟨dp1, hs, hrun⟩ := run_stream s (opcode_ne_compress (i := .merkle) (by decide)) dp
          (segs := [.mem (s.leafAddr i) Config.itemBytes]) (by rw [readSegs_mem, hb])
          (by rw [hl]; norm_num)
        have e1 : dp1.stage = .leaf := hs.stage.trans hst
        have e2 : dp1.node.length = i := by rw [hs.node, hi]
        have hd : s.streamDone (opcode .merkle) (sha256 item) dp1 =
            s.startLeaf (opcode .merkle) (i + 1) { dp1 with node := dp1.node ++ [sha256 item] } := by
          show s.merkleStreamDone (opcode .merkle) _ dp1 = _
          simp only [State.merkleStreamDone, e1, e2]
          rw [if_pos (by omega)]
        rw [hl, hd] at hrun
        obtain ⟨dp2, h1, h2, h3, h4⟩ := ih (dp := { dp1 with node := dp1.node ++ [sha256 item] })
          (by omega) e1 (by simp [e2]) hrest
        refine ⟨dp2, ?_, h2, h3, ?_⟩
        · rw [h1]
          show dp1.node ++ [sha256 item] ++ _ = _
          rw [hs.node]; simp
        · rw [show hashSteps 32 * (c + 1 + 1) = hashSteps 32 + hashSteps 32 * (c + 1) by ring]
          exact microSteps_trans hrun h4
      | busError a => simp only [hrest] at hr; cases hr
      | sideEffect a => simp only [hrest] at hr; cases hr
    | busError a => rw [hb] at hr; cases hr
    | sideEffect a => rw [hb] at hr; cases hr

theorem run_leaves_stops (s : State) (c : Nat) {dp : Datapath} {i : Nat}
    (hc : i + (c + 1) = paddedCount s.itemCount.toNat) (hst : dp.stage = .leaf) (hi : dp.node.length = i)
    (hr : (s.readItems ((List.range' i (c + 1)).map s.leafAddr)).stops)
    (k : List Bytes → Host.Outcome State Fault Refusal) :
    (s.startLeaf (opcode .merkle) i dp).EndsBy (hashSteps 32 * (c + 1))
      (s.withRead (s.readItems ((List.range' i (c + 1)).map s.leafAddr)) k) := by
  induction c generalizing dp i with
  | zero =>
    simp only [Nat.zero_add, List.range'_one, List.map_cons, List.map_nil, State.readItems, Nat.mul_one]
      at hr ⊢
    have hrun := run_stream_stops s (opcode_ne_compress (i := .merkle) (by decide)) dp
      (segs := [.mem (s.leafAddr i) Config.itemBytes])
    rw [readSegs_mem, streamLen_mem] at hrun
    cases hb : s.readBuf (s.leafAddr i) Config.itemBytes with
    | ok item => rw [hb] at hr; exact hr.elim
    | busError a => rw [hb] at hrun; exact hrun trivial fun _ => k []
    | sideEffect a => rw [hb] at hrun; exact hrun trivial fun _ => k []
  | succ c ih =>
    rw [List.range'_succ, List.map_cons, State.readItems] at hr ⊢
    cases hb : s.readBuf (s.leafAddr i) Config.itemBytes with
    | ok item =>
      rw [hb] at hr
      simp only at hr ⊢
      have hl : item.length = 32 := State.readBuf_length hb
      obtain ⟨dp1, hs, hrun⟩ := run_stream s (opcode_ne_compress (i := .merkle) (by decide)) dp
        (segs := [.mem (s.leafAddr i) Config.itemBytes]) (by rw [readSegs_mem, hb])
        (by rw [hl]; norm_num)
      have e1 : dp1.stage = .leaf := hs.stage.trans hst
      have e2 : dp1.node.length = i := by rw [hs.node, hi]
      have hd : s.streamDone (opcode .merkle) (sha256 item) dp1 =
          s.startLeaf (opcode .merkle) (i + 1) { dp1 with node := dp1.node ++ [sha256 item] } := by
        show s.merkleStreamDone (opcode .merkle) _ dp1 = _
        simp only [State.merkleStreamDone, e1, e2]
        rw [if_pos (by omega)]
      rw [hl, hd] at hrun
      have hst' : (s.readItems ((List.range' (i + 1) (c + 1)).map s.leafAddr)).stops := by
        cases hx : s.readItems ((List.range' (i + 1) (c + 1)).map s.leafAddr) <;>
          simp only [hx] at hr <;> exact hr
      have e := ih (dp := { dp1 with node := dp1.node ++ [sha256 item] }) (i := i + 1)
        (by omega) e1 (by simp [e2]) hst'
      rw [show hashSteps 32 * (c + 1 + 1) = hashSteps 32 + hashSteps 32 * (c + 1) by ring]
      refine State.EndsBy.after hrun ?_
      cases hx : s.readItems ((List.range' (i + 1) (c + 1)).map s.leafAddr) with
      | ok rest => rw [hx] at hst'; exact hst'.elim
      | busError a => rw [hx] at e; exact e
      | sideEffect a => rw [hx] at e; exact e
    | busError a =>
      have hrun := run_stream_stops s (opcode_ne_compress (i := .merkle) (by decide)) dp
        (segs := [.mem (s.leafAddr i) Config.itemBytes])
      rw [readSegs_mem, streamLen_mem, hb] at hrun
      refine (hrun trivial fun _ => k []).mono ?_
      show hashSteps 32 ≤ hashSteps 32 * (c + 1 + 1)
      exact Nat.le_mul_of_pos_right _ (by omega)
    | sideEffect a =>
      have hrun := run_stream_stops s (opcode_ne_compress (i := .merkle) (by decide)) dp
        (segs := [.mem (s.leafAddr i) Config.itemBytes])
      rw [readSegs_mem, streamLen_mem, hb] at hrun
      refine (hrun trivial fun _ => k []).mono ?_
      show hashSteps 32 ≤ hashSteps 32 * (c + 1 + 1)
      exact Nat.le_mul_of_pos_right _ (by omega)

/-! ### MERKLE: the reduction -/

theorem hashPairs_getD {l : List Bytes} {p : Nat} (h : p < l.length / 2) :
    (hashPairs l).getD p [] = sha256 (l.getD (2 * p) [] ++ l.getD (2 * p + 1) []) := by
  induction p generalizing l with
  | zero =>
    match l, h with
    | [], h => simp at h
    | [_], h => simp at h
    | a :: b :: rest, _ => simp [hashPairs]
  | succ p ih =>
    match l, h with
    | [], h => simp at h
    | [_], h => simp at h
    | a :: b :: rest, h =>
      simp only [List.length_cons] at h
      have e := ih (l := rest) (by omega)
      simp only [hashPairs, List.getD_cons_succ, e, show 2 * (p + 1) = 2 * p + 1 + 1 by omega]

/-- The node buffer while the pairs of a layer are hashed in place: parents, then what is left of the
layer (R244: "the write NODE[p] never destroys a node a later pair needs"). -/
def nodesAt (layer : List Bytes) (p : Nat) : List Bytes := (hashPairs layer).take p ++ layer.drop p

theorem nodesAt_zero (layer : List Bytes) : nodesAt layer 0 = layer := by simp [nodesAt]

theorem nodesAt_length {layer : List Bytes} {p : Nat} (h : p ≤ layer.length / 2) :
    (nodesAt layer p).length = layer.length := by
  simp [nodesAt, hashPairs_length]; omega

theorem nodesAt_getD {layer : List Bytes} {p j : Nat} (hp : p ≤ layer.length / 2) (hj : p ≤ j) :
    (nodesAt layer p).getD j [] = layer.getD j [] := by
  have hl : ((hashPairs layer).take p).length = p := by
    rw [List.length_take, hashPairs_length]; omega
  rw [nodesAt, List.getD_append_right _ _ _ _ (by omega), hl]
  simp only [List.getD_eq_getElem?_getD, List.getElem?_drop]
  rw [show p + (j - p) = j by omega]

theorem nodesAt_set {layer : List Bytes} {p : Nat} (h : p < layer.length / 2) :
    (nodesAt layer p).set p ((hashPairs layer).getD p []) = nodesAt layer (p + 1) := by
  have hh := hashPairs_length layer
  have hl : ((hashPairs layer).take p).length = p := by rw [List.length_take]; omega
  have h1 : p < (hashPairs layer).length := by omega
  have h2 : p < layer.length := by omega
  rw [nodesAt, nodesAt, List.set_append_right _ _ (by omega), hl, Nat.sub_self,
    List.drop_eq_getElem_cons h2, List.set_cons_zero, ← List.take_append_getElem h1,
    List.getD_eq_getElem _ _ h1]
  simp only [List.append_assoc, List.cons_append, List.nil_append]

/-- R244: the pairs of an even layer, from pair p on. -/
theorem run_pairs (s : State) (layer : List Bytes) (heven : layer.length % 2 = 0)
    (hbytes : ∀ d ∈ layer, d.length = 32) (c : Nat) {dp : Datapath}
    (hp : dp.p + (c + 1) = layer.length / 2) (hst : dp.stage = .reduce) (hm : dp.m = layer.length)
    (hn : dp.node = nodesAt layer dp.p) :
    ∃ dp' : Datapath, dp'.node = hashPairs layer ∧ dp'.m = layer.length / 2 ∧ dp'.stage = .reduce ∧
      (s.startPair (opcode .merkle) dp).microSteps (hashSteps 64 * (c + 1)) =
        .next (s.reduceHead (opcode .merkle) dp') := by
  have hop := opcode_ne_compress (i := .merkle) (by decide)
  have hh := hashPairs_length layer
  induction c generalizing dp with
  | zero =>
    have hget : ∀ j, dp.p ≤ j → dp.node.getD j [] = layer.getD j [] := fun j hj => by
      rw [hn, nodesAt_getD (by omega) hj]
    have hlen : ∀ j, j < layer.length → (layer.getD j []).length = 32 := fun j hj => by
      rw [List.getD_eq_getElem _ _ hj]; exact hbytes _ (List.getElem_mem hj)
    have hl : (layer.getD (2 * dp.p) [] ++ layer.getD (2 * dp.p + 1) []).length = 64 := by
      rw [List.length_append, hlen _ (by omega), hlen _ (by omega)]
    obtain ⟨dp1, hs, hrun⟩ := run_stream s hop dp
      (segs := [.held (layer.getD (2 * dp.p) []), .held (layer.getD (2 * dp.p + 1) [])])
      (readSegs_held_held _ _ _) (by rw [hl]; norm_num)
    have hd : s.streamDone (opcode .merkle)
        (sha256 (layer.getD (2 * dp.p) [] ++ layer.getD (2 * dp.p + 1) [])) dp1 =
        s.reduceHead (opcode .merkle)
          { dp1 with node := hashPairs layer, m := layer.length / 2 } := by
      show s.merkleStreamDone (opcode .merkle) _ dp1 = _
      have e1 : dp1.stage = .reduce := hs.stage.trans hst
      have e2 : dp1.m = layer.length := hs.m.trans hm
      have e3 : (dp1.node.set dp1.p
          (sha256 (layer.getD (2 * dp.p) [] ++ layer.getD (2 * dp.p + 1) []))).take (dp1.m / 2) =
          hashPairs layer := by
        rw [hs.node, hs.p, e2, ← hashPairs_getD (by omega), hn, nodesAt_set (by omega), nodesAt,
          List.take_left' (by rw [List.length_take]; omega), List.take_of_length_le (by omega)]
      simp only [State.merkleStreamDone, e1, e3]
      rw [hs.p, if_neg (by omega), e2]
    rw [hl, hd] at hrun
    refine ⟨{ dp1 with node := hashPairs layer, m := layer.length / 2 }, rfl, rfl,
      hs.stage.trans hst, ?_⟩
    rw [Nat.zero_add, Nat.mul_one]
    unfold State.startPair
    rw [hget _ (by omega), hget _ (by omega)]
    exact hrun
  | succ c ih =>
    have hget : ∀ j, dp.p ≤ j → dp.node.getD j [] = layer.getD j [] := fun j hj => by
      rw [hn, nodesAt_getD (by omega) hj]
    have hlen : ∀ j, j < layer.length → (layer.getD j []).length = 32 := fun j hj => by
      rw [List.getD_eq_getElem _ _ hj]; exact hbytes _ (List.getElem_mem hj)
    have hl : (layer.getD (2 * dp.p) [] ++ layer.getD (2 * dp.p + 1) []).length = 64 := by
      rw [List.length_append, hlen _ (by omega), hlen _ (by omega)]
    obtain ⟨dp1, hs, hrun⟩ := run_stream s hop dp
      (segs := [.held (layer.getD (2 * dp.p) []), .held (layer.getD (2 * dp.p + 1) [])])
      (readSegs_held_held _ _ _) (by rw [hl]; norm_num)
    have e1 : dp1.stage = .reduce := hs.stage.trans hst
    have e2 : dp1.m = layer.length := hs.m.trans hm
    have e3 : dp1.node.set dp1.p
        (sha256 (layer.getD (2 * dp.p) [] ++ layer.getD (2 * dp.p + 1) [])) =
        nodesAt layer (dp.p + 1) := by
      rw [hs.node, hs.p, ← hashPairs_getD (by omega), hn, nodesAt_set (by omega)]
    have hd : s.streamDone (opcode .merkle)
        (sha256 (layer.getD (2 * dp.p) [] ++ layer.getD (2 * dp.p + 1) [])) dp1 =
        s.startPair (opcode .merkle) { dp1 with node := nodesAt layer (dp.p + 1), p := dp.p + 1 } := by
      show s.merkleStreamDone (opcode .merkle) _ dp1 = _
      simp only [State.merkleStreamDone, e1, e3]
      rw [hs.p, e2, if_pos (by omega)]
    rw [hl, hd] at hrun
    obtain ⟨dp2, h1, h2, h3, h4⟩ := ih
      (dp := { dp1 with node := nodesAt layer (dp.p + 1), p := dp.p + 1 })
      (by simp only; omega) e1 e2 rfl
    refine ⟨dp2, h1, h2, h3, ?_⟩
    have h0 : s.startPair (opcode .merkle) dp = s.goto (opcode .merkle) .put
        (dp.startStream [.held (layer.getD (2 * dp.p) []), .held (layer.getD (2 * dp.p + 1) [])]) := by
      unfold State.startPair
      rw [hget _ (by omega), hget _ (by omega)]
    rw [show hashSteps 64 * (c + 1 + 1) = hashSteps 64 + hashSteps 64 * (c + 1) by ring, h0,
      microSteps_add _ hrun, h4]

theorem hashPairs_bytes (l : List Bytes) : ∀ d ∈ hashPairs l, d.length = 32 := by
  induction l using hashPairs.induct with
  | case1 a b rest ih =>
    intro d hd
    simp only [hashPairs, List.mem_cons] at hd
    rcases hd with rfl | hd
    · rfl
    · exact ih d hd
  | case2 l h =>
    match l, h with
    | [], _ => intro d hd; simp [hashPairs] at hd
    | [_], _ => intro d hd; simp [hashPairs] at hd
    | a :: b :: rest, h => exact absurd rfl (h a b rest)

/-- R244, R245: the reduction of the node buffer's layer to its root, up to COMPLETE. -/
theorem run_reduce (s : State) (n : Nat) {dp : Datapath} (hn : dp.node.length ≤ n)
    (hst : dp.stage = .reduce) (hm : dp.m = dp.node.length) (hbytes : ∀ d ∈ dp.node, d.length = 32) :
    ∃ dp' : Datapath, dp'.result = deser (reduceLayers n dp.node) ∧
      (s.reduceHead (opcode .merkle) dp).microSteps (reduceSteps n dp.node.length) =
        .next (s.goto (opcode .merkle) .complete dp') := by
  induction n generalizing dp with
  | zero =>
    have h0 : dp.node = [] := List.length_eq_zero_iff.mp (by omega)
    refine ⟨{ dp with result := deser (dp.node.getD 0 []) }, by rw [h0]; rfl, ?_⟩
    unfold State.reduceHead
    rw [if_pos (by omega)]
    rfl
  | succ n ih =>
    by_cases h1 : dp.node.length ≤ 1
    · refine ⟨{ dp with result := deser (dp.node.getD 0 []) }, ?_, ?_⟩
      · rw [reduceLayers, if_pos h1]
        cases dp.node <;> rfl
      · unfold State.reduceHead
        rw [if_pos (by omega), reduceSteps, if_pos h1]
        rfl
    · have hel := evenLayer_length dp.node
      have hlast : dp.node.getD (dp.m - 1) [] = dp.node.getLastD [] := by
        have hne : dp.node ≠ [] := by intro e; rw [e] at h1; simp at h1
        rw [hm, List.getLastD_eq_getLast?, List.getLast?_eq_getElem?, List.getD_eq_getElem?_getD]
      have heb : ∀ d ∈ evenLayer dp.node, d.length = 32 := by
        intro d hd
        unfold evenLayer at hd
        split_ifs at hd
        · simp only [List.mem_append, List.mem_singleton] at hd
          rcases hd with hd | rfl
          · exact hbytes d hd
          · rw [← hlast, List.getD_eq_getElem _ _ (by omega)]
            exact hbytes _ (List.getElem_mem _)
        · exact hbytes d hd
      -- the pairs of the even layer, then the reduction of their parents
      have rest : ∀ dpe : Datapath, dpe.node = evenLayer dp.node → dpe.m = (evenLayer dp.node).length →
          dpe.p = 0 → dpe.stage = .reduce →
          ∃ dp' : Datapath, dp'.result = deser (reduceLayers (n + 1) dp.node) ∧
            (s.startPair (opcode .merkle) dpe).microSteps
                (hashSteps 64 * ((dp.node.length + 1) / 2) + reduceSteps n ((dp.node.length + 1) / 2)) =
              .next (s.goto (opcode .merkle) .complete dp') := by
        intro dpe e1 e2 e3 e4
        obtain ⟨c, hc⟩ : ∃ c, (dp.node.length + 1) / 2 = c + 1 :=
          ⟨(dp.node.length + 1) / 2 - 1, by omega⟩
        obtain ⟨dp1, g1, g2, g3, g4⟩ := run_pairs s (evenLayer dp.node) (by omega) heb c (dp := dpe)
          (by rw [e3]; omega) e4 e2 (by rw [e1, e3, nodesAt_zero])
        have hl1 : dp1.node.length = (dp.node.length + 1) / 2 := by
          rw [g1, hashPairs_length, hel]; omega
        obtain ⟨dp2, k1, k2⟩ := ih (dp := dp1) (by omega) g3 (by rw [g2, hel, hl1]; omega)
          (by rw [g1]; exact hashPairs_bytes _)
        refine ⟨dp2, ?_, ?_⟩
        · rw [k1, g1, reduceLayers, if_neg h1]
        · rw [hc, microSteps_add _ g4, ← hc, ← hl1, k2]
      rw [reduceSteps, if_neg h1]
      by_cases hodd : dp.m % 2 = 1
      · have hev : evenLayer dp.node = dp.node ++ [dp.node.getD (dp.m - 1) []] := by
          rw [evenLayer, if_pos (by omega), hlast]
        obtain ⟨dp', r1, r2⟩ := rest
          { dp with node := dp.node ++ [dp.node.getD (dp.m - 1) []], m := dp.m + 1, p := 0 }
          hev.symm (by simp only [hel]; omega) rfl hst
        refine ⟨dp', r1, ?_⟩
        have h2 : s.reduceHead (opcode .merkle) dp = s.goto (opcode .merkle) .dup dp := by
          unfold State.reduceHead
          rw [if_neg (by omega), if_pos hodd]
        have h3 : (s.goto (opcode .merkle) .dup dp).microSteps 1 = .next (s.startPair (opcode .merkle)
            { dp with node := dp.node ++ [dp.node.getD (dp.m - 1) []], m := dp.m + 1, p := 0 }) :=
          microSteps_one rfl
        rw [h2, show dp.node.length % 2 = 1 by omega, Nat.add_assoc, microSteps_add _ h3, r2]
      · have hev : evenLayer dp.node = dp.node := by rw [evenLayer, if_neg (by omega)]
        obtain ⟨dp', r1, r2⟩ := rest { dp with p := 0 } hev.symm (by simp only [hel]; omega) rfl hst
        refine ⟨dp', r1, ?_⟩
        have h2 : s.reduceHead (opcode .merkle) dp = s.startPair (opcode .merkle) { dp with p := 0 } := by
          unfold State.reduceHead
          rw [if_neg (by omega), if_neg hodd]
        rw [h2, show dp.node.length % 2 = 0 by omega, Nat.zero_add, r2]

end Sys2Proof.Machine
end

