-- ==== Sys2Proof/Laws/Commands.lean ====
section
/-!
SUPPORT. What a command's meaning can do, and how the state in which it was accepted relates to it.
-/

namespace Sys2Proof.Machine

/-- Everything a read can lead to. -/
theorem withRead_cases {α : Type} (s : State) (r : ReadResult α)
    (k : α → Host.Outcome State Fault Refusal) :
    (∃ x, r = .ok x ∧ s.withRead r k = k x) ∨
    (∃ a, r = .busError a ∧ s.withRead r k = .next (s.raise .busError a)) ∨
    (∃ a, r = .sideEffect a ∧ s.withRead r k = .refused (.sideEffectRead a)) := by
  cases r with
  | ok x => exact .inl ⟨x, rfl, rfl⟩
  | busError a => exact .inr (.inl ⟨a, rfl, rfl⟩)
  | sideEffect a => exact .inr (.inr ⟨a, rfl, rfl⟩)

theorem withRead_ok {α : Type} (s : State) (x : α) (k : α → Host.Outcome State Fault Refusal) :
    s.withRead (.ok x) k = k x := rfl

/-- What reading items answers depends on the platform and on the bytes of the items. -/
theorem State.readItems_congr {s t : State} (hp : s.platform = t.platform) (l : List Nat)
    (hm : ∀ a ∈ l, ∀ i < Config.itemBytes, Memory.get s.mem (a + i) = Memory.get t.mem (a + i)) :
    s.readItems l = t.readItems l := by
  induction l with
  | nil => rfl
  | cons a l ih =>
    have h1 := State.readBuf_congr hp (hm a (by simp))
    have h2 := ih fun x hx => hm x (by simp [hx])
    simp only [State.readItems, h1, h2]

/-- Every item readable: the read answers their bytes. -/
theorem State.readItems_ok {s : State} {l : List Nat}
    (h : ∀ a ∈ l, s.bufferReadable a Config.itemBytes) :
    s.readItems l = .ok (l.map fun a => s.bytesAt a Config.itemBytes) := by
  induction l with
  | nil => rfl
  | cons a l ih =>
    have h2 := ih fun x hx => h x (by simp [hx])
    simp only [State.readItems, State.readBuf_ok (h a (by simp)), h2, List.map_cons]

theorem State.readItems_length {s : State} {l : List Nat} {items : List Bytes}
    (h : s.readItems l = .ok items) : items.length = l.length := by
  induction l generalizing items with
  | nil => cases h; rfl
  | cons a l ih =>
    simp only [State.readItems] at h
    split at h
    · split at h
      · rename_i hr
        cases h
        simp [ih hr]
      · cases h
      · cases h
    · cases h
    · cases h

/-! ### The acceptance checks, one command at a time -/

theorem preCheck_hash_none {s : State} : s.preCheck .hash = .none ↔
    s.msgLen < Config.maxHashedBytes ∧ s.msgAddr.toNat + s.msgLen ≤ Config.memSize := by
  simp only [State.preCheck, inRange]
  by_cases h1 : s.msgLen ≥ Config.maxHashedBytes
  · rw [if_pos h1]; simp; omega
  · rw [if_neg h1]
    by_cases h2 : s.msgAddr.toNat + s.msgLen ≤ Config.memSize
    · simp [h2]; omega
    · simp [h2]

theorem preCheck_hmac_none {s : State} : s.preCheck .hmac = .none ↔
    64 + s.msgLen < Config.maxHashedBytes ∧ s.msgAddr.toNat + s.msgLen ≤ Config.memSize ∧
      s.keyAddr.toNat + s.keyLen.toNat ≤ Config.memSize := by
  simp only [State.preCheck, inRange]
  by_cases h1 : 64 + s.msgLen ≥ Config.maxHashedBytes
  · rw [if_pos h1]; simp; omega
  · rw [if_neg h1]
    by_cases h2 : s.msgAddr.toNat + s.msgLen ≤ Config.memSize
    · by_cases h3 : s.keyAddr.toNat + s.keyLen.toNat ≤ Config.memSize
      · simp [h2, h3]; omega
      · simp [h2, h3]
    · simp [h2]

theorem preCheck_merkle_none {s : State} : s.preCheck .merkle = .none ↔
    s.itemCount.toNat ≠ 0 ∧ paddedCount s.itemCount.toNat ≤ s.platform.nodeCap.toNat ∧
      s.itemAddr.toNat + Config.itemBytes * s.itemCount.toNat ≤ Config.memSize := by
  simp only [State.preCheck, inRange]
  by_cases h1 : s.itemCount.toNat = 0
  · rw [if_pos h1]; simp [h1]
  · rw [if_neg h1]
    by_cases h2 : paddedCount s.itemCount.toNat > s.platform.nodeCap.toNat
    · rw [if_pos h2]; simp; omega
    · rw [if_neg h2]
      by_cases h3 : s.itemAddr.toNat + Config.itemBytes * s.itemCount.toNat ≤ Config.memSize
      · simp [h1, h3]; omega
      · simp [h3]

/-! ### What a command can do -/

/-- A command whose checks fail is rejected. -/
theorem exec_rejected {i : Instr} {s : State} (h : s.preCheck i ≠ .none) :
    exec i s = .next ((s.offer (encode i)).reject (s.preCheck i)) := by
  have key : ∀ body, s.runCommand i body = .next ((s.offer (encode i)).reject (s.preCheck i)) := by
    intro body
    unfold State.runCommand
    split
    · rename_i e; exact absurd e h
    · rfl
  cases i <;> simp only [exec, execInit, execCompress, execHash, execHmac, execMerkle] <;> exact key _

theorem runCommand_ok {i : Instr} {s : State} (h : s.preCheck i = .none)
    (body : State → Host.Outcome State Fault Refusal) :
    s.runCommand i body = body (s.offer (encode i)) := by
  simp only [State.runCommand, h]

/-- Everything a command whose checks pass can do: complete, end in a bus error, or be refused at a read
that has side effects. -/
theorem exec_accepted {i : Instr} {s : State} (h : s.preCheck i = .none) :
    (∃ r, exec i s = .next ((s.offer (encode i)).complete r)) ∨
    ((i = .hash ∨ i = .hmac ∨ i = .merkle) ∧
      ((∃ r, exec i s = .next ((s.offer (encode i)).completeRead r)) ∨
       (∃ a, exec i s = .next ((s.offer (encode i)).raise .busError a)) ∨
       (∃ a, exec i s = .refused (.sideEffectRead a)))) := by
  cases i with
  | init => exact .inl ⟨iv, by simp only [exec, execInit, runCommand_ok h]⟩
  | compress => exact .inl ⟨_, by simp only [exec, execCompress, runCommand_ok h]; rfl⟩
  | hash =>
    refine .inr ⟨.inl rfl, ?_⟩
    simp only [exec, execHash, runCommand_ok h]
    rcases withRead_cases (s.offer (encode .hash))
      ((s.offer (encode .hash)).readBuf (s.offer (encode .hash)).msgAddr.toNat
        (s.offer (encode .hash)).msgLen)
      (fun msg => .next ((s.offer (encode .hash)).completeRead (deser (sha256 msg))))
      with ⟨x, -, e⟩ | ⟨a, -, e⟩ | ⟨a, -, e⟩
    · exact .inl ⟨_, e⟩
    · exact .inr (.inl ⟨a, e⟩)
    · exact .inr (.inr ⟨a, e⟩)
  | hmac =>
    refine .inr ⟨.inr (.inl rfl), ?_⟩
    simp only [exec, execHmac, runCommand_ok h]
    cases (s.offer (encode .hmac)).readBuf (s.offer (encode .hmac)).keyAddr.toNat
        (s.offer (encode .hmac)).keyLen.toNat with
    | ok key =>
      cases (s.offer (encode .hmac)).readBuf (s.offer (encode .hmac)).msgAddr.toNat
          (s.offer (encode .hmac)).msgLen with
      | ok msg => exact .inl ⟨_, rfl⟩
      | busError a => exact .inr (.inl ⟨a, rfl⟩)
      | sideEffect a => exact .inr (.inr ⟨a, rfl⟩)
    | busError a => exact .inr (.inl ⟨a, rfl⟩)
    | sideEffect a => exact .inr (.inr ⟨a, rfl⟩)
  | merkle =>
    refine .inr ⟨.inr (.inr rfl), ?_⟩
    simp only [exec, execMerkle, runCommand_ok h]
    cases (s.offer (encode .merkle)).readItems (s.offer (encode .merkle)).leafAddrs with
    | ok items => exact .inl ⟨_, rfl⟩
    | busError a => exact .inr (.inl ⟨a, rfl⟩)
    | sideEffect a => exact .inr (.inr ⟨a, rfl⟩)

/-! ### The state in which a command was accepted -/

/-- The checks depend on the operand registers and the platform. -/
theorem preCheck_congr {s t : State} (i : Instr) (h1 : t.msgAddr = s.msgAddr)
    (h2 : t.msgLenLo = s.msgLenLo) (h3 : t.msgLenHi = s.msgLenHi) (h4 : t.keyAddr = s.keyAddr)
    (h5 : t.keyLen = s.keyLen) (h6 : t.itemAddr = s.itemAddr) (h7 : t.itemCount = s.itemCount)
    (h8 : t.platform = s.platform) : t.preCheck i = s.preCheck i := by
  cases i <;> simp [State.preCheck, State.msgLen, *]

/-- An accepted command without its internal state. -/
def State.accepted (s : State) (v : Word) : State :=
  { s.offer v with status := { (s.offer v).status with busy := true } }

/-- The start of a command does not look at the flags. -/
theorem start_status (s : State) (op : BitVec 4) (f : Status) :
    { s.start op with status := f } = { s with status := f }.start op := by
  unfold State.start
  cases decodeOp op with
  | illegal e => rfl
  | instr i =>
    cases i with
    | init => rfl
    | compress => rfl
    | hash => rfl
    | hmac =>
      simp only [State.startHmac]
      by_cases h1 : s.keyLen.toNat > 64
      · rw [if_pos h1, if_pos h1]; rfl
      · by_cases h2 : s.keyLen.toNat = 0
        · rw [if_neg h1, if_pos h2, if_neg h1, if_pos h2]; rfl
        · rw [if_neg h1, if_neg h2, if_neg h1, if_neg h2]; rfl
    | merkle => rfl

/-- Acceptance is the start of the command in that state. -/
theorem launch_eq_start (s : State) (v : Word) : s.launch v = (s.accepted v).start (opField v) :=
  start_status (s.offer v) (opField v) _

theorem opField_encode (i : Instr) : opField (encode i) = opcode i := by cases i <;> decide

theorem decode_encode_eq (i : Instr) : decode (encode i) = .instr i := by cases i <;> decide

theorem decodeOp_opcode (i : Instr) : decodeOp (opcode i) = .instr i := by cases i <;> decide

/-- A CMD write of a command whose checks pass. -/
theorem writeReg_cmd_launch {s : State} {i : Instr} (hb : s.status.busy = false)
    (hp : s.preCheck i = .none) : s.writeReg .cmd (encode i) = s.launch (encode i) := by
  simp [State.writeReg, hb, State.writeIdle, State.accept, State.preCheckWord, decode_encode_eq, hp]

/-! ### What a micro-step can do -/

theorem goto_self {s : State} {op : BitVec 4} {ph : Phase} (hf : s.fsm = .run op ph) :
    s.goto op ph s.dp = s := by rw [State.goto, ← hf]

/-- R180: everything a micro-step of a running engine can do: go on with the command, end it in a bus
error, or complete it. -/
theorem microStep_cases {s t : State} {op : BitVec 4} {ph : Phase} (hf : s.fsm = .run op ph)
    (h : s.microStep = .next t) :
    (∃ ph' dp', t = s.goto op ph' dp') ∨ (∃ a, t = s.raise .busError a) ∨
      (ph = .complete ∧ t = s.completeRead s.dp.result) := by
  have read : ∀ (r : ReadResult Byte) (k : Byte → Host.Outcome State Fault Refusal),
      s.withRead r k = .next t → (∀ b, ∃ ph' dp', k b = .next (s.goto op ph' dp')) →
      (∃ ph' dp', t = s.goto op ph' dp') ∨ (∃ a, t = s.raise .busError a) ∨
        (ph = .complete ∧ t = s.completeRead s.dp.result) := by
    intro r k hr hk
    rcases withRead_cases s r k with ⟨b, -, e⟩ | ⟨a, -, e⟩ | ⟨a, -, e⟩
    · obtain ⟨ph', dp', e'⟩ := hk b
      rw [e, e'] at hr
      cases hr
      exact .inl ⟨_, _, rfl⟩
    · rw [e] at hr; cases hr; exact .inr (.inl ⟨a, rfl⟩)
    · rw [e] at hr; cases hr
  have hred : ∀ dp, ∃ ph' dp', s.reduceHead op dp = s.goto op ph' dp' := by
    intro dp
    unfold State.reduceHead
    split
    · exact ⟨_, _, rfl⟩
    · split <;> exact ⟨_, _, rfl⟩
  have hdone : ∀ d dp, ∃ ph' dp', s.streamDone op d dp = s.goto op ph' dp' := by
    intro d dp
    unfold State.streamDone State.hmacStreamDone State.merkleStreamDone
    split
    · split <;> exact ⟨_, _, rfl⟩
    · split
      · split
        · exact ⟨_, _, rfl⟩
        · exact hred _
      · split
        · exact ⟨_, _, rfl⟩
        · exact hred _
    · exact ⟨_, _, rfl⟩
  unfold State.microStep at h
  simp only [hf] at h
  cases ph with
  | initLoad => cases h; exact .inl ⟨_, _, rfl⟩
  | put =>
    simp only [State.microPut] at h
    split at h
    · split at h
      · cases h; exact .inl ⟨_, _, (goto_self hf).symm⟩
      · cases h; exact .inl ⟨_, _, rfl⟩
      · exact read _ _ h fun b => ⟨_, _, rfl⟩
    · cases h; exact .inl ⟨_, _, rfl⟩
    · cases h; exact .inl ⟨_, _, rfl⟩
    · cases h; exact .inl ⟨_, _, rfl⟩
    · cases h; exact .inl ⟨_, _, (goto_self hf).symm⟩
  | load => cases h; exact .inl ⟨_, _, rfl⟩
  | round => cases h; exact .inl ⟨_, _, rfl⟩
  | feed =>
    cases h
    left
    unfold State.microFeed
    simp only
    split
    · exact ⟨_, _, rfl⟩
    · split
      · exact hdone _ _
      · exact ⟨_, _, rfl⟩
  | keyByte => exact read _ _ h fun b => ⟨_, _, rfl⟩
  | keyPad => cases h; exact .inl ⟨_, _, rfl⟩
  | mask => cases h; exact .inl ⟨_, _, rfl⟩
  | dup => cases h; exact .inl ⟨_, _, rfl⟩
  | complete => cases h; exact .inr (.inr ⟨rfl, rfl⟩)

end Sys2Proof.Machine
end

