-- ==== Sys2Proof/Laws/Invariant.lean ====
section
/-!
SUPPORT. The invariant of Safety.lean, operation by operation: each shared operation keeps it.
-/

namespace Sys2Proof.Machine

/-- The internal state of an engine that has fallen idle is in range. -/
theorem ranges_unspecified (s : State) (h : s.dp = Datapath.unspecified) : s.RangesOk := by
  constructor <;> simp [h, Datapath.unspecified, streamLen]

/-- idle states -/
theorem Inv.mkIdle {s : State} (hm : Memory.wf s.mem = true) (hp : s.platform.valid = true)
   (hb : ¬(s.status.done = true ∧ s.status.err = true))
   (he : s.status.err = false ↔ s.status.ecode = .none)
   (ha : s.status.ecode ≠ .busError → s.errAddr = 0)
   (hf : s.fsm = .idle) (hbusy : s.status.busy = false) (hr : s.raced = false) (hd : s.RangesOk) :
       Inv s :=
  ⟨hm, hp, hb, he, ha, by simp only [State.engineOk, hf]; exact ⟨hbusy, hr⟩, hd⟩

/-- R190. -/
theorem inv_complete {s : State} (h : Inv s) (v : Word) (r : Words8) : Inv
    ((s.offer v).complete r) := by
  refine Inv.mkIdle ?_ ?_ ?_ ?_ ?_ ?_ ?_ ?_ (ranges_unspecified _ (by simp)) <;> simp [h.mem,
      h.platform]

/-- R190, R95. -/
theorem inv_completeRead {s : State} (h : Inv s) (v : Word) (r : Words8) : Inv
    ((s.offer v).completeRead r) := by
  refine Inv.mkIdle ?_ ?_ ?_ ?_ ?_ ?_ ?_ ?_ (ranges_unspecified _ (by simp)) <;> simp [h.mem,
      h.platform]

/-- R310. -/
theorem inv_raise {s : State} (h : Inv s) (v : Word) (a : Nat) : Inv
    ((s.offer v).raise .busError a) := by
  refine Inv.mkIdle ?_ ?_ ?_ ?_ ?_ ?_ ?_ ?_ (ranges_unspecified _ (by simp)) <;> simp [h.mem,
      h.platform]

/-- A read keeps the invariant when its error and its continuation do. -/
theorem inv_withRead {α} {s t : State} {r : ReadResult α} {k} 
   (hraise : ∀ a, Inv (s.raise .busError a)) (hk : ∀ x, k x = .next t → Inv t)
   (h : s.withRead r k = .next t) : Inv t := by
  cases r with
  | ok x => exact hk x h
  | busError a => simp only [State.withRead] at h; cases h; exact hraise a
  | sideEffect a => cases h


/-- The template of the commands. -/
theorem inv_runCommand {s t : State} {i : Instr} {body} (hp : s.preCheck i = .none)
   (hb : body (s.offer (encode i)) = .next t → Inv t) (he : s.runCommand i body = .next t) :
       Inv t := by
  simp only [State.runCommand, hp] at he
  exact hb he

/-- A command whose checks pass keeps the invariant, whatever it comes to. -/
theorem inv_exec {s t : State} {i : Instr} (h : Inv s) (hp : s.preCheck i = .none) (he :
    exec i s = .next t) : Inv t := by
  cases i <;> simp only [exec, execInit, execCompress, execHash, execHmac, execMerkle] at he <;>
   refine inv_runCommand hp ?_ he
  · intro h1; cases h1; exact inv_complete h _ _
  · intro h1; cases h1; exact inv_complete h _ _
  · refine inv_withRead (inv_raise h _) ?_
    rintro m h1; cases h1; exact inv_completeRead h _ _
  · refine inv_withRead (inv_raise h _) ?_
    rintro m
    refine inv_withRead (inv_raise h _) ?_
    rintro m h1; cases h1; exact inv_completeRead h _ _
  · refine inv_withRead (inv_raise h _) ?_
    rintro m h1; cases h1; exact inv_completeRead h _ _

/-- R182: the running command as one step. -/
theorem inv_engineCommand {s t : State} (h : Inv s) (he : s.engineCommand = .next t) : Inv t := by
  have hE := h.engine
  unfold State.engineCommand at he
  unfold State.engineOk at hE
  split at he
  · cases he; exact h
  · rename_i op ph hf
    simp only [hf] at hE
    obtain ⟨i, hi, hp, -⟩ := hE.command
    simp only [hi] at he
    exact inv_exec h hp he

/-- schedule, rdata, draws do not matter -/
theorem inv_bus {s : State} (h : Inv s) (sch : List Event) (rd : Word) (dr : Nat) :
   Inv { s with schedule := sch, rdata := rd, draws := dr } := by
  have hE := h.engine
  refine ⟨h.mem, h.platform, h.notBoth, h.ecode, h.errAddr, ?_, ?_⟩
  · unfold State.engineOk at hE ⊢
    cases hf : s.fsm with
    | idle => simp only [hf] at hE ⊢; exact ⟨hE.busy, hE.raced⟩
    | run op ph =>
      simp only [hf] at hE ⊢
      obtain ⟨i, hi, hp, hph, hr⟩ := hE.command
      refine ⟨hE.busy, hE.done, hE.err, hE.lastop, hE.notReset, i, hi, ?_, ?_, hr⟩
      · cases i <;> exact hp
      · cases ph <;> exact hph
  · exact ⟨h.ranges.t, h.ranges.w, h.ranges.pos, h.ranges.node, h.ranges.nodeBytes, h.ranges.counted⟩

/-- What holds at a phase depends on the internal state and two operand registers. -/
theorem phaseOk_congr {s t : State} (i) (ph) (hd : t.dp = s.dp) (h5 : t.keyLen = s.keyLen) (h7 :
    t.itemCount = s.itemCount) : t.phaseOk i ph ↔ s.phaseOk i ph := by
  cases ph <;> cases i <;> simp [State.phaseOk, State.wrapperOk, *]

/-- a running state goes on running -/
theorem inv_goto {s : State} {op ph ph' dp' i} (h : Inv s) (hf : s.fsm = .run op ph) (hi :
    decodeOp op = .instr i)
   (hp : (s.goto op ph' dp').phaseOk i ph') (hr : (s.goto op ph' dp').RangesOk) : Inv
       (s.goto op ph' dp') := by
  have hE := h.engine
  simp only [State.engineOk, hf] at hE
  obtain ⟨i', hi', hpre, hph, hra⟩ := hE.command
  rw [hi] at hi'; cases hi'
  refine ⟨h.mem, h.platform, h.notBoth, h.ecode, h.errAddr, ?_, hr⟩
  simp only [State.engineOk, State.goto_fsm]
  refine ⟨hE.busy, hE.done, hE.err, hE.lastop, hE.notReset, i, hi, ?_, hp, hra⟩
  rw [← hpre]; apply preCheck_congr <;> rfl


/-- The first byte of what is left of a stream. -/
theorem dataTail_putOk {dp : Datapath} (hpos : dp.pos < 64) (ht : dp.tail = dataTail dp.segs) :
    dp.putOk := by
  refine ⟨hpos, ?_⟩
  rw [ht]; unfold dataTail
  by_cases h : streamLen dp.segs = 0 <;> simp [h]; omega

/-- A stream that starts. -/
theorem startStream_putOk (dp : Datapath) (segs) : (dp.startStream segs).putOk :=
  dataTail_putOk (by simp [Datapath.startStream]) rfl

/-- A stream that starts keeps the ranges. -/
theorem startStream_ranges {s : State} {op ph dp} (segs) (h : (s.goto op ph dp).RangesOk) :
    (s.goto op ph (dp.startStream segs)).RangesOk :=
  ⟨h.t, h.w, by simp [Datapath.startStream], h.node, h.nodeBytes, by simp [Datapath.startStream]⟩

/-- R172, the first line of HashStream. -/
theorem inv_startStream {s : State} {op ph dp i segs} (h : Inv s) (hf : s.fsm = .run op ph) (hi :
    decodeOp op = .instr i)
   (hw : (s.goto op .put dp).wrapperOk i) (hr : (s.goto op .put dp).RangesOk) : Inv
       (s.goto op .put (dp.startStream segs)) := by
  refine inv_goto h hf hi ⟨startStream_putOk _ _, ?_⟩ (startStream_ranges _ hr)
  cases i <;> exact hw

/-- R172, PutByte. -/
theorem inv_putByte {s : State} {op b segs n tail i} (h : Inv s) (hf : s.fsm = .run op .put) (hi :
    decodeOp op = .instr i)
   (hok : s.dp.pos < 64) (hw : s.wrapperOk i)
   (ht : match tail with
         | .data => 0 < streamLen segs
         | .term => True
         | .zero => s.dp.pos + 1 ≠ 56
         | .len j => j < 8 ∧ s.dp.pos + 1 = 56 + j
         | .done => s.dp.pos + 1 = 64)
   (hn : s.dp.bitlen = BitVec.ofNat 64 (8 * (n + streamLen segs))) : Inv
       (s.putByte op b segs n tail) := by
  have hr := h.ranges
  unfold State.putByte
  have hranges : ∀ ph, (s.goto op ph
      { s.dp with
        blk := setBlockByte s.dp.blk s.dp.pos b
        pos := s.dp.pos + 1
        segs := segs
        consumed := n
        tail := tail }).RangesOk :=
    fun ph => ⟨hr.t, hr.w, by simpa using by omega, hr.node, hr.nodeBytes, hn⟩
  by_cases h64 : s.dp.pos + 1 = 64
  · rw [if_pos h64]
    refine inv_goto h hf hi (.inr ⟨⟨h64, ?_⟩, ?_⟩) (hranges _)
    · cases tail <;> simp_all; omega
    · cases i <;> exact hw
  · rw [if_neg h64]
    refine inv_goto h hf hi ⟨⟨by simpa using by omega, ?_⟩, ?_⟩ (hranges _)
    · cases tail <;> simp_all
    · cases i <;> exact hw

/-- R172, BYTE and PAD. -/
theorem inv_microPut {s t : State} {op i} (h : Inv s) (hf : s.fsm = .run op .put) (hi :
    decodeOp op = .instr i)
   (hok : s.dp.putOk) (hw : s.wrapperOk i) (ht : s.microPut op = .next t) : Inv t := by
  obtain ⟨hpos, htail⟩ := hok
  unfold State.microPut at ht
  have hdata : ∀ segs, (match dataTail segs with
         | .data => 0 < streamLen segs
         | .term => True
         | .zero => s.dp.pos + 1 ≠ 56
         | .len j => j < 8 ∧ s.dp.pos + 1 = 56 + j
         | .done => s.dp.pos + 1 = 64) := by
    intro segs; unfold dataTail; by_cases h0 : streamLen segs = 0 <;> simp [h0]; omega
  have hfill : (match fillTail (s.dp.pos + 1) with
         | .data => 0 < streamLen s.dp.segs
         | .term => True
         | .zero => s.dp.pos + 1 ≠ 56
         | .len j => j < 8 ∧ s.dp.pos + 1 = 56 + j
         | .done => s.dp.pos + 1 = 64) := by
    unfold fillTail; by_cases h0 : (s.dp.pos + 1) % 64 = 56 <;> simp [h0] <;> omega
  have hcount : ∀ {src rest}, s.dp.tail = .data → popByte s.dp.segs = some (src, rest) →
      s.dp.bitlen = BitVec.ofNat 64 (8 * (s.dp.consumed + 1 + streamLen rest)) := by
    intro src rest hd hpop
    rw [hd] at htail
    obtain ⟨_, _, e, hlen, -⟩ := popByte_some s htail
    rw [hpop] at e; cases e
    rw [h.ranges.counted, hlen]
    congr 2; omega
  split at ht
  · rename_i hd
    split at ht
    · cases ht; exact h
    · rename_i hpop; cases ht; exact inv_putByte h hf hi hpos hw (hdata _) (hcount hd hpop)
    · rename_i hpop
      refine inv_withRead ?_ ?_ ht
      · intro a
        have hE := h.engine
        simp only [State.engineOk, hf] at hE
        refine Inv.mkIdle ?_ ?_ ?_ ?_ ?_ ?_ ?_ ?_ (ranges_unspecified _ (by simp)) <;> simp [h.mem,
            h.platform, hE.done]
      · intro b hb; cases hb; exact inv_putByte h hf hi hpos hw (hdata _) (hcount hd hpop)
  · cases ht; exact inv_putByte h hf hi hpos hw hfill h.ranges.counted
  · cases ht; exact inv_putByte h hf hi hpos hw hfill h.ranges.counted
  · rename_i j hj
    cases ht
    refine inv_putByte h hf hi hpos hw ?_ h.ranges.counted
    rw [hj] at htail
    unfold lenTail
    by_cases h7 : j = 7 <;> simp [h7] <;> simp at htail <;> omega
  · cases ht; exact h

/-- R111: one opcode for each command. -/
theorem decodeOp_eq {op : BitVec 4} {i : Instr} : decodeOp op = .instr i → op = opcode i := by
  cases i <;> revert op <;> decide

/-- R172, FEED, and what the command does with a digest. -/
theorem inv_microFeed {s : State} {op i} (h : Inv s) (hf : s.fsm = .run op .feed) (hi :
    decodeOp op = .instr i)
   (hok : s.phaseOk i .feed) : Inv (s.microFeed op) := by
  obtain ⟨ht, hw, hc⟩ := hok
  have hr := h.ranges
  have hE := h.engine
  simp only [State.engineOk, hf] at hE
  obtain ⟨i', hi', hpre, hph, hra⟩ := hE.command
  rw [hi] at hi'; cases hi'
  unfold State.microFeed
  by_cases hcomp : op = opcode .compress
  · rw [if_pos hcomp]
    exact inv_goto h hf hi trivial ⟨hr.t, hr.w, hr.pos, hr.node, hr.nodeBytes, hr.counted⟩
  · rw [if_neg hcomp]
    have hic : i ≠ .compress := by
      rintro rfl
      exact hcomp (decodeOp_eq hi)
    obtain ⟨⟨hp64, htl⟩, hwr⟩ := hc.resolve_left hic
    split
    · -- done
      unfold State.streamDone
      cases i with
      | init => exact hwr.elim
      | compress => exact absurd rfl hic
      | hash =>
        simp only [hi]
        exact inv_goto h hf hi trivial ⟨hr.t, hr.w, by simp, hr.node, hr.nodeBytes, hr.counted⟩
      | hmac =>
        simp only [hi]
        unfold State.hmacStreamDone
        simp only
        split
        · exact inv_goto h hf hi ⟨rfl, by simp [ser_length]⟩ ⟨hr.t, hr.w, by simp, hr.node,
            hr.nodeBytes, hr.counted⟩
        · rename_i hph1
          refine inv_startStream h hf hi ?_ ⟨hr.t, hr.w, by simp, hr.node, hr.nodeBytes, hr.counted⟩
          intro _
          exact hwr (by simp_all)
        · exact inv_goto h hf hi trivial ⟨hr.t, hr.w, by simp, hr.node, hr.nodeBytes, hr.counted⟩
      | merkle =>
        simp only [hi]
        have hcap :
            paddedCount s.itemCount.toNat ≤ s.platform.nodeCap.toNat ∧ s.itemCount.toNat ≠ 0 := by
          simp only [State.preCheck] at hpre
          split at hpre
          · cases hpre
          · split at hpre
            · cases hpre
            · exact ⟨by omega, by assumption⟩
        unfold State.merkleStreamDone
        simp only [State.wrapperOk] at hwr
        simp only
        have hpc : paddedCount s.itemCount.toNat % 2 = 0 ∧ 2 ≤ paddedCount s.itemCount.toNat := by
          unfold paddedCount; omega
        have hhead : ∀ dp : Datapath,
            dp.node.length = dp.m → dp.stage = .reduce → 0 < dp.m → dp.m ≤ paddedCount s.itemCount.toNat →
            (dp.m % 2 = 1 → dp.m < paddedCount s.itemCount.toNat) →
            dp.t ≤ 64 → dp.w.length ≤ 64 → dp.pos ≤ 64 → (∀ d ∈ dp.node, d.length = 32) →
            dp.bitlen = BitVec.ofNat 64 (8 * (dp.consumed + streamLen dp.segs)) → Inv
                (s.reduceHead op dp) := by
          intro dp h1 h2 h3 h4 h5 h6 h7 h8 h9 h10
          have hrr : ∀ ph dp',
              dp'.node = dp.node → dp'.t = dp.t → dp'.w = dp.w → dp'.pos = dp.pos →
              dp'.bitlen = dp.bitlen → dp'.consumed = dp.consumed → dp'.segs = dp.segs →
                  (s.goto op ph dp').RangesOk := by
            intro ph dp' e1 e2 e3 e4 e5 e6 e7
            exact ⟨by simp [e2, h6], by simp [e3, h7], by simp [e4, h8], by simp [e1, h1]; omega,
                by simp [e1]; exact h9, by simp only [State.goto_dp, e5, e6, e7, h10]⟩
          unfold State.reduceHead
          split
          · exact inv_goto h hf hi trivial (hrr _ _ rfl rfl rfl rfl rfl rfl rfl)
          · split
            · exact inv_goto h hf hi ⟨rfl, h2, h1, by assumption, by simp; omega,
                by simpa using h5 (by assumption)⟩ (hrr _ _ rfl rfl rfl rfl rfl rfl rfl)
            · unfold State.startPair
              refine inv_startStream h hf hi ?_ (hrr _ _ rfl rfl rfl rfl rfl rfl rfl)
              simp only [State.wrapperOk, State.goto_dp, h2, State.goto_itemCount]
              exact ⟨h1, by omega, by omega, h4⟩
        have hnode : ∀ d ∈ s.dp.node, d.length = 32 := hr.nodeBytes
        split
        · rename_i hst
          simp only [hst] at hwr
          split
          · unfold State.startLeaf
            refine inv_startStream h hf hi ?_ ⟨hr.t, hr.w, by simp, ?_, ?_, hr.counted⟩
            · simp [State.wrapperOk, hst]; omega
            · simp; omega
            · simp only [State.goto_dp, List.mem_append, List.mem_singleton]
              rintro d (hd | rfl)
              · exact hnode d hd
              · exact ser_length _
          · apply hhead
            · simp; omega
            · rfl
            · simp; omega
            · simp
            · simp; omega
            · exact hr.t
            · exact hr.w
            · simp
            · simp only [List.mem_append, List.mem_singleton]
              rintro d (hd | rfl)
              · exact hnode d hd
              · exact ser_length _
            · exact hr.counted
        · rename_i hst
          simp only [hst] at hwr
          obtain ⟨w1, w2, w3, w4⟩ := hwr
          have hset : ∀ d ∈ s.dp.node.set s.dp.p (ser (addWords8 s.dp.cv s.dp.vars)),
              d.length = 32 := by
            intro d hd
            rcases List.mem_or_eq_of_mem_set hd with hd | rfl
            · exact hnode d hd
            · exact ser_length _
          split
          · unfold State.startPair
            refine inv_startStream h hf hi ?_ ⟨hr.t, hr.w, by simp, by simpa using hr.node, hset,
              hr.counted⟩
            simp [State.wrapperOk, hst]; omega
          · apply hhead
            · simp; omega
            · exact hst
            · simp; omega
            · simp; omega
            · simp; omega
            · exact hr.t
            · exact hr.w
            · simp
            · intro d hd
              exact hset d (List.mem_of_mem_take hd)
            · exact hr.counted
    · rename_i hnd
      refine inv_goto h hf hi ⟨⟨by simp, ?_⟩, ?_⟩ ⟨hr.t, hr.w, by simp, hr.node, hr.nodeBytes, hr.counted⟩
      · cases hh : s.dp.tail <;> simp_all
      · cases i <;> exact hwr

/-- R180: a micro-step keeps the invariant. -/
theorem inv_microStep {s t : State} (h : Inv s) (ht : s.microStep = .next t) : Inv t := by
  have hr := h.ranges
  have hE := h.engine
  unfold State.microStep at ht
  cases hf : s.fsm with
  | idle => simp only [hf] at ht; cases ht; exact h
  | run op ph =>
    simp only [State.engineOk, hf] at hE
    obtain ⟨i, hi, hpre, hph, hra⟩ := hE.command
    have hraise : ∀ a, Inv (s.raise .busError a) := by
      intro a
      refine Inv.mkIdle ?_ ?_ ?_ ?_ ?_ ?_ ?_ ?_ (ranges_unspecified _ (by simp)) <;> simp [h.mem,
          h.platform, hE.done]
    cases ph with
    | initLoad => simp only [hf] at ht; cases ht; exact inv_goto h hf hi trivial ⟨hr.t, hr.w,
        hr.pos, hr.node, hr.nodeBytes, hr.counted⟩
    | put => simp only [hf] at ht; exact inv_microPut h hf hi hph.1 hph.2 ht
    | load =>
      simp only [hf] at ht; cases ht
      unfold State.microLoad
      refine inv_goto h hf hi ⟨by simp, by simp; split <;> simp, ?_⟩ ⟨by simp,
          by simp; split <;> simp, hr.pos, hr.node, hr.nodeBytes, hr.counted⟩
      rcases hph with hph | ⟨h1, h2⟩
      · exact .inl hph
      · exact .inr ⟨h1, by cases i <;> exact h2⟩
    | round =>
      simp only [hf] at ht; cases ht
      obtain ⟨ht64, hw, hc⟩ := hph
      have hlen :
          (if s.dp.t ≥ 16 then s.dp.w ++ [scheduleWord s.dp.w] else s.dp.w).length = max 16
              (s.dp.t + 1) := by
        split <;> (try simp only [List.length_append, List.length_singleton]) <;> omega
      have hc' : ∀ ph dp',
          dp'.segs = s.dp.segs → dp'.pos = s.dp.pos → dp'.tail = s.dp.tail → dp'.hmacPhase = s.dp.hmacPhase →
          dp'.k0 = s.dp.k0 → dp'.stage = s.dp.stage → dp'.node = s.dp.node → dp'.m = s.dp.m → dp'.p = s.dp.p →
          (i = .compress ∨ ((s.goto op ph dp').dp.blockOk ∧ (s.goto op ph dp').wrapperOk i)) := by
        intro ph dp' e1 e2 e3 e4 e5 e6 e7 e8 e9
        rcases hc with hc | ⟨h1, h2⟩
        · exact .inl hc
        · refine .inr ⟨?_, ?_⟩
          · simpa [Datapath.blockOk, e1, e2, e3] using h1
          · cases i <;> simp [State.wrapperOk, e4, e5, e6, e7, e8, e9] at h2 ⊢ <;> exact h2
      unfold State.microRound
      simp only
      by_cases h63 : s.dp.t + 1 = 64
      · rw [if_pos h63]
        refine inv_goto h hf hi ⟨by simp; omega, by simp only [State.goto_dp]; omega,
            hc' _ _ rfl rfl rfl rfl rfl rfl rfl rfl rfl⟩
          ⟨by simp; omega, by simp only [State.goto_dp]; omega, hr.pos, hr.node, hr.nodeBytes, hr.counted⟩
      · rw [if_neg h63]
        refine inv_goto h hf hi ⟨by simp; omega, by simp only [State.goto_dp]; omega,
            hc' _ _ rfl rfl rfl rfl rfl rfl rfl rfl rfl⟩
          ⟨by simp; omega, by simp only [State.goto_dp]; omega, hr.pos, hr.node, hr.nodeBytes, hr.counted⟩
    | feed => simp only [hf] at ht; cases ht; exact inv_microFeed h hf hi hph
    | keyByte =>
      simp only [hf] at ht
      obtain ⟨rfl, h1, h2⟩ := hph
      unfold State.microKeyByte at ht
      refine inv_withRead hraise ?_ ht
      intro b hb; cases hb
      split
      · refine inv_goto h hf hi ⟨rfl, by simp; omega⟩ ⟨hr.t, hr.w, hr.pos, hr.node, hr.nodeBytes, hr.counted⟩
      · refine inv_goto h hf hi ⟨rfl, by simp; omega, h2⟩ ⟨hr.t, hr.w, hr.pos, hr.node,
            hr.nodeBytes, hr.counted⟩
    | keyPad =>
      simp only [hf] at ht; cases ht
      obtain ⟨rfl, h1⟩ := hph
      unfold State.microKeyPad
      refine inv_goto h hf hi ⟨rfl, by simp [zeros]; omega⟩ ⟨hr.t, hr.w, hr.pos, hr.node,
            hr.nodeBytes, hr.counted⟩
    | mask =>
      simp only [hf] at ht; cases ht
      obtain ⟨rfl, h1⟩ := hph
      unfold State.microMask
      refine inv_startStream h hf hi ?_ ⟨hr.t, hr.w, hr.pos, hr.node, hr.nodeBytes, hr.counted⟩
      intro _; exact h1
    | dup =>
      simp only [hf] at ht; cases ht
      obtain ⟨rfl, h1, h2, h3, h4, h5⟩ := hph
      have hcap : paddedCount s.itemCount.toNat ≤ s.platform.nodeCap.toNat := by
        simp only [State.preCheck] at hpre
        split at hpre
        · cases hpre
        · split at hpre
          · cases hpre
          · omega
      unfold State.microDup State.startPair
      refine inv_startStream h hf hi ?_ ⟨hr.t, hr.w, hr.pos, by simp; omega, ?_, hr.counted⟩
      · simp [State.wrapperOk, h1]; omega
      · simp only [State.goto_dp, List.mem_append, List.mem_singleton]
        rintro d (hd | rfl)
        · exact hr.nodeBytes d hd
        · apply hr.nodeBytes
          rw [List.getD_eq_getElem _ _ (by omega)]
          exact List.getElem_mem _
    | complete =>
      simp only [hf] at ht; cases ht
      refine Inv.mkIdle ?_ ?_ ?_ ?_ ?_ ?_ ?_ ?_ (ranges_unspecified _ (by simp)) <;> simp [h.mem,
          h.platform, hE.err]
      · simpa [hE.err] using h.ecode
      · exact h.errAddr


/-- R38: BUSY = 0 means an idle engine. -/
theorem Inv.idle_of_not_busy {s : State} (h : Inv s) (hb : s.status.busy = false) :
    s.fsm = .idle ∧ s.raced = false := by
  have hE := h.engine
  unfold State.engineOk at hE
  cases hf : s.fsm with
  | idle => simp only [hf] at hE; exact ⟨rfl, hE.raced⟩
  | run op ph => simp only [hf] at hE; have := hE.busy; simp_all

/-- R38: BUSY = 1 means a running engine. -/
theorem Inv.run_of_busy {s : State} (h : Inv s) (hb : s.status.busy = true) : ∃ op ph,
    s.fsm = .run op ph ∧ s.RunOk op ph := by
  have hE := h.engine
  unfold State.engineOk at hE
  cases hf : s.fsm with
  | idle => simp only [hf] at hE; have := hE.busy; simp_all
  | run op ph => simp only [hf] at hE; exact ⟨op, ph, rfl, hE⟩

/-- R265: acceptance of a command whose checks pass. -/
theorem inv_launch {s : State} (h : Inv s) (hb : s.status.busy = false) (hrst :
    s.rst = false) {v i} (hd : decode v = .instr i)
    (hp : s.preCheck i = .none) : Inv (s.launch v) := by
  obtain ⟨hidle, hraced⟩ := h.idle_of_not_busy hb
  have hr := h.ranges
  have hop : decodeOp (opField v) = .instr i := by
    unfold decode at hd; split at hd
    · exact hd
    · cases hd
  have hpre : ∀ t : State, t = s.launch v → t.preCheck i = .none := by
    rintro t rfl; rw [← hp]; apply preCheck_congr <;> simp
  refine ⟨by simp [h.mem], by simp [h.platform], by simp, by simp, by simp, ?_, ?_⟩
  · unfold State.engineOk
    have key : ∃ ph, (s.launch v).fsm = .run (opField v) ph ∧ (s.launch v).phaseOk i ph := by
      simp only [State.launch_fsm]
      cases i with
      | init => exact ⟨.initLoad, by simp [State.start, hop], rfl⟩
      | compress => exact ⟨.load, by simp [State.start, hop], .inl rfl⟩
      | hash =>
        refine ⟨.put, by simp [State.start, hop], ?_, trivial⟩
        simp only [State.launch_dp, State.start, hop, State.goto_dp]
        exact startStream_putOk _ _
      | hmac =>
        simp only [State.start, hop, State.startHmac]
        simp only [State.offer_keyLen]
        by_cases h1 : s.keyLen.toNat > 64
        · refine ⟨.put, by simp [h1], ?_, ?_⟩
          · rw [State.launch_dp, State.start, hop]
            simp only [State.startHmac]
            rw [if_pos (by simpa using h1)]
            exact startStream_putOk _ _
          · simp [State.wrapperOk, State.start, hop, State.startHmac, h1, Datapath.startStream]
        · by_cases h2 : s.keyLen.toNat = 0
          · refine ⟨.keyPad, by simp [h2], rfl, ?_⟩
            simp [State.start, hop, State.startHmac, h2]
          · refine ⟨.keyByte, by simp [h1, h2], rfl, ?_, by simpa using h1⟩
            simp [State.start, hop, State.startHmac, h1, h2]
            omega
      | merkle =>
        refine ⟨.put, by simp [State.start, hop, State.startLeaf], ?_, ?_⟩
        · simp only [State.launch_dp, State.start, hop, State.startLeaf, State.goto_dp]
          exact startStream_putOk _ _
        · simp [State.wrapperOk, State.start, hop, State.startLeaf, Datapath.startStream]
          simp only [State.preCheck] at hp
          split at hp
          · cases hp
          · unfold paddedCount; omega
    obtain ⟨ph, hf, hph⟩ := key
    rw [hf]
    exact ⟨by simp, by simp, by simp, by simp, by simpa using hrst, i, hop, hpre _ rfl, hph,
        by simp [hraced]⟩
  · have : ∀ dp, (dp = s.dp ∨ (∃ k0, dp = {s.dp with k0 := k0}) ∨ (∃ segs,
      dp = s.dp.startStream segs) ∨ (∃ segs hp', dp = ({s.dp with hmacPhase := hp'} :
          Datapath).startStream segs) ∨ (∃ segs, dp = ({s.dp with node := [], stage := .leaf} :
              Datapath).startStream segs)) →
       dp.t ≤ 64 ∧ dp.w.length ≤ 64 ∧ dp.pos ≤ 64 ∧ dp.node.length ≤ s.platform.nodeCap.toNat ∧
         (∀ d ∈ dp.node, d.length = 32) ∧
         dp.bitlen = BitVec.ofNat 64 (8 * (dp.consumed + streamLen dp.segs)) := by
      rintro dp (rfl | ⟨_, rfl⟩ | ⟨_, rfl⟩ | ⟨_, _, rfl⟩ | ⟨_, rfl⟩)
      · exact ⟨hr.t, hr.w, hr.pos, hr.node, hr.nodeBytes, hr.counted⟩
      · exact ⟨hr.t, hr.w, hr.pos, hr.node, hr.nodeBytes, hr.counted⟩
      · exact ⟨hr.t, hr.w, by simp [Datapath.startStream], hr.node, hr.nodeBytes,
          by simp [Datapath.startStream]⟩
      · exact ⟨hr.t, hr.w, by simp [Datapath.startStream], hr.node, hr.nodeBytes,
          by simp [Datapath.startStream]⟩
      · exact ⟨hr.t, hr.w, by simp [Datapath.startStream], by simp [Datapath.startStream],
          by simp [Datapath.startStream], by simp [Datapath.startStream]⟩
    obtain ⟨a, b, c, d, e, g⟩ := this (s.launch v).dp (by
      simp only [State.launch_dp]
      cases i <;> simp only [State.start, hop, State.startHmac, State.startLeaf]
      · left; rfl
      · left; rfl
      · right; right; left; exact ⟨_, rfl⟩
      · split
        · right; right; right; left; exact ⟨_, _, rfl⟩
        · split
          · right; left; exact ⟨_, rfl⟩
          · right; left; exact ⟨_, rfl⟩
      · right; right; right; right; exact ⟨_, rfl⟩)
    exact ⟨a, b, c, by simpa using d, e, g⟩

/-- R265: the offer of any command word. -/
theorem inv_accept {s : State} (h : Inv s) (hb : s.status.busy = false) (hrst : s.rst = false)
    (v) : Inv (s.accept v) := by
  obtain ⟨hidle, hraced⟩ := h.idle_of_not_busy hb
  have hrej : ∀ e, e ≠ .none → Inv ((s.offer v).reject e) := by
    intro e he
    refine Inv.mkIdle ?_ ?_ ?_ ?_ ?_ ?_ ?_ ?_ ?_ <;> try simp [h.mem, h.platform, he, hraced]
    exact ⟨h.ranges.t, h.ranges.w, h.ranges.pos, h.ranges.node, h.ranges.nodeBytes, h.ranges.counted⟩
  unfold State.accept State.preCheckWord
  cases hd : decode v with
  | illegal why => exact hrej _ (by simp)
  | instr i =>
    simp only
    split
    · rename_i hp; exact inv_launch h hb hrst hd hp
    · rename_i e he; exact hrej _ he

/-- changing a field that the engine does not look at while idle -/
theorem inv_of_idle_change {s t : State} (h : Inv s) (hb : s.status.busy = false)
    (h1 : t.status = s.status) (h2 : t.mem = s.mem) (h3 : t.platform = s.platform)
    (h4 : t.fsm = s.fsm) (h5 : t.dp = s.dp) (h6 : t.raced = s.raced) (h7 : t.errAddr = s.errAddr) :
    Inv t := by
  obtain ⟨hidle, hraced⟩ := h.idle_of_not_busy hb
  have he : t.status.ecode ≠ .busError → t.errAddr = 0 := by
    rw [h1, h7]
    exact h.errAddr
  refine Inv.mkIdle (h2 ▸ h.mem) (h3 ▸ h.platform) (h1 ▸ h.notBoth) (h1 ▸ h.ecode) he (h4 ▸ hidle)
    (h1 ▸ hb) (h6 ▸ hraced) ⟨h5 ▸ h.ranges.t, h5 ▸ h.ranges.w, h5 ▸ h.ranges.pos, ?_, ?_, h5 ▸ h.ranges.counted⟩
  · rw [h5, h3]
    exact h.ranges.node
  · rw [h5]
    exact h.ranges.nodeBytes

/-- R340, R342. -/
theorem inv_blockReset {s : State} (h : Inv s) (b : Bool) : Inv { s.blockReset with rst := b } := by
  refine Inv.mkIdle ?_ ?_ ?_ ?_ ?_ ?_ ?_ ?_ (ranges_unspecified _ rfl) <;> simp [h.mem, h.platform,
      Status.cleared]

/-- a change of the flags, ie, memory and race mark that fits -/
theorem inv_flags {s : State} (h : Inv s) (f : Status) (ie : Bool) (ea : Word) (m : Memory)
    (rc rst : Bool) (hm : Memory.wf m = true) (hb : f.busy = s.status.busy) (hl :
        f.lastop = s.status.lastop)
  (hd : f.done = true → s.status.done = true) (he : f.err = true → s.status.err = true)
  (hcode : f.err = false ↔ f.ecode = .none) (hea : f.ecode ≠ .busError → ea = 0)
  (hrst : rst = s.rst ∨ rst = false)
  (hrc : rc = s.raced ∨ (rc = true ∧ ∃ op ph i,
      s.fsm = .run op ph ∧ decodeOp op = .instr i ∧ i ≠ .init ∧ i ≠ .compress)) :
  Inv { s with status := f, ie := ie, errAddr := ea, mem := m, raced := rc, rst := rst } := by
  have hE := h.engine
  refine ⟨hm, h.platform, fun ⟨a, b⟩ => h.notBoth ⟨hd a, he b⟩, hcode, hea, ?_, ⟨h.ranges.t,
      h.ranges.w, h.ranges.pos, h.ranges.node, h.ranges.nodeBytes, h.ranges.counted⟩⟩
  unfold State.engineOk at hE ⊢
  cases hf : s.fsm with
  | idle =>
    simp only [hf] at hE ⊢
    refine ⟨hb.trans hE.busy, ?_⟩
    rcases hrc with hrc | ⟨-, op, ph, i, h1, -⟩
    · exact hrc.trans hE.raced
    · rw [hf] at h1; cases h1
  | run op ph =>
    simp only [hf] at hE ⊢
    obtain ⟨i, hi, hp, hph, hr⟩ := hE.command
    refine ⟨hb.trans hE.busy, ?_, ?_, hl.trans hE.lastop, ?_, i, hi, ?_, ?_, ?_⟩
    · by_contra hc; have := hd (by simpa using hc); simp [hE.done] at this
    · by_contra hc; have := he (by simpa using hc); simp [hE.err] at this
    · rcases hrst with rfl | rfl
      · exact hE.notReset
      · rfl
    · rw [← hp]; apply preCheck_congr <;> rfl
    · refine (phaseOk_congr i ph ?_ ?_ ?_).2 hph <;> rfl
    · intro hrct
      rcases hrc with hrc | ⟨-, op', ph', i', h1, h2, h3, h4⟩
      · exact hr (by simpa [hrc] using hrct)
      · rw [hf] at h1; cases h1; rw [hi] at h2; cases h2; exact ⟨h3, h4⟩

/-- R263: a register write. -/
theorem inv_writeReg {s : State} (h : Inv s) (hrst : s.rst = false) (r v) : Inv
    (s.writeReg r v) := by
  have hctrl : Inv (s.writeCtrl v) := by
    unfold State.writeCtrl; split
    · exact inv_blockReset h s.rst
    · exact inv_flags h s.status
        (v.getLsbD 0) s.errAddr s.mem s.raced s.rst h.mem rfl rfl id id h.ecode h.errAddr
            (.inl rfl) (.inl rfl)
  have hstat : Inv (s.writeStatus v) := by
    unfold State.writeStatus
    refine inv_flags h _ s.ie _ s.mem s.raced s.rst h.mem rfl rfl ?_ ?_ ?_ ?_ (.inl rfl) (.inl rfl)
    · simp; intro a _; exact a
    · simp; intro a _; exact a
    · have := h.ecode
      cases h2 : v.getLsbD 2 <;> simp; exact this
    · have := h.errAddr
      cases h2 : v.getLsbD 2 <;> simp; exact this
  have hdrop : Inv s.dropWrite := by
    unfold State.dropWrite
    exact inv_flags h _ s.ie s.errAddr s.mem s.raced s.rst h.mem rfl rfl id id h.ecode h.errAddr
        (.inl rfl) (.inl rfl)
  by_cases hb : s.status.busy = true
  · cases r <;> simp only [State.writeReg, hb] <;> first | exact hctrl | exact hstat | exact hdrop
  · have hb' : s.status.busy = false := by simpa using hb
    cases r <;> simp only [State.writeReg, hb', State.writeIdle] <;>
      first | exact hctrl | exact hstat | exact h | exact inv_accept h hb' hrst v | exact inv_of_idle_change h hb' rfl rfl rfl rfl rfl rfl rfl

/-- R260: a register read. -/
theorem inv_readReg {s : State} (h : Inv s) (r) : Inv (s.readReg r) := by
  unfold State.readReg; split
  · exact inv_bus h s.schedule _ _
  · exact inv_bus h s.schedule _ s.draws

/-- R340: no access while the reset input is asserted. -/
theorem selectReg_ok {s : State} {addr size r} (h : s.selectReg addr size = .ok r) :
    s.rst = false := by
  unfold State.selectReg at h
  split at h
  · cases h
  · rename_i hh; simpa using hh

/-- R117 RD. -/
theorem inv_busRead {s t : State} (h : Inv s) {addr size} (ht : s.busRead addr size = .next t) :
    Inv t := by
  unfold State.busRead at ht; split at ht
  · cases ht; exact inv_readReg h _
  · cases ht

/-- R117 WR. -/
theorem inv_busWrite {s t : State} (h : Inv s) {addr size v} (ht :
    s.busWrite addr size v = .next t) : Inv t := by
  unfold State.busWrite at ht; split at ht
  · rename_i r hr; cases ht; exact inv_writeReg h (selectReg_ok hr) _ _
  · cases ht

/-- R80, R95: a write of memory. -/
theorem inv_writeMem {s t : State} (h : Inv s) {a b} (ht : s.writeMem a b = .next t) : Inv t := by
  unfold State.writeMem at ht; split at ht
  · cases ht
    refine inv_flags h s.status s.ie s.errAddr _ _ s.rst (Memory.wf_set b h.mem
        (by assumption)) rfl rfl id id h.ecode h.errAddr (.inl rfl) ?_
    by_cases hr : s.runningReads a = true
    · right
      refine ⟨by simp [hr], ?_⟩
      unfold State.runningReads at hr
      split at hr
      · cases hr
      · rename_i op ph hf
        split at hr
        · cases hr
        · rename_i i hi
          refine ⟨op, ph, i, hf, hi, ?_, ?_⟩ <;> rintro rfl <;> simp [State.inReadSet] at hr
    · left; simp at hr; simp [hr]
  · cases ht

end Sys2Proof.Machine
end

