-- ==== Sys2Proof/Tests/Slice0.lean ====
section
/-!
SUPPORT. Tests and witnesses.

The expected values of the tests come from spec/95_test_vectors.md, whose section or program each
docstring names.  The witnesses show, for every obligation with hypotheses, a concrete state and
operands that meet them.
-/

namespace Sys2Proof.Tests

open Sys2Proof Sys2Proof.Machine

/-! ### Helpers -/

/-- The state an outcome goes on in. -/
def after : Host.Outcome State Fault Refusal → Option State
  | .next s => some s
  | .fault _ => none
  | .refused _ => none

theorem next_of_after {o : Host.Outcome State Fault Refusal} (h : (after o).isSome = true) :
    ∃ t, o = .next t := by
  cases o with
  | next t => exact ⟨t, rfl⟩
  | fault _ => cases h
  | refused _ => cases h

theorem next_with {p : State → Prop} [DecidablePred p] {o : Host.Outcome State Fault Refusal}
    (h : (after o).any (fun t => decide (p t)) = true) : ∃ t, o = .next t ∧ p t := by
  cases o with
  | next t => exact ⟨t, rfl, of_decide_eq_true h⟩
  | fault _ => cases h
  | refused _ => cases h

/-- The reason an outcome is refused for. -/
def whyRefused : Host.Outcome State Fault Refusal → Option Refusal
  | .next _ => none
  | .fault _ => none
  | .refused r => some r

/-- Bytes placed in memory from `base` on; none of them is 0. -/
def cells (base : Nat) (bytes : List Nat) : Memory :=
  (List.range bytes.length).map fun i => (base + i, BitVec.ofNat 8 (bytes.getD i 0))

/-- An idle instance with the message "abc" (section 12, P2). -/
def abcState : State :=
  { State.reset with msgAddr := 0x1000, msgLenLo := 3, mem := cells 0x1000 [0x61, 0x62, 0x63] }

/-- An idle instance with a one-byte message at the top of memory (section 12, P10). -/
def topState : State := { State.reset with msgAddr := 0xFFFFFFFF, msgLenLo := 1 }

/-- An idle instance with the key "key" and the fox message (section 12, P4). -/
def foxState : State :=
  { State.reset with
    keyAddr := 0x2000, keyLen := 3, msgAddr := 0x3000, msgLenLo := 43
    mem := cells 0x2000 [0x6b, 0x65, 0x79] ++
      cells 0x3000
        ([0x54, 0x68, 0x65, 0x20, 0x71, 0x75, 0x69, 0x63, 0x6b, 0x20, 0x62, 0x72, 0x6f, 0x77, 0x6e,
          0x20, 0x66, 0x6f, 0x78, 0x20, 0x6a, 0x75, 0x6d, 0x70, 0x73, 0x20, 0x6f, 0x76, 0x65, 0x72] ++
         [0x20, 0x74, 0x68, 0x65, 0x20, 0x6c, 0x61, 0x7a, 0x79, 0x20, 0x64, 0x6f, 0x67]) }

/-- An idle instance with a 65-byte key 00 01 .. 40 and the message "abc" (section 7, K65). -/
def longKeyState : State :=
  { abcState with
    keyAddr := 0x2000, keyLen := 65
    mem := cells 0x1000 [0x61, 0x62, 0x63] ++ cells 0x2001 ((List.range 64).map (· + 1)) }

/-- An idle instance with the items 00 × 32, 01 × 32, 02 × 32 (section 12, P5). -/
def itemsState : State :=
  { State.reset with
    itemAddr := 0x4000, itemCount := 3
    mem := cells 0x4020 (List.replicate 32 1 ++ List.replicate 32 2) }

/-- The platform admits addresses below 0x5002 only (section 12, P8); every buffer ends above. -/
def edgeState : State :=
  { State.resetOn { regBase := 0, nodeCap := 8, regions := [⟨0, 0x5002, false⟩] } with
    msgAddr := 0x5000, msgLenLo := 4, keyAddr := 0x5001, keyLen := 2, itemAddr := 0x5002
    itemCount := 1 }

/-- The reads of the addresses from 0x5001 on have side effects; every buffer reaches them. -/
def sideState : State :=
  { State.resetOn
      { regBase := 0x100, nodeCap := 8, regions := [⟨0, 0x5001, false⟩, ⟨0x5001, 0x1000, true⟩] } with
    msgAddr := 0x5000, msgLenLo := 2, keyAddr := 0x5001, keyLen := 1, itemAddr := 0x4FE1
    itemCount := 2 }

/-- The engine has just accepted HASH of "abc". -/
def busyState : State := abcState.writeReg .cmd 0x00000003

/-- The same, with the host waiting for the end. -/
def waitState : State := { busyState with schedule := [.host .wait] }

/-- The chaining state of section 12, P3 after its first block. -/
def midState : Words8 :=
  { a := 0x85E655D6, b := 0x417A1795, c := 0x3363376A, d := 0x624CDE5C
    e := 0x76E09589, f := 0xCAC5F811, g := 0xCC4B32C1, h := 0xF20E533A }

/-- An idle instance with the padded block of "abc" in BLK (section 12, P1). -/
def blockState : State :=
  { State.reset with
    blk := #v[0x61626380, 0, 0, 0, 0, 0, 0, 0, 0, 0, 0, 0, 0, 0, 0, 0x18] }

/-! ### Well-formedness refuses -/

/-- R110: a reserved bit. -/
theorem test_reserved_bit_refused :
    reservedBitsZero 0x00000013 = false ∧ commandWordWellFormed 0x00000013 = false ∧
      reservedBitsZero 0x80000001 = false ∧ commandWordWellFormed 0x80000001 = false := by decide

/-- R112: an undefined opcode. -/
theorem test_undefined_opcode_refused :
    opcodeDefined 0x00000000 = false ∧ commandWordWellFormed 0x00000000 = false ∧
      opcodeDefined 0x00000006 = false ∧ commandWordWellFormed 0x00000006 = false := by decide

/-- R86: an access of another width, off alignment, or outside the block. -/
theorem test_malformed_access_refused :
    accessIsWord 2 = false ∧ accessWellFormed 0x00C 2 = false ∧
    accessIsAligned 0x00E = false ∧ accessWellFormed 0x00E 4 = false ∧
    accessIsInBlock 0x100 = false ∧ accessWellFormed 0x100 4 = false := by decide

/-- R86, R81, R340 on the bus. -/
theorem test_bus_refusals :
    whyRefused (State.reset.busWrite 0x00C 1 1) = some (.malformedAccess 0x00C 1) ∧
    whyRefused (State.reset.busRead 0x00E 4) = some (.malformedAccess 0x00E 4) ∧
    whyRefused (State.reset.busRead 0x100 4) = some (.outsideRegisterSpace 0x100) ∧
    whyRefused (State.reset.assertReset.busRead 0x010 4) = some .accessDuringReset := by decide

/-! ### Decoding, word by word (30_encoding.md R111: 28 reserved zero bits, then OP) -/

theorem test_decode_init :
    decode 0b0000000000000000000000000000_0001 = .instr .init ∧
      decodeTableWord 32 0b0001 = some .init := by decide

theorem test_decode_compress :
    decode 0b0000000000000000000000000000_0010 = .instr .compress ∧
      decodeTableWord 32 0b0010 = some .compress := by decide

theorem test_decode_hash :
    decode 0b0000000000000000000000000000_0011 = .instr .hash ∧
      decodeTableWord 32 0b0011 = some .hash := by decide

theorem test_decode_hmac :
    decode 0b0000000000000000000000000000_0100 = .instr .hmac ∧
      decodeTableWord 32 0b0100 = some .hmac := by decide

theorem test_decode_merkle :
    decode 0b0000000000000000000000000000_0101 = .instr .merkle ∧
      decodeTableWord 32 0b0101 = some .merkle := by decide

/-- Section 10, the illegal words. -/
theorem test_decode_illegal :
    decode 0x00000000 = .illegal .undefinedOpcode ∧ decode 0x0000000F = .illegal .undefinedOpcode ∧
    decode 0x00000013 = .illegal .reservedBitSet ∧ decodeTableWord 32 0x13 = none := by decide

/-! ### The commands -/

/-- Section 10: INIT ends with STATUS 0x00001002 (section 2.4 of 40_primitives.md for the IV). -/
theorem test_init :
    (after (exec .init { blockState with h := midState })).map (fun t => (wordAt t.h 0, t.status.toWord))
      = some (0x6a09e667, 0x00001002) := by decide

/-- P1: the block of "abc". -/
theorem test_compress_abc :
    (after (exec .compress blockState)).map (fun t => (t.h, t.status.toWord)) =
      some
        ({ a := 0xba7816bf, b := 0x8f01cfea, c := 0x414140de, d := 0x5dae2223,
           e := 0xb00361a3, f := 0x96177a9c, g := 0xb410ff61, h := 0xf20015ad }, 0x00002002) := by
  decide +kernel

/-- P3: the second block, from a chaining state other than the IV. -/
theorem test_compress_chained :
    (after (exec .compress
        { State.reset with
          h := midState, blk := #v[0, 0, 0, 0, 0, 0, 0, 0, 0, 0, 0, 0, 0, 0, 0, 0x1C0] })).map
        (fun t => t.h) =
      some { a := 0x248D6A61, b := 0xD20638B8, c := 0xE5C02693, d := 0x0C3E6039
             e := 0xA33CE459, f := 0x64FF2167, g := 0xF6ECEDD4, h := 0x19DB06C1 } := by
  decide +kernel

/-- P2: HASH of "abc". -/
theorem test_hash_abc :
    (after (exec .hash abcState)).map (fun t => (t.h, t.status.toWord)) =
      some
        ({ a := 0xba7816bf, b := 0x8f01cfea, c := 0x414140de, d := 0x5dae2223,
           e := 0xb00361a3, f := 0x96177a9c, g := 0xb410ff61, h := 0xf20015ad }, 0x00003002) := by
  decide +kernel

/-- P10: HASH of the byte 00 at the top of memory. -/
theorem test_hash_top_of_memory :
    (after (exec .hash topState)).map (fun t => t.h) =
      some { a := 0x6e340b9c, b := 0xffb37a98, c := 0x9ca544e6, d := 0xbb780a2c
             e := 0x78901d3f, f := 0xb3373876, g := 0x8511a306, h := 0x17afa01d } := by
  decide +kernel

/-- P4: HMAC of "key" and the fox message. -/
theorem test_hmac_fox :
    (after (exec .hmac foxState)).map (fun t => (t.h, t.status.toWord)) =
      some
        ({ a := 0xF7BC83F4, b := 0x30538424, c := 0xB13298E6, d := 0xAA6FB143,
           e := 0xEF4D59A1, f := 0x49461759, g := 0x97479DBC, h := 0x2D1A3CD8 }, 0x00004002) := by
  decide +kernel

/-- Section 7, K65: a key longer than a block is hashed first. -/
theorem test_hmac_long_key :
    (after (exec .hmac longKeyState)).map (fun t => t.h) =
      some { a := 0xdfbffee4, b := 0x671bad00, c := 0xed5d1e19, d := 0x99d55ed3
             e := 0xb0cc774a, f := 0xc357f9eb, g := 0xf649c161, h := 0x2414fcec } := by
  decide +kernel

/-- P5: the root of three items. -/
theorem test_merkle_three :
    (after (exec .merkle itemsState)).map (fun t => (t.h, t.status.toWord)) =
      some
        ({ a := 0x57C18F19, b := 0x7EEC50CA, c := 0x58D6A40B, d := 0x85C7833D,
           e := 0xA638F394, f := 0x689AD4FD, g := 0x8E86319F, h := 0x8AA507A8 }, 0x00005002) := by
  decide +kernel

/-- Section 8, n = 1: the root of one item 00 × 32. -/
theorem test_merkle_one :
    (after (exec .merkle { itemsState with itemCount := 1 })).map (fun t => t.h) =
      some { a := 0x2eeb74a6, b := 0x177f588d, c := 0x80c0c752, d := 0xb9955690
             e := 0x2ddf9682, f := 0xd0b906f5, g := 0xaa2adbaf, h := 0x8466a4e9 } := by
  decide +kernel

/-! ### Acceptance, flags, errors and views -/

/-- Section 10, the length, capacity and range rows at their boundaries. -/
theorem test_acceptance_rows :
    ({ State.reset with msgLenHi := 0x20000000 }).preCheck .hash = .lengthOverflow ∧
    ({ State.reset with msgLenHi := 0x1FFFFFFF, msgLenLo := 0xFFFFFFFF }).preCheck .hash = .range ∧
    ({ State.reset with msgLenHi := 1 }).preCheck .hash = .none ∧
    ({ State.reset with msgLenHi := 1, msgAddr := 1 }).preCheck .hash = .range ∧
    ({ State.reset with msgLenHi := 0x1FFFFFFF, msgLenLo := 0xFFFFFFC0 }).preCheck .hmac
      = .lengthOverflow ∧
    ({ State.reset with msgLenHi := 0x1FFFFFFF, msgLenLo := 0xFFFFFFBF }).preCheck .hmac = .range ∧
    ({ State.reset with keyAddr := 0xFFFFFFF0, keyLen := 0x11 }).preCheck .hmac = .range ∧
    ({ State.reset with keyAddr := 0xFFFFFFF0, keyLen := 0x10 }).preCheck .hmac = .none ∧
    State.reset.preCheck .merkle = .merkleEmpty ∧
    ({ State.reset with itemCount := 8 }).preCheck .merkle = .none ∧
    ({ State.reset with itemCount := 9, itemAddr := 0xFFFFFFFF }).preCheck .merkle = .merkleCapacity ∧
    ({ State.reset with itemCount := 8, itemAddr := 0xFFFFFF00 }).preCheck .merkle = .none ∧
    ({ State.reset with itemCount := 8, itemAddr := 0xFFFFFF01 }).preCheck .merkle = .range := by
  decide

/-- P6: rejected words, and the acknowledgement. -/
theorem test_rejected_words :
    (State.reset.writeReg .cmd 0x7).status.toWord = 0x00007104 ∧
    (State.reset.writeReg .cmd 0x13).status.toWord = 0x00003104 ∧
    ((State.reset.writeReg .cmd 0x13).writeReg .status 0xE).status.toWord = 0x00003000 := by decide

/-- P7: while busy, STATUS, a dropped CMD write and a kept operand. -/
theorem test_busy :
    busyState.status.toWord = 0x00003001 ∧ (busyState.writeReg .cmd 1).status.toWord = 0x00003009 ∧
    (busyState.writeReg .msgLenLo 0).msgLenLo = 3 := by decide

/-- P8: the third byte of the message is not admitted. -/
theorem test_bus_error :
    (after (exec .hash edgeState)).map (fun t => (t.status.toWord, t.errAddr))
      = some (0x00003504, 0x00005002) := by decide

/-- Section 11: HASH with L = 3 reads three bytes, R54 counts them; two are left after one BYTE step. -/
theorem test_bytes_consumed :
    (after (busyState.microSteps 1)).map (fun t => (t.dp.consumed, streamLen t.dp.segs, t.dp.pos)) =
      some (1, 2, 1) ∧
    (after (busyState.microSteps 64)).map (fun t => (t.dp.consumed, t.dp.pos)) = some (3, 64) := by
  decide

/-- P9: a soft reset while busy. -/
theorem test_soft_reset :
    (busyState.writeReg .ctrl 2).status.toWord = 0 ∧ (busyState.writeReg .ctrl 2).msgAddr = 0 ∧
      wordAt (busyState.writeReg .ctrl 2).h 7 = 0x5BE0CD19 := by decide

/-- Section 9: the HEX view. -/
theorem test_hex_view :
    hexWord { zeroWords8 with a := 0x0123abcd } 0 = 0x30313233 ∧
    hexWord { zeroWords8 with a := 0x0123abcd } 1 = 0x61626364 ∧
    hexWord iv 0 = 0x36613039 ∧ hexWord iv 1 = 0x65363637 := by decide

/-- Section 11: the work counts. -/
theorem test_work_counts :
    abcState.workCount .init = 2 ∧ abcState.workCount .compress = 67 ∧
    abcState.workCount .hash = 131 ∧ ({ abcState with msgLenLo := 1000000 }).workCount .hash = 2031381 ∧
    foxState.workCount .hmac = 526 ∧ longKeyState.workCount .hmac = 783 ∧
    itemsState.workCount .merkle = 1301 ∧ ({ itemsState with itemCount := 5 }).workCount .merkle = 2342 := by
  decide

/-- P2: the first bus write of the script. -/
theorem test_script_first_write :
    (after (step { State.reset with
        schedule := [scriptWR Config.testPlatform .msgAddr 0x1000, .host .wait] })).map
        (fun t => (t.msgAddr, t.schedule)) = some (0x1000, [.host .wait]) := by decide

/-- A word read whose asserted value differs stops the script (R117). -/
theorem test_script_assertion :
    (after (step { State.reset with
        schedule := [scriptRDIs Config.testPlatform .id 0x53323536] })).map (fun t => t.rdata)
        = some 0x53323536 ∧
    after (step { State.reset with schedule := [scriptRDIs Config.testPlatform .id 0] }) = none := by
  decide

/-! ### Witnesses: hypotheses that can be met -/

theorem witness_DecodeIsTheOpcodeMap :
    decode 0x5 = .instr .merkle ∧ State.reset.status.busy = false ∧ ∀ i, decode 0x6 ≠ .instr i :=
  ⟨by decide, by decide, fun i => by cases i <;> decide⟩

theorem witness_DecodeEncodeRoundTrip :
    Instr.wellFormed .merkle = true ∧ decode 0x5 = .instr .merkle := by decide

theorem witness_RotationsAndShift : (31 : Nat) < 32 ∧ (31 : Nat) ≤ 31 ∧ 1 ≤ (31 : Nat) := by decide

theorem witness_ChooseAndMajority : (31 : Nat) < 32 := by decide

theorem witness_SigmaFunctions : (31 : Nat) < 32 := by decide

theorem witness_ConstantTablesAreRootsOfPrimes : (63 : Nat) < 64 ∧ (7 : Nat) < 8 := by decide

theorem witness_PaddingShape :
    (List.replicate 55 (0 : Byte)).length < 2 ^ 61 ∧ (List.replicate 56 (0 : Byte)).length < 2 ^ 61 := by
  decide

theorem witness_ParsedBlocks :
    (pad []).length = 64 * 1 ∧ (0 : Nat) < 1 ∧ (15 : Nat) < 16 := by decide

theorem witness_ScheduleRecurrence :
    (List.replicate 16 (0 : Word)).length = 16 ∧ (15 : Nat) < 16 ∧ (16 : Nat) ≤ 63 ∧ (63 : Nat) < 64 := by
  decide

theorem witness_CompressionRounds : (63 : Nat) < 64 ∧ (7 : Nat) < 8 := by decide

theorem witness_SerializationAndInverse :
    (List.replicate 32 (0x61 : Byte)).length = 32 ∧ (7 : Nat) < 8 ∧ (3 : Nat) < 4 ∧
      State.reset.status.busy = false := by decide

theorem witness_HexViewSpellsTheDigest :
    (31 : Nat) < (ser iv).length ∧ hexString (ser iv) = hexString (ser iv) ∧
      State.reset.status.busy = false := by decide

theorem witness_HmacKeyNormalisation :
    (List.replicate 64 (1 : Byte)).length = 64 ∧ (List.replicate 65 (1 : Byte)).length = 65 ∧
    64 < (List.replicate 65 (1 : Byte)).length ∧ (List.replicate 3 (1 : Byte)).length + 61 ≤ 64 ∧
    ∃ k k0 : Bytes, k = (if (List.replicate 3 (1 : Byte)).length > 64 then
        sha256 (List.replicate 3 1) else List.replicate 3 1) ∧
      k0 = k ++ List.replicate (64 - k.length) 0 :=
  ⟨by decide, by decide, by decide, by decide, _, _, rfl, rfl⟩

theorem witness_MerkleRootAlgorithm :
    [([0x61] : Bytes)] ≠ [] ∧ 1 < [([0x61] : Bytes), [0x62], [0x63]].length ∧
    ∃ x : List Bytes, x =
      (if [([0x61] : Bytes)].length % 2 = 1 then [[0x61]] ++ [[([0x61] : Bytes)].getD ([([0x61] : Bytes)].length - 1) []]
        else [[0x61]]) := ⟨by decide, by decide, _, rfl⟩

theorem witness_MerkleRootLaws :
    [([0x61] : Bytes), [0x62]].length % 2 = 0 ∧ [([0x61] : Bytes)] ≠ [] ∧
    [([0x61] : Bytes), [0x62]].length = [([0x63] : Bytes), [0x64]].length ∧
    ∃ k, [([0x61] : Bytes), [0x62]].length = 2 ^ k := ⟨by decide, by decide, by decide, 1, by decide⟩

theorem witness_InitLoadsTheIv :
    State.reset.status.busy = false ∧ State.reset.raced = false ∧ State.reset.status.wib = false := by
  decide

theorem witness_CompressUpdatesTheChainingState :
    blockState.status.busy = false ∧ blockState.raced = false ∧ blockState.h = iv ∧
    blockState.blk.toList = [0x61626380, 0, 0, 0, 0, 0, 0, 0, 0, 0, 0, 0, 0, 0, 0, 0x00000018] := by
  decide

/-- The buffer ends at the top of memory. -/
theorem witness_HashLeavesTheDigest :
    topState.msgLen < 2 ^ 61 ∧ topState.msgAddr.toNat + topState.msgLen ≤ 2 ^ 32 ∧
    topState.operandsReadable .hash ∧ topState.raced = false := by
  unfold State.operandsReadable State.bufferReadable State.readable; decide

theorem witness_HmacLeavesTheTag :
    64 + longKeyState.msgLen < 2 ^ 61 ∧ longKeyState.msgAddr.toNat + longKeyState.msgLen ≤ 2 ^ 32 ∧
    longKeyState.keyAddr.toNat + longKeyState.keyLen.toNat ≤ 2 ^ 32 ∧
    longKeyState.operandsReadable .hmac ∧ longKeyState.raced = false := by
  unfold State.operandsReadable State.bufferReadable State.readable; decide +kernel

theorem witness_MerkleLeavesTheRoot :
    1 ≤ itemsState.itemCount.toNat ∧
    itemsState.itemCount.toNat + itemsState.itemCount.toNat % 2 ≤ itemsState.platform.nodeCap.toNat ∧
    itemsState.itemAddr.toNat + 32 * itemsState.itemCount.toNat ≤ 2 ^ 32 ∧
    itemsState.operandsReadable .merkle ∧ itemsState.raced = false := by
  unfold State.operandsReadable State.bufferReadable State.readable; decide +kernel

theorem witness_CommandFrame :
    (∃ t, exec .compress State.reset = .next t) ∧
    (∃ t, exec .merkle State.reset = .next t) ∧ State.reset.preCheck .merkle ≠ .none :=
  ⟨⟨_, rfl⟩, ⟨_, rfl⟩, by decide⟩

theorem witness_OnlyBusErrorAfterAcceptance :
    edgeState.preCheck .merkle = .none ∧
    ∃ t, exec .merkle edgeState = .next t ∧ t.status.err = true := ⟨by decide, _, rfl, rfl⟩

theorem witness_BusErrorEndsTheCommand :
    (edgeState.preCheck .hash = .none ∧ edgeState.firstBusError edgeState.msgAddr.toNat edgeState.msgLen 2) ∧
    (edgeState.preCheck .hmac = .none ∧
      edgeState.firstBusError edgeState.keyAddr.toNat edgeState.keyLen.toNat 1) ∧
    (({ edgeState with keyLen := 1 }).preCheck .hmac = .none ∧
      ({ edgeState with keyLen := 1 }).bufferReadable edgeState.keyAddr.toNat 1 ∧
      ({ edgeState with keyLen := 1 }).firstBusError edgeState.msgAddr.toNat edgeState.msgLen 2) ∧
    (edgeState.preCheck .merkle = .none ∧
      edgeState.firstBusError edgeState.itemAddr.toNat (32 * edgeState.itemCount.toNat) 0) := by
  unfold State.firstBusError State.bufferReadable State.readable; decide

theorem witness_SideEffectReadIsRefused :
    (sideState.preCheck .hash = .none ∧ 1 < sideState.msgLen ∧
      sideState.bufferReadable sideState.msgAddr.toNat 1 ∧
      admitted sideState.platform (sideState.msgAddr.toNat + 1) = true ∧
      sideEffectAt sideState.platform (sideState.msgAddr.toNat + 1) = true) ∧
    (sideState.preCheck .hmac = .none ∧ 0 < sideState.keyLen.toNat ∧
      sideState.bufferReadable sideState.keyAddr.toNat 0 ∧
      admitted sideState.platform (sideState.keyAddr.toNat + 0) = true ∧
      sideEffectAt sideState.platform (sideState.keyAddr.toNat + 0) = true) ∧
    (({ sideState with keyAddr := 0 }).preCheck .hmac = .none ∧
      ({ sideState with keyAddr := 0 }).bufferReadable 0 sideState.keyLen.toNat ∧
      1 < sideState.msgLen) ∧
    (sideState.preCheck .merkle = .none ∧ 32 < 32 * sideState.itemCount.toNat ∧
      sideState.bufferReadable sideState.itemAddr.toNat 32 ∧
      admitted sideState.platform (sideState.itemAddr.toNat + 32) = true ∧
      sideEffectAt sideState.platform (sideState.itemAddr.toNat + 32) = true) := by
  unfold State.bufferReadable State.readable; decide

theorem witness_RacedResultIsAnyValue :
    (({ topState with raced := true }).preCheck .hash = .none ∧
      ({ topState with raced := true }).operandsReadable .hash) ∧
    (0x1002 < 2 ^ 32 ∧ busyState.fsm = .run 3 .put ∧ decodeOp 3 = .instr .hash ∧
      busyState.inReadSet 0x1002 .hash = true ∧ busyState.inReadSet 0x1003 .hash = false) := by
  unfold State.operandsReadable State.bufferReadable State.readable; decide

theorem witness_AcceptanceChecks :
    State.reset.status.busy = false ∧ State.reset.fsm = .idle ∧
    State.reset.preCheckWord 0x5 ≠ .none ∧ State.reset.status.wib = false := by decide

theorem witness_AcceptanceStartsTheEngine :
    longKeyState.status.busy = false ∧ longKeyState.preCheckWord 0x4 = .none ∧
    foxState.preCheckWord 0x4 = .none ∧ topState.preCheckWord 0x4 = .none := by decide

theorem witness_WritesWhileBusyAreDropped :
    busyState.status.busy = true ∧ Reg.cmd ≠ .ctrl ∧ Reg.cmd ≠ .status ∧ Reg.id ≠ .ctrl ∧
      Reg.id ≠ .status := by decide

theorem witness_IdleWritesStore :
    State.reset.status.busy = false ∧
    Reg.itemCount ∈ [Reg.msgAddr, .msgLenLo, .msgLenHi, .keyAddr, .keyLen, .itemAddr, .itemCount] ∧
    (∃ j, Reg.blk 15 = .blk j) ∧ (∃ i, Reg.h 7 = .h i) ∧ Reg.hex 13 ≠ .h 7 ∧
    (∀ (i : Fin 8) (k : Fin 16), Reg.h 7 = .h i → Reg.hex 13 = .hex k → k.val / 2 ≠ i.val) := by
  refine ⟨by decide, by decide, ⟨15, rfl⟩, ⟨7, rfl⟩, by decide, ?_⟩
  intro i k hi hk
  cases hi; cases hk; decide

theorem witness_ReadOnlyWritesAreIgnored :
    State.reset.status.busy = false ∧ Reg.errAddr ∈ [Reg.id, .version, .nodeCap, .errAddr] ∧
    (∃ k, Reg.hex 15 = .hex k) ∧ ∃ n, Reg.reserved 63 = .reserved n :=
  ⟨by decide, by decide, ⟨15, rfl⟩, 63, rfl⟩

theorem witness_RegisterReads :
    State.reset.status.busy = false ∧ busyState.status.busy = true ∧
    (∀ i, Reg.blk 0 ≠ .h i) ∧ ∀ k, Reg.blk 0 ≠ .hex k :=
  ⟨by decide, by decide, fun _ h => (by cases h), fun _ h => (by cases h)⟩

theorem witness_BusyResultReadsAreAnyWord :
    busyState.status.busy = true ∧ (∃ i, Reg.h 0 = .h i) ∧ ∃ k, Reg.hex 15 = .hex k :=
  ⟨by decide, ⟨0, rfl⟩, 15, rfl⟩

theorem witness_StatusWriteClearsFlags :
    ({ State.reset with
        status := { Status.cleared with done := true, wib := true, lastop := 1 } }).status.toWord
      = 0x0000100A := by decide

theorem witness_CtrlWriteAndSoftReset :
    (0x1 : Word).getLsbD 1 = false ∧ (0x3 : Word).getLsbD 1 = true ∧ State.reset.rst = false ∧
    busyState.status.busy = true ∧ (Reg.ctrl = .ctrl → (0x1 : Word).getLsbD 1 = false) := by decide

theorem witness_ResetValues : ∃ t : State, t = busyState.assertReset := ⟨_, rfl⟩

theorem witness_InterruptOutput :
    State.reset.status.busy = false ∧ State.reset.preCheckWord 0x1 = .none ∧
    State.reset.preCheckWord 0x7 ≠ .none ∧ (∃ t, exec .init State.reset = .next t) ∧
    (0x6 : Word).getLsbD 1 = true ∧ (0x6 : Word).getLsbD 2 = true ∧
    (0x0 : Word).getLsbD 0 = false ∧ (0x3 : Word).getLsbD 1 = true :=
  ⟨by decide, by decide, by decide, ⟨_, rfl⟩, by decide, by decide, by decide, by decide⟩

theorem witness_RegisterMapAndAccessShape :
    State.reset.rst = false ∧
    (∀ n, Reg.reserved 63 = .reserved n → n ∈ [14, 15, 56, 57, 58, 59, 60, 61, 62, 63]) ∧
    (255 < 256 ∧ 255 % 4 ≠ 0) ∧ (252 < 256 ∧ 2 ≠ 4) ∧ (63 < 64) ∧
    (∀ n, Reg.hex 15 ≠ .reserved n) ∧ offsetOf (.hex 15) = offsetOf (.hex 15) := by
  refine ⟨by decide, ?_, by decide, by decide, by decide, fun _ h => (by cases h), rfl⟩
  intro n h
  cases h; decide

/-- The first address after a block based at 0x100 and the last one before it. -/
theorem witness_AccessOutsideTheBlock :
    sideState.rst = false ∧ sideState.platform.regBase + 256 ≤ 0x200 ∧
    0x0FF < sideState.platform.regBase := by decide

theorem witness_HostMemoryWrite :
    Memory.wf abcState.mem = true ∧ 0xFFFFFFFF < 2 ^ 32 ∧ 2 ^ 32 ≤ 0x100000000 := by decide

theorem witness_OnlyTheHostWritesMemory :
    (∃ t, exec .init abcState = .next t) ∧ (∃ t, busyState.microStep = .next t) ∧
    ∃ t, step { abcState with schedule := [.host (.memWrite 0xFFFFFFFF 1)] } = .next t :=
  ⟨⟨_, rfl⟩, ⟨_, rfl⟩, _, rfl⟩

/-- Two states that agree on the operands of HASH only. -/
theorem witness_ResultDependsOnOperandsAlone :
    let t := { abcState with h := midState, blk := blockState.blk, ie := true, mem := abcState.mem ++ cells 0x2000 [1] }
    abcState.platform = t.platform ∧ abcState.raced = false ∧ t.raced = false ∧
    abcState.msgAddr = t.msgAddr ∧ abcState.msgLenLo = t.msgLenLo ∧ abcState.msgLenHi = t.msgLenHi ∧
    abcState.keyAddr = t.keyAddr ∧ abcState.keyLen = t.keyLen ∧ abcState.itemAddr = t.itemAddr ∧
    abcState.itemCount = t.itemCount ∧
    (Instr.hash = .compress → abcState.h = t.h ∧ abcState.blk = t.blk) ∧
    (∀ a, abcState.inReadSet a .hash = true → Memory.get abcState.mem a = Memory.get t.mem a) := by
  refine ⟨rfl, rfl, rfl, rfl, rfl, rfl, rfl, rfl, rfl, rfl, fun h => (by cases h), fun a h => ?_⟩
  have h3 : a = 0x1000 ∨ a = 0x1001 ∨ a = 0x1002 := by
    have : 0x1000 ≤ a ∧ a < 0x1003 := by simpa [State.inReadSet, inBuffer, abcState, State.msgLen, State.reset, State.resetOn] using h
    omega
  rcases h3 with rfl | rfl | rfl <;> decide

theorem witness_InvariantHoldsAtReset :
    Platform.valid { regBase := 0x100, nodeCap := 2, regions := [] } = true ∧
    Platform.valid { regBase := 0, nodeCap := 0xFFFFFFFF, regions := [] } = true := by decide

/-- The invariant of a running HASH. -/
theorem waitState_inv : Inv waitState where
  mem := by decide
  platform := by decide
  notBoth := by decide
  ecode := by decide
  errAddr := fun _ => rfl
  engine :=
    { busy := by decide, done := by decide, err := by decide, lastop := by decide
      notReset := by decide
      command := ⟨.hash, by decide, by decide, ⟨⟨by decide, by show 0 < streamLen waitState.dp.segs; decide⟩, trivial⟩,
        fun h => by cases h⟩ }
  ranges :=
    { t := by decide, w := by decide, pos := by decide, node := by decide
      nodeBytes := fun _ h => (by cases h), counted := by decide }

theorem witness_EveryStepKeepsTheInvariant :
    Inv waitState ∧ ∃ t, step waitState = .next t :=
  ⟨waitState_inv, next_of_after (by decide +kernel)⟩

theorem witness_StepRunsTheDecodedCommand :
    busyState.fsm = .run 3 .put ∧ decodeOp 3 = .instr .hash ∧ busyState.schedule = [] ∧
    ({ busyState with schedule := [.command] }).schedule = .command :: [] := by decide

theorem witness_ScheduleNamesTheAgent :
    State.reset.schedule = [] ∧ State.reset.fsm = .idle ∧ State.reset.status.busy = false ∧
    busyState.fsm = .run 3 .put ∧ decodeOp 3 = .instr .hash ∧ busyState.status.busy = true ∧
    (∀ e : Event, ({ busyState with schedule := [e] }).schedule = e :: []) ∧
    (∃ t, State.reset.busRead 0x000 4 = .next t ∧ t.rdata = 0x53323536 ∧ t.rdata ≠ 0) ∧
    State.reset.busRead 0x100 4 = .refused (.outsideRegisterSpace 0x100) :=
  ⟨rfl, rfl, rfl, rfl, rfl, rfl, fun _ => rfl, ⟨_, rfl, rfl, by decide⟩, rfl⟩

theorem witness_MicroStepsComputeTheCommand :
    topState.status.busy = false ∧ topState.raced = false ∧ topState.preCheck .hash = .none ∧
    topState.operandsReadable .hash ∧ 130 < topState.workCount .hash := by
  unfold State.operandsReadable State.bufferReadable State.readable; decide

/-- BYTE, the PAD step of an empty message, and LOAD of COMPRESS. -/
theorem witness_MessageBytesConsumed :
    (abcState.status.busy = false ∧ abcState.preCheck .hash = .none) ∧
    (busyState.fsm = .run 3 .put ∧ busyState.dp.tail = .data ∧ 0 < streamLen busyState.dp.segs ∧
      ∃ t, busyState.microStep = .next t ∧ t.fsm ≠ .idle) ∧
    ((State.reset.writeReg .cmd 3).fsm = .run 3 .put ∧ (State.reset.writeReg .cmd 3).dp.tail = .term ∧
      ∃ t, (State.reset.writeReg .cmd 3).microStep = .next t ∧ t.fsm ≠ .idle) ∧
    ((State.reset.writeReg .cmd 2).fsm = .run 2 .load ∧
      ∃ t, (State.reset.writeReg .cmd 2).microStep = .next t) :=
  ⟨⟨rfl, by decide⟩, ⟨rfl, by decide, by decide, next_with (by decide)⟩,
    ⟨by decide, by decide, next_with (by decide)⟩, by decide, next_of_after (by decide)⟩

theorem witness_MergingTheRestOfACommand :
    busyState.fsm = .run 3 .put ∧ decodeOp 3 = .instr .hash ∧ busyState.preCheck .hash = .none ∧
    ∃ t, busyState.microStep = .next t ∧ t.fsm ≠ .idle := ⟨rfl, rfl, by decide, _, rfl, by decide⟩

theorem witness_StreamingEqualsMonolithic :
    topState.preCheck .hash = .none ∧ topState.operandsReadable .hash ∧ topState.raced = false := by
  unfold State.operandsReadable State.bufferReadable State.readable; decide

theorem witness_IdleInternalStateNeverMatters :
    itemsState.status.busy = false ∧ itemsState.preCheck .merkle = .none := by decide

theorem witness_WorkIsDataIndependent :
    longKeyState.status.busy = false ∧ longKeyState.preCheck .hmac = .none := by decide

theorem witness_WaitTerminates :
    Inv waitState ∧ waitState.status.busy = true ∧ waitState.schedule = .host .wait :: [] :=
  ⟨waitState_inv, rfl, rfl⟩

end Sys2Proof.Tests
end

section
/-!
PROOFS. The statements of 10_state.md: the invariant along every step, reset, the STATUS word and the
count of message bytes consumed.
-/

namespace Sys2Proof.Machine

/-! ### The invariant: the host's actions and the step -/

/-- R20: the invariant does not look at the schedule. -/
theorem inv_schedule {s : State} (h : Inv s) (sch : List Event) : Inv { s with schedule := sch } :=
  inv_bus h sch s.rdata s.draws

/-- R340: the reset input, asserted in any state. -/
theorem inv_assertReset {s : State} (h : Inv s) : Inv s.assertReset := inv_blockReset h true

/-- R340: the release changes nothing but the reset input. -/
theorem inv_releaseReset {s : State} (h : Inv s) : Inv s.releaseReset :=
  inv_flags h s.status s.ie s.errAddr s.mem s.raced false h.mem rfl rfl id id h.ecode h.errAddr
    (.inr rfl) (.inl rfl)

/-- R117: a read with an asserted value goes on only as the read does. -/
theorem busRead_of_busExpect {s t : State} {addr : Nat} {v : Word}
    (ht : s.busExpect addr v = .next t) : s.busRead addr 4 = .next t := by
  unfold State.busExpect at ht
  split at ht
  next u hu =>
    split at ht
    · cases ht; exact hu
    · cases ht
  next => cases ht
  next => cases ht

/-- Every host action keeps the invariant. -/
theorem inv_hostAction {s t : State} (h : Inv s) {op : HostOp} {rest : List Event}
    (ht : s.hostAction op rest = .next t) : Inv t := by
  have hrest := inv_schedule h rest
  cases op with
  | write addr size v => exact inv_busWrite hrest ht
  | read addr size => exact inv_busRead hrest ht
  | expect addr v => exact inv_busRead hrest (busRead_of_busExpect ht)
  | wait =>
    simp only [State.hostAction] at ht
    split at ht
    · exact inv_engineCommand h ht
    · exact inv_busRead hrest ht
  | memWrite a b => exact inv_writeMem hrest ht
  | assertReset => cases ht; exact inv_assertReset hrest
  | releaseReset => cases ht; exact inv_releaseReset hrest

/-- R20: the step of whichever agent the schedule names keeps the invariant. -/
theorem inv_agentStep {s t : State} (h : Inv s) (ht : s.agentStep = .next t) : Inv t := by
  unfold State.agentStep at ht
  split at ht
  next => exact inv_engineCommand h ht
  next op rest _ => exact inv_hostAction h ht
  next rest _ => exact inv_microStep (inv_schedule h rest) ht
  next rest _ => exact inv_engineCommand (inv_schedule h rest) ht

/-- Settles O44: each event of the schedule is one of the operations whose rule Laws/Invariant.lean
states. -/
theorem everyStepKeepsTheInvariant : Obligations.EveryStepKeepsTheInvariant :=
  fun _ _ h ht => inv_agentStep h ht

/-! ### Reset (R59, R340) -/

/-- R59: the reset state of a block with legal parameters. -/
theorem inv_resetOn {p : Platform} (hp : p.valid = true) : Inv (State.resetOn p) :=
  have flags : (State.resetOn p).status = Status.cleared := rfl
  .mkIdle rfl hp (by simp [flags, Status.cleared]) (by simp [flags, Status.cleared]) (fun _ => rfl) rfl
    rfl rfl (ranges_unspecified _ rfl)

/-- Settles O43: the reset state is idle with every flag clear; the platform of `State.reset` is legal. -/
theorem invariantHoldsAtReset : Obligations.InvariantHoldsAtReset :=
  ⟨fun _ hp => inv_resetOn hp, inv_resetOn (by decide)⟩

/-- R81, R86: an aligned word access at offset `o` of the block reaches the register of its slot while
the reset input is released. -/
theorem selectReg_offset {s : State} {o : Nat} (hrst : s.rst = false)
    (ho : accessWellFormed o 4 = true) :
    s.selectReg (s.platform.regBase + o) 4 = .ok (regOfSlot (o / 4)) := by
  have hlt : o < 256 := by
    simp only [accessWellFormed, Bool.and_eq_true] at ho
    exact of_decide_eq_true ho.2
  simp [State.selectReg, hrst, ho, hlt]

/-- R340: while the reset input is asserted no register access has a meaning. -/
theorem selectReg_of_rst {s : State} (hrst : s.rst = true) (addr size : Nat) :
    s.selectReg addr size = .error .accessDuringReset := by
  simp [State.selectReg, hrst]

/-- R59: the CTRL word of a block in reset. -/
theorem ctrlWord_false : ctrlWord false = 0 := by decide

/-- R59: the STATUS word of a block in reset. -/
theorem cleared_toWord : Status.cleared.toWord = 0 := by decide

/-- R59: every BLK word of a block in reset is 0. -/
theorem assertReset_blk (s : State) (j : Fin 16) : s.assertReset.regValue (.blk j) = 0 :=
  Vector.getElem_replicate j.isLt

/-- R340: after release the block accepts a command at once. -/
theorem busWrite_init_after_reset (s : State) :
    ∃ u, s.assertReset.releaseReset.busWrite (s.platform.regBase + 0x00C) 4 (encode .init) = .next u ∧
      u.status.busy = true := by
  have hsel : s.assertReset.releaseReset.selectReg (s.platform.regBase + 0x00C) 4 = .ok .cmd :=
    selectReg_offset (s := s.assertReset.releaseReset) rfl (by decide)
  refine ⟨s.assertReset.releaseReset.launch (encode .init), ?_, by simp⟩
  simp only [State.busWrite, hsel]
  rw [writeReg_cmd_launch rfl rfl]

/-- Settles O37: the register values are those of `State.resetOn`; the accesses are refused by
`selectReg_of_rst`, and the release is `busWrite_init_after_reset`. -/
theorem resetValues : Obligations.ResetValues := by
  rintro s _ rfl
  have refused : ∀ addr size, s.assertReset.selectReg addr size = .error .accessDuringReset :=
    selectReg_of_rst rfl
  refine ⟨rfl, rfl, rfl, rfl, ctrlWord_false, cleared_toWord, rfl, rfl, rfl, rfl, rfl, rfl, rfl, rfl,
    assertReset_blk s, rfl, rfl, rfl, fun _ => rfl, rfl, rfl, rfl, rfl, fun addr size v => ?_,
    busWrite_init_after_reset s⟩
  simp only [State.busWrite, State.busRead, refused, and_self]

/-! ### The STATUS word (R37, R300) -/

/-- A flag read back from its bit. -/
@[simp] theorem getElem_bit_zero (b : Bool) : (bit b)[0] = b := by cases b <;> rfl

/-- R37: the four flag bits. -/
theorem toWord_flagBits (f : Status) :
    f.toWord.getLsbD 0 = f.busy ∧ f.toWord.getLsbD 1 = f.done ∧ f.toWord.getLsbD 2 = f.err ∧
      f.toWord.getLsbD 3 = f.wib := by
  simp only [Status.toWord, BitVec.getLsbD_append]
  simp

/-- R37: the fields of more than one bit: dropping the pieces below a field leaves it lowest. -/
theorem toWord_fields (f : Status) :
    f.toWord.extractLsb' 4 4 = 0 ∧ f.toWord.extractLsb' 8 4 = f.ecode.code ∧
      f.toWord.extractLsb' 12 4 = f.lastop ∧ f.toWord.extractLsb' 16 16 = 0 := by
  unfold Status.toWord
  refine ⟨?zero, ?code, ?lastop, ?high⟩ <;>
    repeat rw [BitVec.extractLsb'_append_eq_of_le (by decide)]
  case zero => exact BitVec.extractLsb'_append_eq_right
  case code => exact BitVec.extractLsb'_append_eq_right
  case lastop => exact BitVec.extractLsb'_append_eq_right
  case high => exact BitVec.extractLsb'_eq_self

/-- Settles O34: the flag bits and the fields of the word, and R300's number of each error code. -/
theorem statusWordLayout : Obligations.StatusWordLayout := by
  intro f
  obtain ⟨hbusy, hdone, herr, hwib⟩ := toWord_flagBits f
  obtain ⟨hzero, hcode, hlastop, hhigh⟩ := toWord_fields f
  refine ⟨hbusy, hdone, herr, hwib, hzero, ?_, hlastop, hhigh⟩
  rw [hcode]
  cases f.ecode <;> rfl

/-! ### The message bytes consumed (R54) -/

/-- R199, R265: an accepted HASH starts the stream of its message. -/
theorem launch_hash_dp (s : State) :
    (s.launch (encode .hash)).dp = s.dp.startStream [.mem s.msgAddr.toNat s.msgLen] := by
  rw [State.launch_dp, opField_encode, State.start, decodeOp_opcode]
  rfl

/-- R54: the counts an accepted HASH starts with. -/
theorem writeReg_hash_counts {s : State} (hb : s.status.busy = false)
    (hp : s.preCheck .hash = .none) :
    (s.writeReg .cmd (encode .hash)).dp.consumed = 0 ∧
      (s.writeReg .cmd (encode .hash)).dp.bitlen.toNat = 8 * s.msgLen ∧
      streamLen (s.writeReg .cmd (encode .hash)).dp.segs = s.msgLen := by
  have hlen : 8 * s.msgLen < 2 ^ 64 := by
    have := (preCheck_hash_none.mp hp).1
    simp only [Config.maxHashedBytes] at this
    omega
  rw [writeReg_cmd_launch hb hp, launch_hash_dp]
  refine ⟨rfl, ?_, streamLen_mem _ _⟩
  rw [Datapath.startStream_bitlen, streamLen_mem, BitVec.toNat_ofNat, Nat.mod_eq_of_lt hlen]

/-- R172: a micro-step of a non-empty stream that leaves the engine running places its next byte. -/
theorem microPut_data {s t : State} {op : BitVec 4} (htail : s.dp.tail = .data)
    (hlen : 0 < streamLen s.dp.segs) (ht : s.microPut op = .next t) (hrun : t.fsm ≠ .idle) :
    ∃ b rest, t = s.putData op b rest ∧ streamLen s.dp.segs = streamLen rest + 1 := by
  obtain ⟨src, rest, hpop, hrest, -⟩ := popByte_some s hlen
  simp only [State.microPut, htail, hpop] at ht
  cases src with
  | held b => cases ht; exact ⟨b, rest, rfl, hrest⟩
  | read a =>
    obtain ⟨b, -, hr⟩ | ⟨e, -, hr⟩ | ⟨e, -, hr⟩ :=
      withRead_cases s (s.memRead a) fun b => .next (s.putData op b rest)
    · cases hr.symm.trans ht; exact ⟨b, rest, rfl, hrest⟩
    · cases hr.symm.trans ht; exact absurd rfl hrun
    · cases hr.symm.trans ht

/-- R172: any other BYTE or PAD micro-step places a byte that is not the stream's, or none. -/
theorem microPut_pad {s t : State} {op : BitVec 4}
    (hno : ¬(s.dp.tail = .data ∧ 0 < streamLen s.dp.segs)) (ht : s.microPut op = .next t) :
    t = s ∨ ∃ b tail, t = s.putPad op b tail := by
  unfold State.microPut at ht
  cases htail : s.dp.tail with
  | data =>
    have hpop : popByte s.dp.segs = none := popByte_none (by have := not_and.mp hno htail; omega)
    simp only [htail, hpop] at ht
    cases ht; exact .inl rfl
  | term => simp only [htail] at ht; cases ht; exact .inr ⟨_, _, rfl⟩
  | zero => simp only [htail] at ht; cases ht; exact .inr ⟨_, _, rfl⟩
  | len j => simp only [htail] at ht; cases ht; exact .inr ⟨_, _, rfl⟩
  | done => simp only [htail] at ht; cases ht; exact .inl rfl

/-- R54: a BYTE or PAD micro-step counts a byte exactly when it places one of the stream. -/
theorem microPut_counts {s t : State} {op : BitVec 4} (ht : s.microPut op = .next t)
    (hrun : t.fsm ≠ .idle) :
    t.dp.bitlen = s.dp.bitlen ∧
      if s.dp.tail = .data ∧ 0 < streamLen s.dp.segs then
        t.dp.consumed = s.dp.consumed + 1 ∧ streamLen s.dp.segs = streamLen t.dp.segs + 1
      else t.dp.consumed = s.dp.consumed ∧ t.dp.segs = s.dp.segs := by
  split
  next hdata =>
    obtain ⟨b, rest, rfl, hrest⟩ := microPut_data hdata.1 hdata.2 ht hrun
    exact ⟨rfl, rfl, hrest⟩
  next hno =>
    obtain rfl | ⟨b, tail, rfl⟩ := microPut_pad hno ht <;> exact ⟨rfl, rfl, rfl⟩

/-- R180: the micro-step of an engine at a PutByte is BYTE or PAD. -/
theorem microStep_put {s : State} {op : BitVec 4} (hf : s.fsm = .run op .put) :
    s.microStep = s.microPut op := by simp only [State.microStep, hf]

/-- R172, R195: LOAD and ROUND leave the stream and its counts alone. -/
theorem microStep_load_round_counts {s t : State} {op : BitVec 4}
    (hf : s.fsm = .run op .load ∨ s.fsm = .run op .round) (ht : s.microStep = .next t) :
    t.dp.bitlen = s.dp.bitlen ∧ t.dp.consumed = s.dp.consumed ∧ t.dp.segs = s.dp.segs := by
  obtain hf | hf := hf <;> (simp only [State.microStep, hf] at ht; cases ht; exact ⟨rfl, rfl, rfl⟩)

/-- Settles O54: the start of HASH, the BYTE and PAD micro-steps, and LOAD and ROUND. -/
theorem messageBytesConsumed : Obligations.MessageBytesConsumed :=
  ⟨fun _ hb hp => writeReg_hash_counts hb hp,
    fun _ _ _ hf ht hrun => microPut_counts (microStep_put hf ▸ ht) hrun,
    fun _ _ _ hf ht => microStep_load_round_counts hf ht⟩

end Sys2Proof.Machine
end

section
/-!
PROOFS. The statements of 20_memory.md: who writes memory, what a command does with the bytes it reads,
and how a bus access reaches a register.
-/

namespace Sys2Proof.Machine

/-! ### Memory and the platform are kept (R82) -/

/-- R82: memory and the platform of `t` are those of `s`. -/
def State.SameMemory (s t : State) : Prop := t.mem = s.mem ∧ t.platform = s.platform

/-- R20: the schedule holds neither. -/
theorem State.SameMemory.of_schedule {s t : State} {rest : List Event}
    (h : { s with schedule := rest }.SameMemory t) : s.SameMemory t := h

/-- Everything a command that gives a next state can have done: been rejected, completed, completed
after reads, or ended in a bus error. -/
theorem exec_next_cases {i : Instr} {s t : State} (ht : exec i s = .next t) :
    t = (s.offer (encode i)).reject (s.preCheck i) ∨ (∃ r, t = (s.offer (encode i)).complete r) ∨
      (∃ r, t = (s.offer (encode i)).completeRead r) ∨
      ∃ a, t = (s.offer (encode i)).raise .busError a := by
  by_cases hp : s.preCheck i = .none
  · obtain ⟨r, hr⟩ | ⟨-, ⟨r, hr⟩ | ⟨a, hr⟩ | ⟨a, hr⟩⟩ := exec_accepted hp <;> cases hr.symm.trans ht
    · exact .inr (.inl ⟨r, rfl⟩)
    · exact .inr (.inr (.inl ⟨r, rfl⟩))
    · exact .inr (.inr (.inr ⟨a, rfl⟩))
  · cases (exec_rejected hp).symm.trans ht
    exact .inl rfl

/-- R82: a command as one step. -/
theorem exec_sameMemory {i : Instr} {s t : State} (ht : exec i s = .next t) : s.SameMemory t := by
  obtain rfl | ⟨r, rfl⟩ | ⟨r, rfl⟩ | ⟨a, rfl⟩ := exec_next_cases ht
  · exact ⟨rfl, rfl⟩
  · exact ⟨rfl, rfl⟩
  · exact ⟨State.completeRead_mem _ r, State.completeRead_platform _ r⟩
  · exact ⟨rfl, rfl⟩

/-- R82: the engine's turn, taken as one step. -/
theorem engineCommand_sameMemory {s t : State} (ht : s.engineCommand = .next t) :
    s.SameMemory t := by
  unfold State.engineCommand at ht
  split at ht
  next => cases ht; exact ⟨rfl, rfl⟩
  next =>
    split at ht
    · exact exec_sameMemory ht
    · cases ht

/-- R82: a micro-step of the engine. -/
theorem microStep_sameMemory {s t : State} (ht : s.microStep = .next t) : s.SameMemory t := by
  cases hf : s.fsm with
  | idle =>
    simp only [State.microStep, hf] at ht
    cases ht
    exact ⟨rfl, rfl⟩
  | run op ph =>
    obtain ⟨ph', dp', rfl⟩ | ⟨a, rfl⟩ | ⟨-, rfl⟩ := microStep_cases hf ht
    · exact ⟨rfl, rfl⟩
    · exact ⟨rfl, rfl⟩
    · exact ⟨State.completeRead_mem _ _, State.completeRead_platform _ _⟩

/-- R82, R265: the acceptance or the rejection of a command word. -/
theorem accept_sameMemory (s : State) (v : Word) : s.SameMemory (s.accept v) := by
  unfold State.accept
  split
  · exact ⟨State.launch_mem s v, State.launch_platform s v⟩
  · exact ⟨rfl, rfl⟩

/-- R82, R267: a CTRL write, a soft reset among them. -/
theorem writeCtrl_sameMemory (s : State) (v : Word) : s.SameMemory (s.writeCtrl v) := by
  unfold State.writeCtrl
  split <;> exact ⟨rfl, rfl⟩

/-- R82, R264: a register write while idle. -/
theorem writeIdle_sameMemory (s : State) (r : Reg) (v : Word) : s.SameMemory (s.writeIdle r v) := by
  cases r with
  | cmd => exact accept_sameMemory s v
  | _ => exact ⟨rfl, rfl⟩

/-- R82: a register write. -/
theorem writeReg_sameMemory (s : State) (r : Reg) (v : Word) : s.SameMemory (s.writeReg r v) := by
  unfold State.writeReg
  split
  · exact writeCtrl_sameMemory s v
  · exact ⟨rfl, rfl⟩
  · split
    · exact ⟨rfl, rfl⟩
    · exact writeIdle_sameMemory s _ v

/-- R82, R89: a register read. -/
theorem readReg_sameMemory (s : State) (r : Reg) : s.SameMemory (s.readReg r) := by
  unfold State.readReg
  split <;> exact ⟨rfl, rfl⟩

/-- R82: a bus write. -/
theorem busWrite_sameMemory {s t : State} {addr size : Nat} {v : Word}
    (ht : s.busWrite addr size v = .next t) : s.SameMemory t := by
  unfold State.busWrite at ht
  split at ht <;> cases ht
  exact writeReg_sameMemory s _ v

/-- R82: a bus read. -/
theorem busRead_sameMemory {s t : State} {addr size : Nat} (ht : s.busRead addr size = .next t) :
    s.SameMemory t := by
  unfold State.busRead at ht
  split at ht <;> cases ht
  exact readReg_sameMemory s _

/-- R80: a host write of memory that goes on puts the byte there and may mark the command raced. -/
theorem writeMem_next {s t : State} {a : Nat} {b : Byte} (ht : s.writeMem a b = .next t) :
    t = { s with mem := Memory.set s.mem a b, raced := s.raced || s.runningReads a } := by
  unfold State.writeMem at ht
  split at ht <;> cases ht
  rfl

/-- R82: of the host's actions only a memory write changes memory, and none changes the platform. -/
theorem hostAction_memory {s t : State} {op : HostOp} {rest : List Event}
    (ht : s.hostAction op rest = .next t) :
    t.platform = s.platform ∧ (t.mem = s.mem ∨ ∃ a b, op = .memWrite a b) := by
  have kept (h : s.SameMemory t) :
      t.platform = s.platform ∧ (t.mem = s.mem ∨ ∃ a b, op = .memWrite a b) := ⟨h.2, .inl h.1⟩
  cases op with
  | write addr size v => exact kept (.of_schedule (busWrite_sameMemory ht))
  | read addr size => exact kept (.of_schedule (busRead_sameMemory ht))
  | expect addr v => exact kept (.of_schedule (busRead_sameMemory (busRead_of_busExpect ht)))
  | wait =>
    simp only [State.hostAction] at ht
    split at ht
    · exact kept (engineCommand_sameMemory ht)
    · exact kept (.of_schedule (busRead_sameMemory ht))
  | memWrite a b => cases writeMem_next ht; exact ⟨rfl, .inr ⟨a, b, rfl⟩⟩
  | assertReset => cases ht; exact kept ⟨rfl, rfl⟩
  | releaseReset => cases ht; exact kept ⟨rfl, rfl⟩

/-- R82: of the steps only the host's memory write changes memory, and none changes the platform. -/
theorem step_memory {s t : State} (ht : step s = .next t) :
    t.platform = s.platform ∧
      (t.mem = s.mem ∨ ∃ a b rest, s.schedule = .host (.memWrite a b) :: rest) := by
  have kept (h : s.SameMemory t) : t.platform = s.platform ∧
      (t.mem = s.mem ∨ ∃ a b rest, s.schedule = .host (.memWrite a b) :: rest) := ⟨h.2, .inl h.1⟩
  unfold step State.agentStep at ht
  split at ht
  next => exact kept (engineCommand_sameMemory ht)
  next op rest hs =>
    obtain ⟨hplat, hmem | ⟨a, b, rfl⟩⟩ := hostAction_memory ht
    · exact ⟨hplat, .inl hmem⟩
    · exact ⟨hplat, .inr ⟨a, b, rest, hs⟩⟩
  next => exact kept (.of_schedule (microStep_sameMemory ht))
  next => exact kept (.of_schedule (engineCommand_sameMemory ht))

/-- Settles O41: what each way to a next state leaves of memory, operation by operation. -/
theorem onlyTheHostWritesMemory : Obligations.OnlyTheHostWritesMemory :=
  ⟨fun _ _ _ ht => (exec_sameMemory ht).1, fun _ _ ht => (microStep_sameMemory ht).1,
    fun s r v => (writeReg_sameMemory s r v).1, fun _ _ ht => step_memory ht⟩

/-! ### The reading commands: reads, then COMPLETE -/

/-- R265: the offer leaves what a buffer read answers. -/
theorem readBuf_offer (s : State) (v : Word) (base n : Nat) :
    (s.offer v).readBuf base n = s.readBuf base n :=
  State.readBuf_congr rfl fun _ _ => rfl

/-- R265: the offer leaves what the reads of items answer. -/
theorem readItems_offer (s : State) (v : Word) (l : List Nat) :
    (s.offer v).readItems l = s.readItems l :=
  State.readItems_congr (s := s.offer v) (t := s) rfl l fun _ _ _ _ => rfl

/-- R199: HASH once its checks have passed. -/
theorem exec_hash_eq {s : State} (hp : s.preCheck .hash = .none) :
    exec .hash s =
      (s.offer (encode .hash)).withRead (s.readBuf s.msgAddr.toNat s.msgLen) fun msg =>
        .next ((s.offer (encode .hash)).completeRead (deser (sha256 msg))) := by
  simp only [exec, execHash, runCommand_ok hp, readBuf_offer]
  rfl

/-- R225: HMAC once its checks have passed. -/
theorem exec_hmac_eq {s : State} (hp : s.preCheck .hmac = .none) :
    exec .hmac s =
      (s.offer (encode .hmac)).withRead (s.readBuf s.keyAddr.toNat s.keyLen.toNat) fun key =>
        (s.offer (encode .hmac)).withRead (s.readBuf s.msgAddr.toNat s.msgLen) fun msg =>
          .next ((s.offer (encode .hmac)).completeRead (deser (hmacTag key msg))) := by
  simp only [exec, execHmac, runCommand_ok hp, readBuf_offer]
  rfl

/-- R245: MERKLE once its checks have passed. -/
theorem exec_merkle_eq {s : State} (hp : s.preCheck .merkle = .none) :
    exec .merkle s =
      (s.offer (encode .merkle)).withRead (s.readItems s.leafAddrs) fun items =>
        .next ((s.offer (encode .merkle)).completeRead (deser (reduceLayer (items.map sha256)))) := by
  simp only [exec, execMerkle, runCommand_ok hp, readItems_offer]
  rfl

/-! ### Leaves in the item buffer (R243) -/

/-- R243: every leaf is one of the items, the last one where their number is odd. -/
theorem mem_leafAddrs {s : State} {a : Nat} (ha : a ∈ s.leafAddrs) :
    ∃ j < s.itemCount.toNat, a = s.itemAddr.toNat + Config.itemBytes * j := by
  obtain ⟨i, hi, rfl⟩ := List.mem_map.mp ha
  have hlt : i < paddedCount s.itemCount.toNat := List.mem_range.mp hi
  refine ⟨min i (s.itemCount.toNat - 1), ?_, rfl⟩
  unfold paddedCount at hlt
  omega

/-- R243: leaf j of an item the host supplied is at the address of item j. -/
theorem leafAddr_of_lt {s : State} {j : Nat} (hj : j < s.itemCount.toNat) :
    s.leafAddr j = s.itemAddr.toNat + Config.itemBytes * j := by
  rw [State.leafAddr, Nat.min_eq_left (Nat.le_sub_one_of_lt hj)]

/-- R243: the items before item j, item j and what follows, as the leaves read them. -/
theorem leafAddrs_split {s : State} {j : Nat} (hj : j < s.itemCount.toNat) :
    ∃ rest, s.leafAddrs =
      (List.range j).map s.leafAddr ++ (s.itemAddr.toNat + Config.itemBytes * j) :: rest := by
  obtain ⟨d, hd⟩ : ∃ d, paddedCount s.itemCount.toNat = j + (d + 1) :=
    ⟨paddedCount s.itemCount.toNat - (j + 1), by unfold paddedCount; omega⟩
  refine ⟨(List.range d).map fun i => s.leafAddr (j + (i + 1)), ?_⟩
  rw [State.leafAddrs, hd, List.range_add, List.range_succ_eq_map]
  simp [leafAddr_of_lt hj]

/-- A stretch of a readable buffer is readable. -/
theorem State.bufferReadable.sub {s : State} {base n : Nat} (h : s.bufferReadable base n) {off m : Nat}
    (hle : off + m ≤ n) : s.bufferReadable (base + off) m := fun i hi => by
  rw [Nat.add_assoc]
  exact h (off + i) (by omega)

/-- R92: an item that ends within the readable first `n` bytes of the item buffer is readable. -/
theorem item_readable {s : State} {n j : Nat} (h : s.bufferReadable s.itemAddr.toNat n)
    (hj : Config.itemBytes * (j + 1) ≤ n) :
    s.bufferReadable (s.itemAddr.toNat + Config.itemBytes * j) Config.itemBytes :=
  h.sub hj

/-- R92: where the item buffer is readable, so is every leaf. -/
theorem leafAddrs_readable {s : State} (h : s.operandsReadable .merkle) :
    ∀ a ∈ s.leafAddrs, s.bufferReadable a Config.itemBytes := fun a ha => by
  obtain ⟨j, hj, rfl⟩ := mem_leafAddrs ha
  exact item_readable h (Nat.mul_le_mul_left _ hj)

/-! ### Readable operands: the command completes -/

/-- R199: HASH of a readable message. -/
theorem exec_hash_readable {s : State} (hp : s.preCheck .hash = .none)
    (h : s.operandsReadable .hash) :
    exec .hash s =
      .next ((s.offer (encode .hash)).completeRead (deser (sha256 s.message))) := by
  rw [exec_hash_eq hp, State.readBuf_ok h]
  rfl

/-- R225: HMAC of a readable key and message. -/
theorem exec_hmac_readable {s : State} (hp : s.preCheck .hmac = .none)
    (h : s.operandsReadable .hmac) :
    exec .hmac s =
      .next ((s.offer (encode .hmac)).completeRead (deser (hmacTag s.key s.message))) := by
  rw [exec_hmac_eq hp, State.readBuf_ok h.1, State.readBuf_ok h.2]
  rfl

/-- R245: MERKLE of readable items. -/
theorem exec_merkle_readable {s : State} (hp : s.preCheck .merkle = .none)
    (h : s.operandsReadable .merkle) :
    exec .merkle s =
      .next ((s.offer (encode .merkle)).completeRead (deser (reduceLayer
        ((s.leafAddrs.map fun a => s.bytesAt a Config.itemBytes).map sha256)))) := by
  rw [exec_merkle_eq hp, State.readItems_ok (leafAddrs_readable h)]
  rfl

/-- R190, R95: a reading command whose checks pass and whose operands can be read completes. -/
theorem exec_readable {i : Instr} {s : State} (hi : i = .hash ∨ i = .hmac ∨ i = .merkle)
    (hp : s.preCheck i = .none) (h : s.operandsReadable i) :
    ∃ r, exec i s = .next ((s.offer (encode i)).completeRead r) := by
  obtain rfl | rfl | rfl := hi
  · exact ⟨_, exec_hash_readable hp h⟩
  · exact ⟨_, exec_hmac_readable hp h⟩
  · exact ⟨_, exec_merkle_readable hp h⟩

/-! ### The race mark (R95) -/

/-- R95: the COMPLETE of a raced command leaves drawn words. -/
theorem completeRead_of_raced {s : State} (hr : s.raced = true) (r : Words8) :
    s.completeRead r = (s.complete r).scrambleH := by
  simp only [State.completeRead, hr, if_true]

/-- R92: the addresses a running engine reads are the read set of its command. -/
theorem runningReads_run {s : State} {op : BitVec 4} {ph : Phase} {i : Instr}
    (hf : s.fsm = .run op ph) (hi : decodeOp op = .instr i) (a : Nat) :
    s.runningReads a = s.inReadSet a i := by
  simp only [State.runningReads, hf, hi]

/-- R80: a host write of memory at an address that exists. -/
theorem writeMem_of_lt {s : State} {a : Nat} (ha : a < Config.memSize) (b : Byte) :
    s.writeMem a b =
      .next { s with mem := Memory.set s.mem a b, raced := s.raced || s.runningReads a } :=
  if_pos ha

/-- Settles O26: with readable operands the command comes to COMPLETE, which draws the words of H when
it finds the race mark; the mark is set by a write into the read set (log entry 9). -/
theorem racedResultIsAnyValue : Obligations.RacedResultIsAnyValue := by
  refine ⟨fun i s hi hp hread hraced => ?_, fun s a b op ph i ha hf hop => ?_⟩
  · obtain ⟨r, hr⟩ := exec_readable hi hp hread
    rw [completeRead_of_raced (s := s.offer (encode i)) hraced] at hr
    exact ⟨_, hr, rfl, rfl, rfl, rfl, rfl, rfl⟩
  · exact ⟨_, writeMem_of_lt ha b, by rw [runningReads_run hf hop]⟩

/-! ### A read with side effects refuses the command (R83) -/

/-- R83: a read of an admitted byte whose reads have side effects. -/
theorem memRead_of_sideEffect {s : State} {a : Nat} (ha : admitted s.platform a = true)
    (hs : sideEffectAt s.platform a = true) : s.memRead a = .sideEffect a := by
  simp only [State.memRead, ha, hs, if_true]

/-- R16: a read whose first k bytes are readable answers them and what the rest answers. -/
theorem readBuf_add {s : State} {base k : Nat} (h : s.bufferReadable base k) (m : Nat) :
    s.readBuf base (k + m) = (s.readBuf (base + k) m).append (s.bytesAt base k) := by
  induction k generalizing base with
  | zero => simp [State.bytesAt_zero, ReadResult.append_nil]
  | succ k ih =>
    have hfirst : s.readable base := h 0 (Nat.succ_pos k)
    have hrest := ih (h.sub (off := 1) (by omega))
    rw [Nat.add_right_comm, State.readBuf, State.memRead_of_readable hfirst, hrest,
      State.bytesAt_succ, ReadResult.append_cons, Nat.add_assoc, Nat.add_comm 1 k]
    cases s.readBuf (base + (k + 1)) m <;> rfl

/-- R83: the first byte of a buffer that is not readable ends the read; here its reads have side
effects. -/
theorem readBuf_sideEffect {s : State} {base n k : Nat} (hk : k < n) (h : s.bufferReadable base k)
    (ha : admitted s.platform (base + k) = true) (hs : sideEffectAt s.platform (base + k) = true) :
    s.readBuf base n = .sideEffect (base + k) := by
  obtain ⟨m, rfl⟩ : ∃ m, n = k + (m + 1) := ⟨n - (k + 1), by omega⟩
  rw [readBuf_add h, State.readBuf, memRead_of_sideEffect ha hs]
  rfl

/-- R83, R243: the first item that cannot be read whole ends the reads; here at a read with side
effects. -/
theorem readItems_sideEffect {s : State} {l rest : List Nat} {a e : Nat}
    (hl : ∀ x ∈ l, s.bufferReadable x Config.itemBytes)
    (he : s.readBuf a Config.itemBytes = .sideEffect e) :
    s.readItems (l ++ a :: rest) = .sideEffect e := by
  induction l with
  | nil => simp only [List.nil_append, State.readItems, he]
  | cons x l ih =>
    have hx := State.readBuf_ok (hl x List.mem_cons_self)
    have htail := ih fun y hy => hl y (List.mem_cons_of_mem x hy)
    simp only [List.cons_append, State.readItems, hx, htail]

/-- R83, R243: byte k of the item buffer is byte k mod 32 of item k / 32; the items before it are
readable. -/
theorem readItems_leafAddrs_sideEffect {s : State} {k : Nat}
    (hk : k < Config.itemBytes * s.itemCount.toNat) (h : s.bufferReadable s.itemAddr.toNat k)
    (ha : admitted s.platform (s.itemAddr.toNat + k) = true)
    (hs : sideEffectAt s.platform (s.itemAddr.toNat + k) = true) :
    s.readItems s.leafAddrs = .sideEffect (s.itemAddr.toNat + k) := by
  have hpos : 0 < Config.itemBytes := by decide
  have hj : k / Config.itemBytes < s.itemCount.toNat := Nat.div_lt_of_lt_mul hk
  have hsplit : Config.itemBytes * (k / Config.itemBytes) + k % Config.itemBytes = k :=
    Nat.div_add_mod k _
  have hadd : s.itemAddr.toNat + Config.itemBytes * (k / Config.itemBytes) + k % Config.itemBytes =
      s.itemAddr.toNat + k := by rw [Nat.add_assoc, hsplit]
  obtain ⟨rest, hleaves⟩ := leafAddrs_split hj
  have before : ∀ x ∈ (List.range (k / Config.itemBytes)).map s.leafAddr,
      s.bufferReadable x Config.itemBytes := by
    intro x hx
    obtain ⟨i, hi, rfl⟩ := List.mem_map.mp hx
    have hi : i < k / Config.itemBytes := List.mem_range.mp hi
    rw [leafAddr_of_lt (hi.trans hj)]
    exact item_readable h ((Nat.mul_le_mul_left _ hi).trans (Nat.mul_div_le k _))
  have here := readBuf_sideEffect (Nat.mod_lt k hpos) (h.sub hsplit.le) (hadd ▸ ha) (hadd ▸ hs)
  rw [hleaves, readItems_sideEffect before here, hadd]

/-- Settles O25: the first read of the command that gives no byte is the one with side effects; the
model refuses the command there, under the address of that read (log entry 15). -/
theorem sideEffectReadIsRefused : Obligations.SideEffectReadIsRefused := by
  refine fun s k => ⟨fun hp hk h ha hs => ?hash, fun hp hk h ha hs => ?key,
    fun hp hkey hk h ha hs => ?message, fun hp hk h ha hs => ?merkle⟩
  case hash => rw [exec_hash_eq hp, readBuf_sideEffect hk h ha hs]; rfl
  case key => rw [exec_hmac_eq hp, readBuf_sideEffect hk h ha hs]; rfl
  case message =>
    rw [exec_hmac_eq hp, State.readBuf_ok hkey, withRead_ok, readBuf_sideEffect hk h ha hs]; rfl
  case merkle => rw [exec_merkle_eq hp, readItems_leafAddrs_sideEffect hk h ha hs]; rfl

/-! ### The register map and the shape of an access (R32, R86) -/

/-- R32: a named register, or a reserved slot that no named register takes. -/
def Reg.InMap (r : Reg) : Prop :=
  ∀ n, r = .reserved n → n ∈ [14, 15, 56, 57, 58, 59, 60, 61, 62, 63]

/-- R32: the offset of a register of the map is that of an aligned word of the block, and its slot names
the register. -/
theorem offsetOf_slot {r : Reg} (hr : r.InMap) :
    accessWellFormed (offsetOf r) 4 = true ∧ regOfSlot (offsetOf r / 4) = r := by
  cases r with
  | blk j => clear hr; revert j; decide
  | h i => clear hr; revert i; decide
  | hex k => clear hr; revert k; decide
  | reserved n =>
    have slots : ∀ n ∈ [14, 15, 56, 57, 58, 59, 60, 61, 62, 63],
        accessWellFormed (offsetOf (.reserved n)) 4 = true ∧
          regOfSlot (offsetOf (.reserved n) / 4) = .reserved n := by decide
    exact slots n (hr n rfl)
  | _ => decide

/-- R32: two named registers at one offset are one register. -/
theorem offsetOf_injective {r r' : Reg} (hr : ∀ n, r ≠ .reserved n) (hr' : ∀ n, r' ≠ .reserved n)
    (h : offsetOf r = offsetOf r') : r = r' :=
  calc r = regOfSlot (offsetOf r / 4) := (offsetOf_slot fun n e => absurd e (hr n)).2.symm
    _ = regOfSlot (offsetOf r' / 4) := by rw [h]
    _ = r' := (offsetOf_slot fun n e => absurd e (hr' n)).2

/-- R86: an aligned word access at a register's offset reaches that register. -/
theorem selectReg_offsetOf {s : State} {r : Reg} (hrst : s.rst = false) (hr : r.InMap) :
    s.selectReg (s.platform.regBase + offsetOf r) 4 = .ok r := by
  obtain ⟨hshape, hslot⟩ := offsetOf_slot hr
  rw [selectReg_offset hrst hshape, hslot]

/-- R86: an access of another width or alignment inside the block has no meaning. -/
theorem selectReg_malformed {s : State} {off size : Nat} (hrst : s.rst = false) (hoff : off < 256)
    (hshape : size ≠ 4 ∨ off % 4 ≠ 0) :
    s.selectReg (s.platform.regBase + off) size = .error (.malformedAccess off size) := by
  have hbad : accessWellFormed off size = false := by
    obtain h | h := hshape <;> simp [accessWellFormed, accessIsWord, accessIsAligned, h]
  simp [State.selectReg, hrst, hoff, hbad]

/-- Settles O39: the table slot by slot, then the accesses by what `selectReg` answers. -/
theorem registerMapAndAccessShape : Obligations.RegisterMapAndAccessShape := by
  refine ⟨by decide, by decide, by decide, by decide, by decide, fun s r hrst hr => ?reached,
    fun s off size hrst hoff hshape => ?malformed, by decide,
    fun r r' hr h hr' => offsetOf_injective hr hr' h⟩
  case reached =>
    simp only [State.busWrite, State.busRead, selectReg_offsetOf hrst hr, implies_true, and_self]
  case malformed =>
    simp only [State.busWrite, State.busRead, selectReg_malformed hrst hoff hshape, implies_true,
      and_self]

end Sys2Proof.Machine
end

section
/-!
PROOFS. The statements of 30_encoding.md: which words are commands, that `decode` and `encode` are
inverse to each other, and what a CMD write of any other word does.
-/

namespace Sys2Proof.Machine

/-! ### The opcode map (R111) -/

/-- R111: the row of a command in the opcode map. -/
theorem decodeOp_eq_instr_iff {op : BitVec 4} {i : Instr} :
    decodeOp op = .instr i ↔ op = opcode i :=
  ⟨decodeOp_eq, fun h => h ▸ decodeOp_opcode i⟩

/-- R111: the opcodes of the five rows. -/
theorem mem_opcodes_iff {op : BitVec 4} :
    op ∈ [(0x1 : BitVec 4), 0x2, 0x3, 0x4, 0x5] ↔ ∃ i, op = opcode i := by
  constructor
  case mp =>
    simp only [List.mem_cons, List.not_mem_nil, or_false]
    rintro (h | h | h | h | h)
    exacts [⟨.init, h⟩, ⟨.compress, h⟩, ⟨.hash, h⟩, ⟨.hmac, h⟩, ⟨.merkle, h⟩]
  case mpr => rintro ⟨i, rfl⟩; cases i <;> decide

/-- R115: an OP outside the five rows. -/
theorem decodeOp_undefinedOpcode {op : BitVec 4} :
    op ∉ [(0x1 : BitVec 4), 0x2, 0x3, 0x4, 0x5] → decodeOp op = .illegal .undefinedOpcode := by
  revert op
  decide

/-! ### The command word (R110, R112) -/

/-- R110: a command word is its two fields, RSVD above OP. -/
theorem rsvdField_append_opField (w : Word) : rsvdField w ++ opField w = w :=
  BitVec.extractLsb'_append_extractLsb'

/-- R112: a word with no reserved bit set means what its OP does. -/
theorem decode_eq_decodeOp {w : Word} (h : rsvdField w = 0) : decode w = decodeOp (opField w) :=
  if_pos h

/-- R115: a word with a reserved bit set is illegal whatever its OP. -/
theorem decode_reservedBitSet {w : Word} (h : rsvdField w ≠ 0) :
    decode w = .illegal .reservedBitSet := if_neg h

/-- R112: what the two fields of a word that stands for `i` hold. -/
theorem decode_eq_instr_iff_fields {w : Word} {i : Instr} :
    decode w = .instr i ↔ rsvdField w = 0 ∧ opField w = opcode i := by
  by_cases h : rsvdField w = 0
  · rw [decode_eq_decodeOp h, decodeOp_eq_instr_iff, and_iff_right h]
  · rw [decode_reservedBitSet h]
    exact ⟨nofun, fun ⟨h', _⟩ => absurd h' h⟩

/-- R112: the one word that stands for `i`. -/
theorem decode_eq_instr_iff {w : Word} {i : Instr} : decode w = .instr i ↔ w = encode i := by
  constructor
  case mp =>
    intro h
    obtain ⟨hrsvd, hop⟩ := decode_eq_instr_iff_fields.1 h
    calc w = rsvdField w ++ opField w := (rsvdField_append_opField w).symm
      _ = encode i := by rw [hrsvd, hop, encode]
  case mpr => rintro rfl; exact decode_encode_eq i

/-- R112: the words that stand for a command, by their fields. -/
theorem exists_decode_eq_instr_iff {w : Word} :
    (∃ i, decode w = .instr i) ↔
      rsvdField w = 0 ∧ opField w ∈ [(0x1 : BitVec 4), 0x2, 0x3, 0x4, 0x5] := by
  simp only [decode_eq_instr_iff_fields, exists_and_left, mem_opcodes_iff]

/-- R112: the host's check of a word accepts the word of a command. -/
theorem commandWordWellFormed_encode (i : Instr) : commandWordWellFormed (encode i) = true := by
  cases i <;> decide

/-- The table's numbering of a word that stands for `i`: bit n is bit n of the word. -/
theorem decodeTableWord_toNat {w : Word} {i : Instr} (h : decode w = .instr i) :
    decodeTableWord 32 w.toNat = some i := by
  simp [decodeTableWord, Nat.mod_eq_of_lt w.isLt, w.isLt, h]

/-- Settles O2: a word is its two fields (`rsvdField_append_opField`) and the opcode map has one row for
each command, so `encode i` is the one word that decodes to `i`. -/
theorem decodeEncodeRoundTrip : Obligations.DecodeEncodeRoundTrip := fun i _ =>
  ⟨decode_encode_eq i, decodeTableWord_toNat (decode_encode_eq i), commandWordWellFormed_encode i,
    fun _ => decode_eq_instr_iff.1⟩

/-! ### A CMD write that is rejected (R112, R301) -/

/-- R265: a CMD write while idle offers the word for acceptance. -/
theorem writeReg_cmd_accept {s : State} (hb : s.status.busy = false) (w : Word) :
    s.writeReg .cmd w = s.accept w := by
  simp [State.writeReg, hb, State.writeIdle]

/-- R301: acceptance of a word whose checks fail. -/
theorem accept_reject {s : State} {w : Word} (hc : s.preCheckWord w ≠ .none) :
    s.accept w = (s.offer w).reject (s.preCheckWord w) := by
  unfold State.accept
  split
  next h => exact absurd h hc
  next => rfl

/-- R301: the check that a word which stands for no command fails. -/
theorem preCheckWord_illegal {s : State} {w : Word} (hw : ∀ i, decode w ≠ .instr i) :
    s.preCheckWord w = .illegalCmd := by
  unfold State.preCheckWord
  split
  next => rfl
  next i hi => exact absurd hi (hw i)

/-- R112: a CMD write while idle of a word that stands for no command. -/
theorem writeReg_cmd_illegal {s : State} {w : Word} (hb : s.status.busy = false)
    (hw : ∀ i, decode w ≠ .instr i) : s.writeReg .cmd w = (s.offer w).reject .illegalCmd := by
  have hc : s.preCheckWord w = .illegalCmd := preCheckWord_illegal hw
  rw [writeReg_cmd_accept hb, accept_reject (by simp [hc]), hc]

/-- Settles O1: by the fields of a word, by its match with `encode i` under the full mask, and by the
rejection of every other word. -/
theorem decodeIsTheOpcodeMap : Obligations.DecodeIsTheOpcodeMap := by
  refine ⟨fun _ => exists_decode_eq_instr_iff, fun w i => ?fullMask, fun w i h => ?opcode,
    fun s w hb hw => ?rejected⟩
  case fullMask =>
    have hmask : w &&& 0xFFFFFFFF = w := BitVec.and_allOnes
    rw [hmask, decode_eq_instr_iff]
  case opcode => exact (decode_eq_instr_iff_fields.1 h).2.symm
  case rejected =>
    rw [writeReg_cmd_illegal hb hw, State.reject_status]
    exact ⟨rfl, rfl, rfl⟩

/-! ### Words written out (R111, 95_test_vectors.md section 10) -/

/-- R115: a word with no reserved bit set is illegal when its OP is outside the five rows. -/
theorem decode_undefinedOpcode {w : Word} (h : rsvdField w = 0)
    (hop : opField w ∉ [(0x1 : BitVec 4), 0x2, 0x3, 0x4, 0x5]) :
    decode w = .illegal .undefinedOpcode :=
  (decode_eq_decodeOp h).trans (decodeOp_undefinedOpcode hop)

/-- Settles O3: each of the five rows is the word `encode` gives, and each of the five illegal words has
an OP outside the rows or a reserved bit set. -/
theorem writtenOutWordsDecode : Obligations.WrittenOutWordsDecode :=
  ⟨decode_eq_instr_iff.2 (by decide), decode_eq_instr_iff.2 (by decide),
    decode_eq_instr_iff.2 (by decide), decode_eq_instr_iff.2 (by decide),
    decode_eq_instr_iff.2 (by decide), decode_undefinedOpcode (by decide) (by decide),
    decode_undefinedOpcode (by decide) (by decide), decode_undefinedOpcode (by decide) (by decide),
    decode_reservedBitSet (by decide), decode_reservedBitSet (by decide)⟩

end Sys2Proof.Machine
end

section
/-!
PROOFS. The statements of 40_primitives.md: the rotations and the shift, choose and majority and the
sigma functions, read bit by bit, and the constant tables as roots of primes.
-/

namespace Sys2Proof.Machine

/-! ### Rotations and shift (R131 to R133) -/

/-- The word whose 32 bits are all 1. -/
theorem getLsbD_ones {i : Nat} (hi : i < 32) : (0xFFFFFFFF : Word).getLsbD i = true :=
  BitVec.getLsbD_allOnes.trans (decide_eq_true hi)

/-- R131: the model's rotation is the library's. -/
theorem rotr_eq_rotateRight (x : Word) (n : Nat) : rotr x n = x.rotateRight n := by
  rw [BitVec.rotateRight_def, rotr]
  split
  next h => rw [h, BitVec.ushiftRight_zero, Nat.sub_zero, BitVec.shiftLeft_eq_zero le_rfl,
      BitVec.or_zero]
  next => rfl

/-- R131: the rotation as arithmetic on the 32-bit value. -/
theorem rotr_eq_ofNat {x : Word} {n : Nat} (h : n % 32 ≠ 0) :
    rotr x n =
      BitVec.ofNat 32 (x.toNat / 2 ^ (n % 32) ||| x.toNat * 2 ^ (32 - n % 32) % 2 ^ 32) := by
  have value : (x >>> (n % 32) ||| x <<< (32 - n % 32)).toNat =
      x.toNat / 2 ^ (n % 32) ||| x.toNat * 2 ^ (32 - n % 32) % 2 ^ 32 := by
    rw [BitVec.toNat_or, BitVec.toNat_ushiftRight, BitVec.toNat_shiftLeft,
      Nat.shiftRight_eq_div_pow, Nat.shiftLeft_eq]
  rw [rotr, if_neg h, ← value, BitVec.ofNat_toNat, BitVec.setWidth_eq]

/-- R131: the bit that the rotation brings to position `i`. -/
theorem getLsbD_rotr (x : Word) (n : Nat) {i : Nat} (hi : i < 32) :
    (rotr x n).getLsbD i = x.getLsbD ((i + n) % 32) := by
  rw [rotr_eq_rotateRight, BitVec.getLsbD_rotateRight, decide_eq_true hi, Bool.true_and]
  by_cases h : i < 32 - n % 32
  case pos =>
    have hmod : (i + n) % 32 = n % 32 + i := by omega
    rw [decide_eq_true h, cond_true, hmod]
  case neg =>
    have hmod : (i + n) % 32 = i - (32 - n % 32) := by omega
    rw [decide_eq_false h, cond_false, hmod]

/-- R131: only n mod 32 counts. -/
theorem rotr_congr (x : Word) {m n : Nat} (h : m % 32 = n % 32) : rotr x m = rotr x n := by
  rw [rotr, rotr, h]

/-- R131: a rotation by a multiple of 32 is the identity. -/
theorem rotr_of_mod_eq_zero (x : Word) {n : Nat} (h : n % 32 = 0) : rotr x n = x := if_pos h

/-- R131: the corner case of the word of ones. -/
theorem rotr_ones (n : Nat) : rotr 0xFFFFFFFF n = 0xFFFFFFFF := by
  apply BitVec.eq_of_getLsbD_eq
  intro i hi
  rw [getLsbD_rotr _ _ hi, getLsbD_ones hi, getLsbD_ones (Nat.mod_lt _ (by decide))]

/-- R131: the corner case of the word 0. -/
theorem rotr_zero (n : Nat) : rotr 0 n = 0 := by
  apply BitVec.eq_of_getLsbD_eq
  intro i hi
  exact (getLsbD_rotr 0 n hi).trans (by simp)

/-- R132: where the rotation to the left takes bit `i`. -/
theorem getLsbD_rotl (x : Word) (n : Nat) {i : Nat} (hi : i < 32) :
    (rotl x n).getLsbD ((i + n) % 32) = x.getLsbD i := by
  rw [rotl, getLsbD_rotr _ _ (Nat.mod_lt _ (by decide))]
  congr 1; omega

/-- R133: the shift divides by 2^n. -/
theorem toNat_shr (x : Word) (n : Nat) : (shr x n).toNat = x.toNat / 2 ^ n := by
  rw [shr, BitVec.toNat_ushiftRight, Nat.shiftRight_eq_div_pow]

/-- R133: the bit that the shift brings to position `i`; past the top it is 0. -/
theorem getLsbD_shr (x : Word) (n i : Nat) : (shr x n).getLsbD i = x.getLsbD (i + n) := by
  rw [shr, BitVec.getLsbD_ushiftRight, Nat.add_comm]

/-- Settles O4: the rotation moves bits by `getLsbD_rotr`, the rotation to the left and the constants
follow from it, and the shift is a division. -/
theorem rotationsAndShift : Obligations.RotationsAndShift := by
  refine ⟨fun x n => ?formula, fun x n i hi => getLsbD_rotr x n hi,
    fun x => ⟨rotr_of_mod_eq_zero x rfl, rotr_of_mod_eq_zero x rfl, rotr_congr x rfl⟩,
    fun n => ⟨rotr_ones n, rotr_zero n⟩, by decide, fun _ _ => rfl,
    fun x n i hi => getLsbD_rotl x n hi, by decide,
    fun x n _ => ⟨toNat_shr x n, fun hn => ?topBit⟩, BitVec.ushiftRight_zero, by decide, by decide⟩
  case formula =>
    split
    next h => exact rotr_of_mod_eq_zero x h
    next h => exact rotr_eq_ofNat h
  case topBit => rw [getLsbD_shr, BitVec.getLsbD_of_ge _ _ (by omega)]

/-! ### Choose and majority (R134, R135) -/

/-- R134: bit `i` of `x` chooses between bit `i` of `y` and of `z`. -/
theorem getLsbD_ch (x y z : Word) {i : Nat} (hi : i < 32) :
    (ch x y z).getLsbD i = if x.getLsbD i then y.getLsbD i else z.getLsbD i := by
  simp only [ch, BitVec.getLsbD_xor, BitVec.getLsbD_and, BitVec.getLsbD_not, decide_eq_true hi]
  cases x.getLsbD i <;> simp

/-- R135: the majority of three bits. -/
theorem getLsbD_maj (x y z : Word) (i : Nat) :
    (maj x y z).getLsbD i =
      decide (2 ≤ (x.getLsbD i).toNat + (y.getLsbD i).toNat + (z.getLsbD i).toNat) := by
  have bits : ∀ a b c : Bool,
      ((a && b) ^^ (a && c) ^^ (b && c)) = decide (2 ≤ a.toNat + b.toNat + c.toNat) := by decide
  simp only [maj, BitVec.getLsbD_xor, BitVec.getLsbD_and, bits]

theorem ch_ones (y z : Word) : ch 0xFFFFFFFF y z = y := by
  apply BitVec.eq_of_getLsbD_eq
  intro i hi
  rw [getLsbD_ch _ _ _ hi, getLsbD_ones hi, if_pos rfl]

theorem ch_zero (y z : Word) : ch 0 y z = z := by
  apply BitVec.eq_of_getLsbD_eq
  intro i hi
  exact (getLsbD_ch 0 y z hi).trans (by simp)

theorem ch_self (x y : Word) : ch x y y = y := by
  apply BitVec.eq_of_getLsbD_eq
  intro i hi
  rw [getLsbD_ch _ _ _ hi, ite_self]

theorem maj_self (x z : Word) : maj x x z = x := by
  have absorb : x &&& x ^^^ (x &&& z ^^^ x &&& z) = x := by
    rw [BitVec.xor_self, BitVec.xor_zero, BitVec.and_self]
  rwa [maj, BitVec.xor_assoc]

theorem maj_zero_ones (z : Word) : maj 0 0xFFFFFFFF z = z := by
  have mask : 0xFFFFFFFF &&& z = z := BitVec.allOnes_and
  rw [maj, mask]
  simp

theorem maj_comm (x y z : Word) : maj x y z = maj y x z := by
  apply BitVec.eq_of_getLsbD_eq
  intro i _
  rw [getLsbD_maj, getLsbD_maj, Nat.add_comm (x.getLsbD i).toNat]

theorem maj_right_comm (x y z : Word) : maj x y z = maj x z y := by
  apply BitVec.eq_of_getLsbD_eq
  intro i _
  rw [getLsbD_maj, getLsbD_maj, Nat.add_right_comm]

/-- Settles O5: the laws follow from the bits that `ch` and `maj` have. -/
theorem chooseAndMajority : Obligations.ChooseAndMajority :=
  ⟨fun x y z i hi => ⟨getLsbD_ch x y z hi, getLsbD_maj x y z i⟩,
    fun x y z => ⟨rfl, rfl, ch_ones y z, ch_zero y z, ch_self x y, maj_self x z,
      maj_zero_ones z, maj_comm x y z, maj_right_comm x y z⟩,
    by decide, by decide⟩

/-! ### The sigma functions (R136 to R139) -/

/-- R136, R137: bit `i` of the exclusive-or of three rotations. -/
theorem getLsbD_rotr_xor_rotr_xor_rotr (x : Word) (k m n : Nat) {i : Nat} (hi : i < 32) :
    (rotr x k ^^^ rotr x m ^^^ rotr x n).getLsbD i =
      ((x.getLsbD ((i + k) % 32) ^^ x.getLsbD ((i + m) % 32)) ^^ x.getLsbD ((i + n) % 32)) := by
  simp only [BitVec.getLsbD_xor, getLsbD_rotr _ _ hi]

/-- R138, R139: bit `i` of the exclusive-or of two rotations and a shift. -/
theorem getLsbD_rotr_xor_rotr_xor_shr (x : Word) (k m n : Nat) {i : Nat} (hi : i < 32) :
    (rotr x k ^^^ rotr x m ^^^ shr x n).getLsbD i =
      ((x.getLsbD ((i + k) % 32) ^^ x.getLsbD ((i + m) % 32)) ^^ x.getLsbD (i + n)) := by
  simp only [BitVec.getLsbD_xor, getLsbD_rotr _ _ hi, getLsbD_shr]

/-- Settles O6: each function is one of the two exclusive-ors above; the values at the constants and the
examples are computed. -/
theorem sigmaFunctions : Obligations.SigmaFunctions :=
  ⟨fun x _ hi =>
      ⟨getLsbD_rotr_xor_rotr_xor_rotr x 2 13 22 hi, getLsbD_rotr_xor_rotr_xor_rotr x 6 11 25 hi,
        getLsbD_rotr_xor_rotr_xor_shr x 7 18 3 hi, getLsbD_rotr_xor_rotr_xor_shr x 17 19 10 hi⟩,
    by decide, by decide, by decide⟩

/-! ### The constant tables (R140, R141) -/

/-- The primes below `m` by trial division. -/
def primesBelow (m : Nat) : List Nat :=
  (List.range m).filter fun n =>
    decide (2 ≤ n) && (List.range n).all fun d => decide (d < 2) || decide (n % d ≠ 0)

/-- The first 64 primes. -/
def firstPrimes : List Nat :=
  [2, 3, 5, 7, 11, 13, 17, 19, 23, 29, 31, 37, 41, 43, 47, 53, 59, 61, 67, 71, 73, 79, 83, 89, 97,
    101, 103, 107, 109, 113, 127, 131, 137, 139, 149, 151, 157, 163, 167, 173, 179, 181, 191, 193, 197,
    199, 211, 223, 227, 229, 233, 239, 241, 251, 257, 263, 269, 271, 277, 281, 283, 293, 307, 311]

/-- Trial division by every smaller number decides primality. -/
theorem primesBelow_eq_filter_prime (m : Nat) :
    primesBelow m = (List.range m).filter fun n => decide n.Prime := by
  apply List.filter_congr
  intro n _
  rw [Bool.eq_iff_iff, decide_eq_true_iff, Nat.prime_def_lt']
  simp only [Bool.and_eq_true, List.all_eq_true, List.mem_range, Bool.or_eq_true, decide_eq_true_iff,
    ne_eq, ← Nat.dvd_iff_mod_eq_zero, or_iff_not_imp_left, not_lt]
  exact and_congr_right fun _ => forall_congr' fun _ => forall_comm

/-- Below `b ^ 2`, division by the numbers below `b` is enough. -/
theorem prime_iff_of_lt_sq {n b : Nat} (hn : n < b ^ 2) :
    n.Prime ↔ 2 ≤ n ∧ ∀ m < b, 2 ≤ m → m < n → ¬ m ∣ n := by
  constructor
  case mp => exact fun hp => ⟨hp.two_le, fun m _ h2 hm => (Nat.prime_def_lt'.1 hp).2 m h2 hm⟩
  case mpr =>
    rintro ⟨h2, h⟩
    refine Nat.prime_def_le_sqrt.2 ⟨h2, fun m hm hsqrt => h m ?_ hm ?_⟩
    · exact hsqrt.trans_lt (Nat.sqrt_lt'.2 hn)
    · exact hsqrt.trans_lt (Nat.sqrt_lt_self h2)

theorem primesBelow_312 : primesBelow 312 = firstPrimes := by
  have short : primesBelow 312 =
      (List.range 312).filter fun n => decide (2 ≤ n ∧ ∀ m < 18, 2 ≤ m → m < n → ¬ m ∣ n) := by
    rw [primesBelow_eq_filter_prime]
    refine List.filter_congr fun n hn => decide_eq_decide.2 (prime_iff_of_lt_sq ?_)
    exact (List.mem_range.1 hn).trans (by decide)
  rw [short]
  decide +kernel

/-- `r` is the `k`-th root of `m`, floored. -/
abbrev IsFloorRoot (k m r : Nat) : Prop := r ^ k ≤ m ∧ m < (r + 1) ^ k

/-- A word that, below some whole part `c`, gives the first 32 fractional bits of a root, is that root
times 2^32, floored and taken mod 2^32. -/
theorem exists_isFloorRoot_of_wholePart {k m : Nat} {w : Word}
    (h : ∃ c < 7, IsFloorRoot k m (c * 2 ^ 32 + w.toNat)) :
    ∃ r, r ^ k ≤ m ∧ m < (r + 1) ^ k ∧ w = BitVec.ofNat 32 r := by
  obtain ⟨c, -, hle, hlt⟩ := h
  refine ⟨c * 2 ^ 32 + w.toNat, hle, hlt, BitVec.eq_of_toNat_eq ?_⟩
  rw [BitVec.toNat_ofNat, Nat.mul_add_mod_self_right, Nat.mod_eq_of_lt w.isLt]

/-- R140: K holds the fractional bits of the cube roots, whose whole parts are below 7. -/
theorem roundConstant_isFloorRoot : ∀ i < 64, ∃ c < 7,
    IsFloorRoot 3 (firstPrimes.getD i 0 * 2 ^ 96) (c * 2 ^ 32 + (roundConstant i).toNat) := by
  decide +kernel

/-- R141: the IV holds the fractional bits of the square roots, whose whole parts are below 5. -/
theorem wordAt_iv_isFloorRoot : ∀ i < 8, ∃ c < 7,
    IsFloorRoot 2 (firstPrimes.getD i 0 * 2 ^ 64) (c * 2 ^ 32 + (wordAt iv i).toNat) := by
  decide +kernel

/-- Settles O7: the primes are listed, each entry is a root's fraction, and the whole part of the root
vanishes mod 2^32. -/
theorem constantTablesAreRootsOfPrimes : Obligations.ConstantTablesAreRootsOfPrimes := by
  unfold Obligations.ConstantTablesAreRootsOfPrimes
  intro primes
  have hprimes : primes = firstPrimes := primesBelow_312
  rw [hprimes]
  exact ⟨rfl, rfl, rfl,
    fun i hi => exists_isFloorRoot_of_wholePart (roundConstant_isFloorRoot i hi),
    fun i hi => exists_isFloorRoot_of_wholePart (wordAt_iv_isFloorRoot i hi)⟩

end Sys2Proof.Machine
end

section
/-!
PROOFS. The pure pipeline of 41_pipeline.md: padding (R160, R161), parsing (R163), the schedule (R165),
the rounds (R166, R167), the digest and its inverse (R170) and its hex view (R171, R205).
-/

namespace Sys2Proof.Machine

/-! ### The padded message (R160, R161) -/

/-- R14: the eight bytes of a 64-bit number, read as one big-endian number. -/
theorem be64Bytes_value {n : Nat} (hn : n < 2 ^ 64) :
    (be64Bytes n).foldl (fun v b => 256 * v + b.toNat) 0 = n := by
  have hbytes : be64Bytes n = [be64Byte n 0, be64Byte n 1, be64Byte n 2, be64Byte n 3, be64Byte n 4,
      be64Byte n 5, be64Byte n 6, be64Byte n 7] := rfl
  rw [hbytes]
  simp only [List.foldl_cons, List.foldl_nil, be64Byte, BitVec.toNat_ofNat]
  omega

/-- R160: the fill after the terminator, in the rule's own form. -/
theorem fillCount_succ (n : Nat) : fillCount (n + 1) = (119 - n % 64) % 64 := by
  unfold fillCount; omega

/-- R160: the padded message in the rule's own form. -/
theorem pad_eq (m : Bytes) :
    pad m = m ++ [0x80] ++ List.replicate ((119 - m.length % 64) % 64) 0x00 ++
      be64Bytes (8 * m.length) := by
  rw [pad_split, fillCount_succ, zeros]
  simp only [List.append_assoc, List.cons_append, List.nil_append]

theorem splitBlocks_length (n : Nat) (ws : List Word) : (splitBlocks n ws).length = n := by
  induction n generalizing ws with
  | zero => rfl
  | succ n ih => rw [splitBlocks, List.length_cons, ih]

/-- R161: the padded message ends with its length field. -/
theorem drop_pad (m : Bytes) : (pad m).drop ((pad m).length - 8) = be64Bytes (8 * m.length) := by
  rw [pad_eq]
  generalize m ++ [0x80] ++ List.replicate _ 0x00 = front
  exact List.drop_left' (by simp)

/-- Settles O8: the shape is `pad_eq` and the length is `pad_length`; what the rest adds is arithmetic
on the length. -/
theorem paddingShape : Obligations.PaddingShape := by
  refine ⟨fun m hm => ?shape, by decide, by decide⟩
  have hlen := pad_length m
  have hvalue : (be64Bytes (8 * m.length)).foldl (fun v b => 256 * v + b.toNat) 0 = 8 * m.length :=
    be64Bytes_value (by omega)
  have hparse : (parse (pad m)).length = blockCount m.length := by
    rw [parse, splitBlocks_length]; omega
  have hcount : blockCount m.length = m.length / 64 + if 56 ≤ m.length % 64 then 2 else 1 := by
    unfold blockCount; split <;> omega
  unfold blockCount at hlen
  exact ⟨pad_eq m, by omega, by omega, hlen, by omega, by omega, hparse, hcount, drop_pad m, hvalue⟩

/-! ### Parsing (R163) -/

/-- R163: block k is words 16k to 16k + 15. -/
theorem splitBlocks_getD {n k : Nat} (ws : List Word) (hk : k < n) :
    (splitBlocks n ws).getD k [] = (ws.drop (16 * k)).take 16 := by
  induction n generalizing k ws with
  | zero => exact absurd hk (Nat.not_lt_zero k)
  | succ n ih =>
    cases k with
    | zero => rfl
    | succ k =>
      rw [splitBlocks, List.getD_cons_succ, ih _ (Nat.lt_of_succ_lt_succ hk), List.drop_drop]
      congr 2; omega

/-- R163: word j of block k is word 16k + j. -/
theorem splitBlocks_getD_getD {n k j : Nat} (ws : List Word) (hk : k < n) (hj : j < 16) :
    ((splitBlocks n ws).getD k []).getD j 0 = ws.getD (16 * k + j) 0 := by
  rw [splitBlocks_getD ws hk]
  simp only [List.getD_eq_getElem?_getD, List.getElem?_take_of_lt hj, List.getElem?_drop]

/-- R163: parsing whole blocks. -/
theorem parse_eq {p : Bytes} {n : Nat} (hp : p.length = 64 * n) :
    parse p = splitBlocks n (packWords p) := by
  rw [parse, hp, Nat.mul_div_cancel_left _ (by decide)]

/-- Settles O9: a block is 16 consecutive words (`splitBlocks_getD`), a word four consecutive bytes
(`packWords_getD`). -/
theorem parsedBlocks : Obligations.ParsedBlocks := by
  refine ⟨fun p n hp => ?_, by decide⟩
  rw [parse_eq hp]
  refine ⟨splitBlocks_length n _, fun k hk => ⟨?length, fun j hj => ?word⟩⟩
  case length =>
    have hwords : (packWords p).length = 16 * n := by rw [packWords_length]; omega
    rw [splitBlocks_getD _ hk, List.length_take, List.length_drop]
    omega
  case word =>
    rw [splitBlocks_getD_getD _ hk hj, packWords_getD (by omega)]
    simp only [show 4 * (16 * k + j) = 64 * k + 4 * j by omega]
    rfl

/-! ### The schedule (R165) -/

/-- R165: an entry of the schedule is there once that many words have been computed. -/
theorem schedule_getD {b : List Word} {n i : Nat} (hn : n ≤ 48) (hi : i < b.length + n) :
    (schedule b).getD i 0 = (expand n b).getD i 0 := by
  rw [schedule, ← Nat.add_sub_cancel' hn, expand_add, expand_getD _ (by rwa [expand_length])]

/-- R165: word t of the schedule is computed from the words before it. -/
theorem schedule_recurrence {b : List Word} (hb : b.length = 16) {t : Nat} (h16 : 16 ≤ t)
    (h64 : t < 64) :
    (schedule b).getD t 0 =
      smallSigma1 ((schedule b).getD (t - 2) 0) + (schedule b).getD (t - 7) 0 +
        smallSigma0 ((schedule b).getD (t - 15) 0) + (schedule b).getD (t - 16) 0 := by
  have hlen : (expand (t - 16) b).length = t := by rw [expand_length]; omega
  have hnew : (schedule b).getD t 0 = scheduleWord (expand (t - 16) b) := by
    rw [schedule_getD (n := t - 16 + 1) (by omega) (by omega), expand_succ,
      List.getD_append_right _ _ _ _ hlen.le, hlen, Nat.sub_self]
    rfl
  have hold : ∀ i < t, (expand (t - 16) b).getD i 0 = (schedule b).getD i 0 := fun i hi =>
    (schedule_getD (by omega) (by omega)).symm
  rw [hnew, scheduleWord, hlen, hold _ (by omega), hold _ (by omega), hold _ (by omega),
    hold _ (by omega)]
  rfl

/-- Settles O10: the first 16 words are kept (`expand_getD`), each later one is `schedule_recurrence`. -/
theorem scheduleRecurrence : Obligations.ScheduleRecurrence := by
  refine ⟨fun b hb => ⟨by rw [schedule, expand_length, hb], fun t ht => expand_getD 48 (hb ▸ ht),
    fun t h16 h64 => ?_⟩, by decide +kernel, by decide +kernel, by decide +kernel⟩
  conv_lhs => rw [schedule_recurrence hb h16 h64]
  simp only [BitVec.toNat_add, Nat.mod_add_mod]

/-! ### The rounds (R166, R167) -/

/-- R167: word-wise addition. -/
theorem wordAt_addWords8 (u v : Words8) (i : Nat) :
    wordAt (addWords8 u v) i = wordAt u i + wordAt v i := by
  unfold wordAt; split <;> rfl

/-- Settles O11: the working variables are `rounds`; sums of words are sums mod 2^32. -/
theorem compressionRounds : Obligations.CompressionRounds := by
  refine ⟨fun v k w => ?round, fun hin b => ?feedForward, by decide +kernel⟩
  case round =>
    refine ⟨?_, rfl, rfl, rfl, ?_, rfl, rfl, rfl⟩ <;>
      simp only [roundFn, add32, BitVec.toNat_add, Nat.mod_add_mod, Nat.add_mod_mod]
  case feedForward =>
    refine ⟨fun t => rounds (schedule b) t hin, rfl, fun _ _ => rfl, fun i _ => ?_⟩
    rw [compress, wordAt_addWords8, BitVec.toNat_add]

/-! ### Lists in pieces of one length -/

/-- Piece i of a sequence made of pieces of k elements starts at k * i. -/
theorem getD_flatMap {α β : Type} {f : α → List β} {k : Nat} (hf : ∀ a, (f a).length = k)
    (l : List α) {i j : Nat} (hi : i < l.length) (hj : j < k) (d : β) (e : α) :
    (l.flatMap f).getD (k * i + j) d = (f (l.getD i e)).getD j d := by
  induction l generalizing i with
  | nil => exact absurd hi (Nat.not_lt_zero i)
  | cons a l ih =>
    rw [List.flatMap_cons]
    cases i with
    | zero =>
      rw [Nat.mul_zero, Nat.zero_add, List.getD_append _ _ _ _ (by rwa [hf]), List.getD_cons_zero]
    | succ i =>
      have hsub : k * (i + 1) + j - k = k * i + j := by rw [Nat.mul_succ]; omega
      rw [List.getD_append_right _ _ _ _ (by rw [hf, Nat.mul_succ]; omega), hf, hsub,
        List.getD_cons_succ, ih (Nat.lt_of_succ_lt_succ hi)]

/-! ### Serialization (R170) -/

/-- R14: byte j of a word, byte 0 the most significant. -/
theorem wordBytes_getD (w : Word) {j : Nat} (hj : j < 4) :
    (wordBytes w).getD j 0 = w.extractLsb' (24 - 8 * j) 8 := by
  interval_cases j <;> rfl

/-- The eight words are listed in index order. -/
theorem wordsList_getD (v : Words8) {i : Nat} (hi : i < 8) :
    (wordsList v).getD i 0 = wordAt v i := by
  interval_cases i <;> rfl

theorem wordAt_wordsOfList (l : List Word) {i : Nat} (hi : i < 8) :
    wordAt (wordsOfList l) i = l.getD i 0 := by
  interval_cases i <;> rfl

/-- R170: byte j of word i of the digest. -/
theorem ser_getD (v : Words8) {i j : Nat} (hi : i < 8) (hj : j < 4) :
    (ser v).getD (4 * i + j) 0 = (wordAt v i).extractLsb' (24 - 8 * j) 8 := by
  rw [ser, getD_flatMap wordBytes_length _ hi hj 0 0, wordsList_getD v hi, wordBytes_getD _ hj]

/-- Splitting four packed bytes gives them back. -/
theorem wordBytes_be32 (a b c d : Byte) : wordBytes (be32 a b c d) = [a, b, c, d] := by
  have hd : (be32 a b c d).extractLsb' 0 8 = d := BitVec.extractLsb'_append_eq_right
  have hc : (be32 a b c d).extractLsb' 8 8 = c := by
    rw [be32, BitVec.extractLsb'_append_eq_of_le (by decide)]
    exact BitVec.extractLsb'_append_eq_right
  have hb : (be32 a b c d).extractLsb' 16 8 = b := by
    rw [be32, BitVec.extractLsb'_append_eq_of_le (by decide),
      BitVec.extractLsb'_append_eq_of_le (by decide)]
    exact BitVec.extractLsb'_append_eq_right
  have ha : (be32 a b c d).extractLsb' 24 8 = a := by
    rw [be32, BitVec.extractLsb'_append_eq_of_le (by decide),
      BitVec.extractLsb'_append_eq_of_le (by decide), BitVec.extractLsb'_append_eq_of_le (by decide)]
    exact BitVec.extractLsb'_eq_self
  rw [wordBytes, ha, hb, hc, hd]

/-- Splitting the words packed from whole groups of four bytes gives the bytes back. -/
theorem flatMap_wordBytes_packWords (n : Nat) {d : Bytes} (hd : d.length = 4 * n) :
    (packWords d).flatMap wordBytes = d := by
  induction n generalizing d with
  | zero => rw [List.length_eq_zero_iff.mp hd]; rfl
  | succ n ih =>
    match d, hd with
    | a :: b :: c :: e :: rest, hd =>
      simp only [List.length_cons] at hd
      rw [packWords, List.flatMap_cons, wordBytes_be32, ih (by omega)]
      rfl

theorem wordsList_wordsOfList {l : List Word} (hl : l.length = 8) :
    wordsList (wordsOfList l) = l := by
  match l, hl with
  | [_, _, _, _, _, _, _, _], _ => rfl

/-- R170: serialisation undoes deserialisation of 32 bytes. -/
theorem ser_deser {d : Bytes} (hd : d.length = 32) : ser (deser d) = d := by
  have hwords : (packWords d).length = 8 := by rw [packWords_length, hd]
  rw [ser, deser, wordsList_wordsOfList hwords, flatMap_wordBytes_packWords 8 hd]

/-- R260: a register read while idle. -/
theorem readReg_rdata_idle {s : State} (hb : s.status.busy = false) (r : Reg) :
    (s.readReg r).rdata = s.regValue r := by
  simp [State.readReg, hb]

/-- Settles O12: byte by byte by `ser_getD`, the inverses by `deser_ser_eq` and `ser_deser`. -/
theorem serializationAndInverse : Obligations.SerializationAndInverse :=
  ⟨fun v => ⟨ser_length v, fun _ hi _ hj => ser_getD v hi hj, deser_ser_eq v⟩,
    fun d hd => ⟨ser_deser hd, fun i hi => by
      rw [deser, wordAt_wordsOfList _ hi, packWords_getD (by omega), be32]⟩,
    fun _ _ hb => readReg_rdata_idle hb _, by decide⟩

/-! ### The hex view (R171, R205) -/

theorem hexPair_length (b : Byte) : (hexPair b).length = 2 := rfl

theorem hexString_length (d : Bytes) : (hexString d).length = 2 * d.length := by
  simp [hexString, List.length_flatMap, hexPair_length, Nat.mul_comm]

/-- R171: the two characters of byte n. -/
theorem hexString_getD (d : Bytes) {n : Nat} (hn : n < d.length) :
    (hexString d).getD (2 * n) 0 = asciiHex ((d.getD n 0).extractLsb' 4 4) ∧
      (hexString d).getD (2 * n + 1) 0 = asciiHex ((d.getD n 0).extractLsb' 0 4) :=
  ⟨getD_flatMap hexPair_length d hn (by decide : 0 < 2) 0 0,
    getD_flatMap hexPair_length d hn (by decide : 1 < 2) 0 0⟩

theorem asciiHex_injective : ∀ a b : BitVec 4, asciiHex a = asciiHex b → a = b := by decide

/-- R171: the two characters of a byte determine it. -/
theorem hexPair_injective {a b : Byte} (h : hexPair a = hexPair b) : a = b := by
  simp only [hexPair, List.cons.injEq, and_true] at h
  have halves : ∀ x : BitVec (4 + 4), x.extractLsb' 4 4 ++ x.extractLsb' 0 4 = x :=
    fun _ => BitVec.extractLsb'_append_extractLsb'
  rw [← halves a, ← halves b, asciiHex_injective _ _ h.1, asciiHex_injective _ _ h.2]

/-- R171: the rendering loses nothing. -/
theorem hexString_injective {d d' : Bytes} (h : hexString d = hexString d') : d = d' := by
  induction d generalizing d' with
  | nil =>
    have hlen := congrArg List.length h
    rw [hexString_length, hexString_length, List.length_nil] at hlen
    exact (List.length_eq_zero_iff.mp (by omega)).symm
  | cons b d ih =>
    match d', h with
    | [], h => cases h
    | b' :: d', h =>
      simp only [hexString, List.flatMap_cons] at h
      obtain ⟨hhead, htail⟩ := List.append_inj h rfl
      rw [hexPair_injective hhead, ih htail]

/-- A field of a field is a field. -/
theorem extractLsb'_extractLsb' {n : Nat} (x : BitVec n) {start len start' len' : Nat}
    (h : start' + len' ≤ len) :
    (x.extractLsb' start len).extractLsb' start' len' = x.extractLsb' (start + start') len' := by
  apply BitVec.eq_of_getLsbD_eq
  intro i hi
  have hlt : start' + i < len := by omega
  simp only [BitVec.getLsbD_extractLsb', hi, hlt, decide_true, Bool.true_and, Nat.add_assoc]

/-- R205: the two HEX words of word i of the digest state spell its four bytes. -/
theorem wordBytes_hexWord (h : Words8) (i : Nat) :
    wordBytes (hexWord h (2 * i)) ++ wordBytes (hexWord h (2 * i + 1)) =
      hexString (wordBytes (wordAt h i)) := by
  have hdiv : (2 * i + 1) / 2 = i := by omega
  have hmod : (2 * i + 1) % 2 = 1 := by omega
  simp only [hexWord, wordBytes_be32, Nat.mul_div_cancel_left _ Nat.two_pos, Nat.mul_mod_right, hdiv,
    hmod]
  simp (disch := decide) only [hexString, hexPair, wordBytes, List.flatMap_cons, List.flatMap_nil,
    extractLsb'_extractLsb']
  rfl

/-- R205: HEX0 to HEX15 in order. -/
theorem flatMap_wordBytes_hexWord (h : Words8) :
    (List.range 16).flatMap (fun k => wordBytes (hexWord h k)) = hexString (ser h) := by
  have hindices : List.range 16 = (List.range 8).flatMap fun i => [2 * i, 2 * i + 1] := by decide
  have hwords : wordsList h = (List.range 8).map (wordAt h) := rfl
  rw [hindices, ser, hexString, hwords, List.flatMap_map, List.flatMap_assoc, List.flatMap_assoc]
  congr 1
  funext i
  rw [List.flatMap_cons, List.flatMap_singleton, wordBytes_hexWord, hexString]

/-- Settles O13: the words by `flatMap_wordBytes_hexWord`, the characters by `hexString_getD`. -/
theorem hexViewSpellsTheDigest : Obligations.HexViewSpellsTheDigest :=
  ⟨flatMap_wordBytes_hexWord, fun d => ⟨hexString_length d, fun _ hn => hexString_getD d hn⟩,
    by decide, fun _ _ => hexString_injective, fun _ _ hb => readReg_rdata_idle hb _,
    fun s k v hb => by simp [State.writeReg, State.writeIdle, hb], by decide, by decide, by decide,
    by decide⟩

end Sys2Proof.Machine
end

section
/-!
PROOFS. The engine of 41_pipeline.md against the meanings of the commands: a step is `exec` of the
decoded command (R182), and the micro-steps come to the same (R172, R180, R183).
-/

namespace Sys2Proof.Machine

/-! ### A step runs the decoded command (R52, R182) -/

/-- R182: the step of a running engine is the meaning of its command. -/
theorem engineCommand_run {s : State} {op : BitVec 4} {ph : Phase} {i : Instr}
    (hf : s.fsm = .run op ph) (hi : decodeOp op = .instr i) : s.engineCommand = exec i s := by
  simp only [State.engineCommand, hf, hi]

/-- R20: with nothing scheduled the engine moves. -/
theorem step_of_schedule_nil {s : State} (hs : s.schedule = []) : step s = s.engineCommand := by
  simp only [step, State.agentStep, hs]

/-- R20: the schedule names the engine's whole command. -/
theorem step_of_schedule_command {s : State} {rest : List Event}
    (hs : s.schedule = .command :: rest) :
    step s = { s with schedule := rest }.engineCommand := by
  simp only [step, State.agentStep, hs]

/-- R265: the engine at the first micro-step of a command. -/
theorem start_eq_goto (s : State) (i : Instr) :
    ∃ ph dp, s.start (opcode i) = s.goto (opcode i) ph dp := by
  cases i with
  | hmac =>
    show ∃ ph dp, s.startHmac (opcode .hmac) = _
    unfold State.startHmac
    split_ifs <;> exact ⟨_, _, rfl⟩
  | init | compress | hash | merkle => exact ⟨_, _, rfl⟩

/-- R265: the word of a command, taken from the table's numbering, is accepted. -/
theorem withFetchWord_encode (s : State) (i : Instr) :
    s.withFetchWord 32 (encode i).toNat =
      { s with rst := false, schedule := [] }.launch (encode i) := by
  have hword : BitVec.ofNat 32 ((encode i).toNat % 2 ^ 32) = encode i := by
    rw [Nat.mod_eq_of_lt (encode i).isLt, BitVec.ofNat_toNat, BitVec.setWidth_eq]
  simp only [State.withFetchWord, hword, State.withCommandWord, decode_encode_eq]

theorem step_withFetchWord (s : State) (i : Instr) :
    step (s.withFetchWord 32 (encode i).toNat) = exec i (s.withFetchWord 32 (encode i).toNat) := by
  rw [withFetchWord_encode]
  obtain ⟨ph, dp, hstart⟩ := start_eq_goto
    ({ s with rst := false, schedule := [] }.offer (encode i)) i
  rw [step_of_schedule_nil (State.launch_schedule _ _),
    engineCommand_run (by rw [State.launch_fsm, opField_encode, hstart]; rfl) (decodeOp_opcode i)]

/-- Settles O45: the agent is read from the schedule and the command from `fsm`. -/
theorem stepRunsTheDecodedCommand : Obligations.StepRunsTheDecodedCommand :=
  ⟨fun s _ _ _ hf hi =>
    ⟨fun hs => (step_of_schedule_nil hs).trans (engineCommand_run hf hi), fun rest hs =>
      (step_of_schedule_command hs).trans (engineCommand_run (s := { s with schedule := rest }) hf hi)⟩,
    fun s i => ⟨decodeTableWord_toNat (decode_encode_eq i), step_withFetchWord s i⟩⟩

/-! ### What the meaning of a command does not look at (R181) -/

/-- R52 to R57: another control state, internal state and BUSY in place of the engine's own. -/
def State.withEngine (s : State) (f : Fsm) (d : Datapath) (b : Bool) : State :=
  { s with fsm := f, dp := d, status := { s.status with busy := b } }

theorem withEngine_offer (s : State) (f : Fsm) (d : Datapath) (b : Bool) (v : Word) :
    (s.withEngine f d b).offer v = (s.offer v).withEngine f d b := rfl

theorem withEngine_complete (s : State) (f : Fsm) (d : Datapath) (b : Bool) (r : Words8) :
    (s.withEngine f d b).complete r = s.complete r := rfl

theorem withEngine_completeRead (s : State) (f : Fsm) (d : Datapath) (b : Bool) (r : Words8) :
    (s.withEngine f d b).completeRead r = s.completeRead r := rfl

theorem withEngine_preCheck (s : State) (f : Fsm) (d : Datapath) (b : Bool) (i : Instr) :
    (s.withEngine f d b).preCheck i = s.preCheck i :=
  preCheck_congr i rfl rfl rfl rfl rfl rfl rfl rfl

theorem withEngine_withRead {α : Type} (s : State) (f : Fsm) (d : Datapath) (b : Bool)
    (r : ReadResult α) (k : α → Host.Outcome State Fault Refusal) :
    (s.withEngine f d b).withRead r k = s.withRead r k := by cases r <;> rfl

theorem withEngine_readBuf (s : State) (f : Fsm) (d : Datapath) (b : Bool) (base n : Nat) :
    (s.withEngine f d b).readBuf base n = s.readBuf base n :=
  State.readBuf_congr rfl fun _ _ => rfl

theorem withEngine_readItems (s : State) (f : Fsm) (d : Datapath) (b : Bool) (l : List Nat) :
    (s.withEngine f d b).readItems l = s.readItems l :=
  State.readItems_congr (s := s.withEngine f d b) (t := s) rfl l fun _ _ _ _ => rfl

/-- R181: what a command whose checks pass does, does not depend on the engine's own state. -/
theorem exec_withEngine {i : Instr} {s : State} (hp : s.preCheck i = .none) (f : Fsm) (d : Datapath)
    (b : Bool) : exec i (s.withEngine f d b) = exec i s := by
  have hp' := (withEngine_preCheck s f d b i).trans hp
  cases i with
  | init => simp only [exec, execInit, runCommand_ok hp, runCommand_ok hp']; rfl
  | compress => simp only [exec, execCompress, runCommand_ok hp, runCommand_ok hp']; rfl
  | hash =>
    rw [exec_hash_eq hp, exec_hash_eq hp', withEngine_readBuf, withEngine_offer, withEngine_withRead]
    rfl
  | hmac =>
    rw [exec_hmac_eq hp, exec_hmac_eq hp', withEngine_readBuf, withEngine_readBuf, withEngine_offer,
      withEngine_withRead]
    simp only [withEngine_withRead]
    rfl
  | merkle =>
    rw [exec_merkle_eq hp, exec_merkle_eq hp', withEngine_readItems, withEngine_offer,
      withEngine_withRead]
    rfl

/-- R180: where the engine stands in a command does not matter to what the command does. -/
theorem exec_goto {i : Instr} {s : State} (hp : s.preCheck i = .none) (op : BitVec 4) (ph : Phase)
    (dp : Datapath) : exec i (s.goto op ph dp) = exec i s :=
  exec_withEngine hp (.run op ph) dp s.status.busy

theorem offer_preCheck (s : State) (v : Word) (i : Instr) : (s.offer v).preCheck i = s.preCheck i :=
  preCheck_congr i rfl rfl rfl rfl rfl rfl rfl rfl

theorem offer_offer (s : State) (v : Word) : (s.offer v).offer v = s.offer v := rfl

theorem runCommand_offer (i : Instr) (s : State) (body : State → Host.Outcome State Fault Refusal) :
    (s.offer (encode i)).runCommand i body = s.runCommand i body := by
  simp only [State.runCommand, offer_preCheck, offer_offer]

/-- R265: a command repeats the offer of its acceptance, which changes nothing. -/
theorem exec_offer (i : Instr) (s : State) : exec i (s.offer (encode i)) = exec i s := by
  cases i <;> simp only [exec, execInit, execCompress, execHash, execHmac, execMerkle, runCommand_offer]

theorem accepted_preCheck (s : State) (v : Word) (i : Instr) :
    (s.accepted v).preCheck i = s.preCheck i :=
  preCheck_congr i rfl rfl rfl rfl rfl rfl rfl rfl

/-- R182: what a command does from its acceptance on is what it does from the state before. -/
theorem exec_acceptedState {i : Instr} {s : State} (hp : s.preCheck i = .none) :
    exec i (s.accepted (encode i)) = exec i s :=
  have hp' : (s.offer (encode i)).preCheck i = .none := (offer_preCheck s (encode i) i).trans hp
  (exec_withEngine hp' s.fsm s.dp true).trans (exec_offer i s)

/-- R180: a micro-step that leaves the engine running moves it within the command. -/
theorem microStep_goto {s t : State} {op : BitVec 4} {ph : Phase} (hf : s.fsm = .run op ph)
    (ht : s.microStep = .next t) (hrun : t.fsm ≠ .idle) : ∃ ph' dp', t = s.goto op ph' dp' := by
  obtain h | ⟨a, rfl⟩ | ⟨-, rfl⟩ := microStep_cases hf ht
  · exact h
  · exact absurd (State.raise_fsm s _ a) hrun
  · exact absurd (State.completeRead_fsm s _) hrun

/-- Settles O48: such a micro-step only moves the engine (`microStep_goto`), and `exec` does not look at
where it stands (`exec_goto`). -/
theorem mergingTheRestOfACommand : Obligations.MergingTheRestOfACommand := by
  intro s t op ph i hf _ hp ht hrun
  obtain ⟨ph', dp', rfl⟩ := microStep_goto hf ht hrun
  exact ⟨⟨ph', rfl⟩, exec_goto hp op ph' dp'⟩

/-! ### The micro-steps compute the command (R172, R180, R183) -/

theorem accepted_offer (s : State) (v : Word) : (s.accepted v).offer v = s.accepted v := rfl

/-- A run that is still going after n micro-steps has been within its command all along. -/
theorem microSteps_goto_of_le {s t : State} {op : BitVec 4} {ph : Phase} {k n : Nat}
    (hf : s.fsm = .run op ph) (hn : s.microSteps n = .next t) (hrun : t.fsm ≠ .idle) (hk : k ≤ n) :
    ∃ ph' dp', s.microSteps k = .next (s.goto op ph' dp') := by
  induction k generalizing s ph n with
  | zero => exact ⟨ph, s.dp, by rw [goto_self hf]; rfl⟩
  | succ k ih =>
    obtain ⟨n, rfl⟩ : ∃ m, n = m + 1 := ⟨n - 1, by omega⟩
    simp only [State.microSteps] at hn ⊢
    cases hu : s.microStep with
    | next u =>
      simp only [hu] at hn ⊢
      have hurun : u.fsm ≠ .idle := fun hidle => by
        rw [microSteps_idle hidle] at hn
        cases hn
        exact hrun hidle
      obtain ⟨ph1, dp1, rfl⟩ := microStep_goto hf hu hurun
      exact ih (s := s.goto op ph1 dp1) rfl hn (Nat.le_of_succ_le_succ hk)
    | fault f => simp only [hu] at hn; cases hn
    | refused r => simp only [hu] at hn; cases hn

/-- The micro-steps of command `i` before the last one bring the engine to COMPLETE, which does what the
command does. -/
def State.ReachesComplete (s : State) (i : Instr) : Prop :=
  ∃ n dp, s.workCount i = n + 1 ∧
    (s.start (opcode i)).microSteps n = .next (s.goto (opcode i) .complete dp) ∧
    exec i s = .next (s.completeRead dp.result)

/-- A read that gives no byte ends command `i` as it ends the command taken as one step. -/
def State.StopsAtRead (s : State) (i : Instr) : Prop :=
  ¬ s.operandsReadable i ∧ (s.start (opcode i)).EndsBy (s.workCount i) (exec i s)

/-- R190: COMPLETE. -/
theorem microStep_complete (s : State) (op : BitVec 4) (dp : Datapath) :
    (s.goto op .complete dp).microStep = .next (s.completeRead dp.result) := rfl

/-- A buffer whose read stops is not readable. -/
theorem not_bufferReadable_of_stops {s : State} {base n : Nat} (h : (s.readBuf base n).stops) :
    ¬ s.bufferReadable base n := fun hr => by
  rw [State.readBuf_ok hr] at h
  exact h

section
variable {s : State} {i : Instr}

/-- Either way the counted micro-steps come to what the command does. -/
theorem microSteps_workCount (h : s.ReachesComplete i ∨ s.StopsAtRead i) :
    (s.start (opcode i)).microSteps (s.workCount i) = exec i s := by
  obtain ⟨n, dp, hn, hrun, hexec⟩ | ⟨-, hends⟩ := h
  · rw [hn, hexec, microSteps_add 1 hrun]
    exact microSteps_one (microStep_complete s _ dp)
  · exact hends 0

/-- While the command can go on, the engine runs it until its last micro-step. -/
theorem running_before_workCount (h : s.ReachesComplete i ∨ s.StopsAtRead i)
    (hr : s.operandsReadable i) {k : Nat} (hk : k < s.workCount i) :
    ∃ ph dp, (s.start (opcode i)).microSteps k = .next (s.goto (opcode i) ph dp) := by
  obtain ⟨n, dp, hn, hrun, -⟩ | ⟨hno, -⟩ := h
  · obtain ⟨ph0, dp0, hstart⟩ := start_eq_goto s i
    rw [hstart] at hrun ⊢
    exact microSteps_goto_of_le (s := s.goto (opcode i) ph0 dp0) rfl hrun nofun (by omega)
  · exact absurd hr hno

end

/-- R193: INIT, by its two micro-steps. -/
theorem reachesComplete_init {s : State} (hs : s.offer (encode .init) = s) (hr : s.raced = false) :
    s.ReachesComplete .init := by
  refine ⟨1, { s.dp with result := iv }, rfl, rfl, ?_⟩
  rw [State.completeRead_of_not_raced _ _ hr, exec, execInit, runCommand_ok rfl, hs]

/-- R195: COMPRESS. -/
theorem reachesComplete_compress {s : State} (hs : s.offer (encode .compress) = s)
    (hr : s.raced = false) : s.ReachesComplete .compress := by
  obtain ⟨dp, hresult, hrun⟩ := microSteps_compress s s.dp
  refine ⟨66, dp, rfl, hrun, ?_⟩
  rw [State.completeRead_of_not_raced _ _ hr, exec, execCompress, runCommand_ok rfl, hs, hresult]

/-- R199, R200: HASH. -/
theorem completes_or_stops_hash {s : State} (hs : s.offer (encode .hash) = s)
    (hp : s.preCheck .hash = .none) : s.ReachesComplete .hash ∨ s.StopsAtRead .hash := by
  have hlen : s.msgLen < 2 ^ 61 := (preCheck_hash_none.mp hp).1
  have hexec := exec_hash_eq hp
  rw [hs] at hexec
  obtain ⟨msg, hmsg⟩ | hstop := ReadResult.ok_or_stops (s.readBuf s.msgAddr.toNat s.msgLen)
  · obtain ⟨dp, hresult, hrun⟩ := run_hash s s.dp hmsg hlen
    exact .inl ⟨_, dp, rfl, hrun, by rw [hexec, hmsg, withRead_ok, hresult]⟩
  · refine .inr ⟨not_bufferReadable_of_stops hstop, ?_⟩
    rw [hexec]
    exact (run_hash_stops s s.dp hstop _).mono (Nat.le_succ _)

/-- R225, R226: HMAC. -/
theorem completes_or_stops_hmac {s : State} (hs : s.offer (encode .hmac) = s)
    (hp : s.preCheck .hmac = .none) : s.ReachesComplete .hmac ∨ s.StopsAtRead .hmac := by
  have hlen : 64 + s.msgLen < 2 ^ 61 := (preCheck_hmac_none.mp hp).1
  have hcount : s.workCount .hmac =
      s.keySteps + 1 + (1 + hashSteps (64 + s.msgLen) + hashSteps 96) + 1 := by
    simp only [State.workCount, State.keySteps]; omega
  have hexec := exec_hmac_eq hp
  rw [hs] at hexec
  obtain ⟨key, hkey⟩ | hstop := ReadResult.ok_or_stops (s.readBuf s.keyAddr.toNat s.keyLen.toNat)
  · obtain ⟨dp, hk0, hkeyrun⟩ := run_key s hkey
    have hk64 : dp.k0.length = 64 := by rw [hk0, normKey_length]
    rw [hkey, withRead_ok] at hexec
    obtain ⟨msg, hmsg⟩ | hstop := ReadResult.ok_or_stops (s.readBuf s.msgAddr.toNat s.msgLen)
    · obtain ⟨dp', hresult, hrun⟩ := run_hmac s hk64 hmsg hlen
      refine .inl ⟨_, dp', hcount, microSteps_trans hkeyrun hrun, ?_⟩
      rw [hexec, hmsg, withRead_ok, hresult, hk0, hmacTag]
    · refine .inr ⟨fun h => not_bufferReadable_of_stops hstop h.2, ?_⟩
      rw [hexec, hcount]
      exact (State.EndsBy.after hkeyrun (run_hmac_stops s hk64 hstop _)).mono (by omega)
  · refine .inr ⟨fun h => not_bufferReadable_of_stops hstop h.1, ?_⟩
    rw [hexec, hcount]
    exact (run_key_stops s hstop _).mono (by omega)

/-- R245, R247: MERKLE. -/
theorem completes_or_stops_merkle {s : State} (hs : s.offer (encode .merkle) = s)
    (hp : s.preCheck .merkle = .none) : s.ReachesComplete .merkle ∨ s.StopsAtRead .merkle := by
  obtain ⟨hpos, -, -⟩ := preCheck_merkle_none.mp hp
  obtain ⟨c, hc⟩ : ∃ c, paddedCount s.itemCount.toNat = c + 1 :=
    ⟨paddedCount s.itemCount.toNat - 1, by unfold paddedCount; omega⟩
  have hleaves : s.leafAddrs = (List.range' 0 (c + 1)).map s.leafAddr := by
    rw [State.leafAddrs, hc, List.range_eq_range']
  have hcount : s.workCount .merkle = hashSteps 32 * (c + 1) + reduceSteps (c + 1) (c + 1) + 1 := by
    rw [State.workCount, hc]
  have hexec := exec_merkle_eq hp
  rw [hs] at hexec
  obtain ⟨items, hitems⟩ | hstop := ReadResult.ok_or_stops (s.readItems s.leafAddrs)
  · obtain ⟨dp, hnode, hstage, hm, hleafrun⟩ := run_leaves s c (i := 0)
      (dp := { s.dp with node := [], stage := .leaf }) (by omega) rfl rfl (hleaves ▸ hitems)
    have hlen : (items.map sha256).length = c + 1 := by
      rw [List.length_map, State.readItems_length hitems, hleaves, List.length_map, List.length_range']
    have hnode' : dp.node = items.map sha256 := hnode
    obtain ⟨dp', hresult, hrun⟩ := run_reduce s (c + 1) (dp := dp) (by rw [hnode', hlen]) hstage
      (by rw [hm, hnode', hlen, hc]) (by simp [hnode'])
    rw [hnode', hlen] at hrun
    refine .inl ⟨_, dp', hcount, microSteps_trans hleafrun hrun, ?_⟩
    rw [hexec, hitems, withRead_ok, hresult, hnode', reduceLayer, hlen]
  · refine .inr ⟨fun h => ?_, ?_⟩
    · rw [State.readItems_ok (leafAddrs_readable h)] at hstop
      exact hstop
    · rw [hexec, hcount, hleaves]
      exact (run_leaves_stops s c (i := 0) (dp := { s.dp with node := [], stage := .leaf }) (by omega) rfl rfl
        (hleaves ▸ hstop) _).mono (by omega)

/-- R183: every command, from the state of its acceptance. -/
theorem completes_or_stops {s : State} {i : Instr} (hs : s.offer (encode i) = s)
    (hr : s.raced = false) (hp : s.preCheck i = .none) : s.ReachesComplete i ∨ s.StopsAtRead i := by
  cases i with
  | init => exact .inl (reachesComplete_init hs hr)
  | compress => exact .inl (reachesComplete_compress hs hr)
  | hash => exact completes_or_stops_hash hs hp
  | hmac => exact completes_or_stops_hmac hs hp
  | merkle => exact completes_or_stops_merkle hs hp

theorem writeReg_cmd_start {s : State} {i : Instr} (hb : s.status.busy = false)
    (hp : s.preCheck i = .none) :
    s.writeReg .cmd (encode i) = (s.accepted (encode i)).start (opcode i) := by
  rw [writeReg_cmd_launch hb hp, launch_eq_start, opField_encode]

theorem accepted_workCount (s : State) (v : Word) (i : Instr) :
    (s.accepted v).workCount i = s.workCount i := by cases i <;> rfl

theorem accepted_operandsReadable {s : State} {i : Instr} (v : Word) (h : s.operandsReadable i) :
    (s.accepted v).operandsReadable i := by cases i <;> exact h

/-- Settles O47: from its acceptance a command reaches COMPLETE or stops at a read
(`completes_or_stops`), and before that the engine runs it. -/
theorem microStepsComputeTheCommand : Obligations.MicroStepsComputeTheCommand := by
  intro i s hb hr hp
  have hp' := (accepted_preCheck s (encode i) i).trans hp
  have hends := completes_or_stops (accepted_offer s (encode i)) hr hp'
  obtain ⟨ph, dp, hstart⟩ := start_eq_goto (s.accepted (encode i)) i
  have hexec : exec i ((s.accepted (encode i)).start (opcode i)) = exec i (s.accepted (encode i)) := by
    rw [hstart, exec_goto hp']
  rw [writeReg_cmd_start hb hp, ← accepted_workCount s (encode i), hexec]
  refine ⟨microSteps_workCount hends, exec_acceptedState hp, fun hread k hk => ?_⟩
  obtain ⟨ph', dp', hrun⟩ := running_before_workCount hends (accepted_operandsReadable _ hread) hk
  exact ⟨_, hrun, rfl⟩

end Sys2Proof.Machine
end

section
/-!
PROOFS. R181 of 41_pipeline.md: the internal state an idle engine holds never shows.  Two runs of a
command that differ in it agree, at every micro-step, in the variables that are live at its phase
(`Datapath.Live`); no micro-step reads any other.
-/

namespace Sys2Proof.Machine

/-! ### The live variables of each phase (R181) -/

/-- R55, R56: what the wrapper of command `i` still reads once the stream being hashed has ended. -/
def Datapath.LiveWrapper (i : Instr) (d e : Datapath) : Prop :=
  match i with
  | .init => True
  | .compress => True
  | .hash => True
  | .hmac => e.hmacPhase = d.hmacPhase ∧ (d.hmacPhase ≠ .keyHash → e.k0 = d.k0)
  | .merkle =>
    e.stage = d.stage ∧ e.node = d.node ∧ (d.stage = .reduce → e.m = d.m ∧ e.p = d.p)

/-- R54, R172: what is left of the stream being hashed and of its padding, and the wrapper around it. -/
structure Datapath.LiveStream (i : Instr) (d e : Datapath) : Prop where
  segs : e.segs = d.segs
  bitlen : e.bitlen = d.bitlen
  tail : e.tail = d.tail
  wrapper : d.LiveWrapper i e

/-- R172: the block buffer at a PutByte, as far as it is filled. -/
structure Datapath.LiveBlock (d e : Datapath) : Prop where
  chain : e.chain = d.chain
  pos : e.pos = d.pos
  lt : d.pos < 64
  bytes : ∀ j < d.pos, blockByte e.blk j = blockByte d.blk j

/-- R53: the variables of a compression in progress. -/
structure Datapath.LiveRound (d e : Datapath) : Prop where
  vars : e.vars = d.vars
  cv : e.cv = d.cv
  w : e.w = d.w
  t : e.t = d.t

/-- R181: the variables that some later micro-step of command `i` reads before it writes them are equal. -/
def Datapath.Live (i : Instr) (d e : Datapath) : Phase → Prop
  | .initLoad => True
  | .put => d.LiveStream i e ∧ d.LiveBlock e
  | .load => i = .compress ∨ (d.LiveStream i e ∧ e.chain = d.chain ∧ e.blk = d.blk)
  | .round => d.LiveRound e ∧ (i = .compress ∨ d.LiveStream i e)
  | .feed => d.LiveRound e ∧ (i = .compress ∨ d.LiveStream i e)
  | .keyByte => i = .hmac ∧ e.k0 = d.k0
  | .keyPad => i = .hmac ∧ e.k0 = d.k0
  | .mask => i = .hmac ∧ e.k0 = d.k0
  | .dup => i = .merkle ∧ e.stage = d.stage ∧ e.node = d.node ∧ e.m = d.m
  | .complete => e.result = d.result

/-- Two engines at the same phase of command `i` whose live variables are equal, or one and the same
engine that has ended. -/
inductive State.Alike (i : Instr) : State → State → Prop
  | running (s : State) (ph : Phase) (d e : Datapath) (h : d.Live i e ph) :
    Alike i (s.goto (opcode i) ph d) (s.goto (opcode i) ph e)
  | ended (t : State) (h : t.fsm = .idle) : Alike i t t

/-- Outcomes that are alike: states that are, or the same refusal. -/
inductive OutcomeAlike (i : Instr) :
    Host.Outcome State Fault Refusal → Host.Outcome State Fault Refusal → Prop
  | next {t u : State} (h : State.Alike i t u) : OutcomeAlike i (.next t) (.next u)
  | refused (r : Refusal) : OutcomeAlike i (.refused r) (.refused r)

section
variable {i : Instr} {d e : Datapath}

/-- R306, R83: two engines that go on alike with the byte read. -/
theorem outcomeAlike_withRead (s : State) (r : ReadResult Byte)
    {k k' : Byte → Host.Outcome State Fault Refusal} (hk : ∀ b, OutcomeAlike i (k b) (k' b)) :
    OutcomeAlike i (s.withRead r k) (s.withRead r k') := by
  cases r with
  | ok b => exact hk b
  | busError a => exact .next (.ended _ rfl)
  | sideEffect a => exact .refused _

/-! ### A stream begins, takes a byte and ends -/

/-- R172: a stream writes all it reads but the wrapper's own variables. -/
theorem alike_startStream (s : State) (h : d.LiveWrapper i e) (segs : List Segment) :
    State.Alike i (s.goto (opcode i) .put (d.startStream segs))
      (s.goto (opcode i) .put (e.startStream segs)) :=
  .running s .put _ _ ⟨⟨rfl, rfl, rfl, h⟩, ⟨rfl, rfl, Nat.zero_lt_succ 63, nofun⟩⟩

/-- R172: a block buffer is its 64 bytes. -/
theorem blk_eq_of_blockByte {b c : Vector Word 16} (h : ∀ j < 64, blockByte c j = blockByte b j) :
    c = b := by
  have hlen : ((List.range 64).map (blockByte b)).length = 64 := by simp
  have hget : ∀ j < 64, ((List.range 64).map (blockByte b)).getD j 0 = blockByte b j := fun j hj => by
    simp [hj]
  rw [← Vector.toList_inj, block_toList hlen fun j hj => (hget j hj).symm,
    block_toList hlen fun j hj => (h j hj).trans (hget j hj).symm]

theorem putByte_goto (s : State) (op : BitVec 4) (d : Datapath) (b : Byte) (segs : List Segment)
    (n : Nat) (tail : Tail) :
    (s.goto op .put d).putByte op b segs n tail =
      s.goto op (if d.pos + 1 = 64 then .load else .put) (d.place b segs n tail) := rfl

/-- R172: PutByte. -/
theorem alike_putByte (s : State) (hs : d.LiveStream i e) (hb : d.LiveBlock e) (b : Byte)
    (segs : List Segment) (n n' : Nat) (tail : Tail) :
    State.Alike i ((s.goto (opcode i) .put d).putByte (opcode i) b segs n tail)
      ((s.goto (opcode i) .put e).putByte (opcode i) b segs n' tail) := by
  have hlt := hb.lt
  have hbytes : ∀ j < d.pos + 1,
      blockByte (e.place b segs n' tail).blk j = blockByte (d.place b segs n tail).blk j := fun j hj => by
    simp only [Datapath.place, hb.pos]
    rw [blockByte_setBlockByte _ _ (by omega), blockByte_setBlockByte _ _ (by omega)]
    split
    next => rfl
    next hne => exact hb.bytes j (by omega)
  have hstream : (d.place b segs n tail).LiveStream i (e.place b segs n' tail) :=
    ⟨rfl, hs.bitlen, rfl, hs.wrapper⟩
  rw [putByte_goto, putByte_goto, hb.pos]
  split
  next hfull =>
    exact .running s .load _ _ (.inr ⟨hstream, hb.chain,
      blk_eq_of_blockByte fun j hj => hbytes j (by omega)⟩)
  next hpart =>
    have hlt' : (d.place b segs n tail).pos < 64 := by show d.pos + 1 < 64; omega
    exact .running s .put _ _ ⟨hstream, hb.chain, congrArg (· + 1) hb.pos, hlt', hbytes⟩

/-- R172: BYTE and PAD. -/
theorem outcomeAlike_microPut (s : State) (h : d.Live i e .put) :
    OutcomeAlike i ((s.goto (opcode i) .put d).microPut (opcode i))
      ((s.goto (opcode i) .put e).microPut (opcode i)) := by
  obtain ⟨hs, hb⟩ := h
  simp only [State.microPut, State.goto_dp, hs.tail, hs.segs, hs.bitlen, hb.pos, putData_goto,
    putPad_goto, memRead_goto, withRead_goto]
  cases d.tail with
  | data =>
    cases popByte d.segs with
    | none => exact .next (.running s .put d e ⟨hs, hb⟩)
    | some next =>
      obtain ⟨_ | _, rest⟩ := next
      · exact outcomeAlike_withRead s _ fun b => .next (alike_putByte s hs hb b _ _ _ _)
      · exact .next (alike_putByte s hs hb _ _ _ _ _)
  | term => exact .next (alike_putByte s hs hb _ _ _ _ _)
  | zero => exact .next (alike_putByte s hs hb _ _ _ _ _)
  | len j => exact .next (alike_putByte s hs hb _ _ _ _ _)
  | done => exact .next (.running s .put d e ⟨hs, hb⟩)

/-- R225: the HMAC wrapper after a stream. -/
theorem alike_hmacStreamDone (s : State) (h : d.LiveWrapper .hmac e) (x : Bytes) :
    State.Alike .hmac (s.hmacStreamDone (opcode .hmac) x d) (s.hmacStreamDone (opcode .hmac) x e) := by
  obtain ⟨hphase, hkey⟩ := h
  simp only [State.hmacStreamDone, hphase]
  cases hd : d.hmacPhase with
  | keyHash => exact .running s .keyPad _ _ ⟨rfl, rfl⟩
  | inner =>
    have hk0 : e.k0 = d.k0 := hkey (by simp [hd])
    rw [hk0]
    refine alike_startStream s ?_ _
    exact ⟨rfl, fun _ => rfl⟩
  | outer => exact .running s .complete _ _ rfl

/-- R244: the hash of a pair. -/
theorem alike_startPair (s : State) (h : d.LiveWrapper .merkle e) (hp : e.p = d.p) :
    State.Alike .merkle (s.startPair (opcode .merkle) d) (s.startPair (opcode .merkle) e) := by
  have ⟨_, hnode, _⟩ := h
  simp only [State.startPair, hnode, hp]
  exact alike_startStream s h _

/-- R244: the head of the reduction. -/
theorem alike_reduceHead (s : State) (hstage : e.stage = d.stage) (hnode : e.node = d.node)
    (hm : e.m = d.m) :
    State.Alike .merkle (s.reduceHead (opcode .merkle) d) (s.reduceHead (opcode .merkle) e) := by
  simp only [State.reduceHead, hnode, hm]
  split
  · exact .running s .complete _ _ rfl
  · split
    · exact .running s .dup _ _ ⟨rfl, hstage, hnode, hm⟩
    · exact alike_startPair s ⟨hstage, rfl, fun _ => ⟨rfl, rfl⟩⟩ rfl

/-- R243, R244: the Merkle node hasher after a stream. -/
theorem alike_merkleStreamDone (s : State) (h : d.LiveWrapper .merkle e) (x : Bytes) :
    State.Alike .merkle (s.merkleStreamDone (opcode .merkle) x d)
      (s.merkleStreamDone (opcode .merkle) x e) := by
  obtain ⟨hstage, hnode, hreduce⟩ := h
  simp only [State.merkleStreamDone, hstage, hnode]
  cases hd : d.stage with
  | leaf =>
    dsimp only
    split
    · refine alike_startStream s ?_ _
      exact ⟨rfl, rfl, nofun⟩
    · exact alike_reduceHead s rfl rfl rfl
  | reduce =>
    obtain ⟨hm, hp⟩ := hreduce hd
    simp only [hm, hp]
    split
    · exact alike_startPair s ⟨rfl, rfl, fun _ => ⟨rfl, rfl⟩⟩ rfl
    · exact alike_reduceHead s rfl rfl rfl

/-- R172: a stream has ended and the command goes on. -/
theorem alike_streamDone (s : State) (h : d.LiveWrapper i e) (x : Bytes) :
    State.Alike i (s.streamDone (opcode i) x d) (s.streamDone (opcode i) x e) := by
  simp only [State.streamDone, decodeOp_opcode]
  cases i with
  | init | compress | hash => exact .running s .complete _ _ rfl
  | hmac => exact alike_hmacStreamDone s h x
  | merkle => exact alike_merkleStreamDone s h x

/-! ### A compression -/

/-- R172, R195: LOAD. -/
theorem outcomeAlike_load (s : State) (h : d.Live i e .load) :
    OutcomeAlike i (s.goto (opcode i) .load d).microStep (s.goto (opcode i) .load e).microStep := by
  obtain rfl | ⟨hs, hchain, hblk⟩ := h
  · rw [microStep_load_compress, microStep_load_compress]
    exact .next (.running s .round _ _ ⟨⟨rfl, rfl, rfl, rfl⟩, .inl rfl⟩)
  · by_cases hi : i = .compress
    · subst hi
      rw [microStep_load_compress, microStep_load_compress]
      exact .next (.running s .round _ _ ⟨⟨rfl, rfl, rfl, rfl⟩, .inl rfl⟩)
    · rw [microStep_load s (opcode_ne_compress hi), microStep_load s (opcode_ne_compress hi), hchain,
        hblk]
      exact .next (.running s .round _ _
        ⟨⟨rfl, rfl, rfl, rfl⟩, .inr ⟨hs.segs, hs.bitlen, hs.tail, hs.wrapper⟩⟩)

/-- R172, R195: ROUND. -/
theorem outcomeAlike_round (s : State) (h : d.Live i e .round) :
    OutcomeAlike i (s.goto (opcode i) .round d).microStep (s.goto (opcode i) .round e).microStep := by
  obtain ⟨hr, hs⟩ := h
  rw [microStep_round s _ d rfl, microStep_round s _ e rfl, hr.t, hr.w, hr.vars]
  refine .next ?_
  split <;> exact .running s _ _ _ ⟨⟨rfl, hr.cv, rfl, rfl⟩,
    hs.imp_right fun h => ⟨h.segs, h.bitlen, h.tail, h.wrapper⟩⟩

/-- R172, R195: FEED. -/
theorem outcomeAlike_feed (s : State) (h : d.Live i e .feed) :
    OutcomeAlike i (s.goto (opcode i) .feed d).microStep (s.goto (opcode i) .feed e).microStep := by
  obtain ⟨hr, hs⟩ := h
  by_cases hi : i = .compress
  · subst hi
    rw [microStep_feed_compress, microStep_feed_compress, hr.cv, hr.vars]
    exact .next (.running s .complete _ _ rfl)
  · have hs := hs.resolve_left hi
    rw [microStep_feed s (opcode_ne_compress hi), microStep_feed s (opcode_ne_compress hi), hr.cv,
      hr.vars, hs.tail]
    refine .next ?_
    split
    · exact alike_streamDone s (d := d.fed _) (e := e.fed _) hs.wrapper _
    · exact .running s .put _ _
        ⟨⟨hs.segs, hs.bitlen, hs.tail, hs.wrapper⟩, rfl, rfl, Nat.zero_lt_succ 63, nofun⟩

/-! ### The wrappers' own micro-steps -/

theorem microStep_keyByte_goto (s : State) (d : Datapath) :
    (s.goto (opcode .hmac) .keyByte d).microStep =
      s.withRead (s.memRead (s.keyAddr.toNat + d.k0.length)) fun b =>
        .next (s.goto (opcode .hmac)
          (if d.k0.length + 1 = s.keyLen.toNat then .keyPad else .keyByte)
          { d with k0 := d.k0 ++ [b] }) :=
  withRead_goto s (opcode .hmac) .keyByte d _ _

/-- R225: BYTE of the key's copy form. -/
theorem outcomeAlike_keyByte (s : State) (hk0 : e.k0 = d.k0) :
    OutcomeAlike .hmac (s.goto (opcode .hmac) .keyByte d).microStep
      (s.goto (opcode .hmac) .keyByte e).microStep := by
  rw [microStep_keyByte_goto, microStep_keyByte_goto, hk0]
  refine outcomeAlike_withRead s _ fun b => .next ?_
  split
  · exact .running s .keyPad _ _ ⟨rfl, rfl⟩
  · exact .running s .keyByte _ _ ⟨rfl, rfl⟩

/-- R225: KEYPAD. -/
theorem alike_keyPad (s : State) (hk0 : e.k0 = d.k0) :
    State.Alike .hmac ((s.goto (opcode .hmac) .keyPad d).microKeyPad (opcode .hmac))
      ((s.goto (opcode .hmac) .keyPad e).microKeyPad (opcode .hmac)) := by
  simp only [State.microKeyPad, State.goto_dp, hk0]
  exact .running s .mask _ _ ⟨rfl, rfl⟩

/-- R225: MASK. -/
theorem alike_mask (s : State) (hk0 : e.k0 = d.k0) :
    State.Alike .hmac ((s.goto (opcode .hmac) .mask d).microMask (opcode .hmac))
      ((s.goto (opcode .hmac) .mask e).microMask (opcode .hmac)) := by
  simp only [State.microMask, State.goto_dp, hk0]
  refine alike_startStream s ?_ _
  exact ⟨rfl, fun _ => rfl⟩

/-- R244: DUP. -/
theorem alike_dup (s : State) (hstage : e.stage = d.stage) (hnode : e.node = d.node) (hm : e.m = d.m) :
    State.Alike .merkle ((s.goto (opcode .merkle) .dup d).microDup (opcode .merkle))
      ((s.goto (opcode .merkle) .dup e).microDup (opcode .merkle)) := by
  simp only [State.microDup, State.goto_dp, hnode, hm]
  exact alike_startPair (s.goto (opcode .merkle) .dup d) ⟨hstage, rfl, fun _ => ⟨rfl, rfl⟩⟩ rfl

end

/-! ### Every micro-step (R180) -/

/-- R181: no micro-step reads a variable that is not live at its phase. -/
theorem outcomeAlike_microStep {i : Instr} {t u : State} (h : State.Alike i t u) :
    OutcomeAlike i t.microStep u.microStep := by
  cases h with
  | ended t hidle =>
    simp only [State.microStep, hidle]
    exact .next (.ended t hidle)
  | running s ph d e h =>
    cases ph with
    | initLoad => exact .next (.running s .complete _ _ rfl)
    | put => exact outcomeAlike_microPut s h
    | load => exact outcomeAlike_load s h
    | round => exact outcomeAlike_round s h
    | feed => exact outcomeAlike_feed s h
    | keyByte => obtain ⟨rfl, hk0⟩ := h; exact outcomeAlike_keyByte s hk0
    | keyPad => obtain ⟨rfl, hk0⟩ := h; exact .next (alike_keyPad s hk0)
    | mask => obtain ⟨rfl, hk0⟩ := h; exact .next (alike_mask s hk0)
    | dup => obtain ⟨rfl, hstage, hnode, hm⟩ := h; exact .next (alike_dup s hstage hnode hm)
    | complete =>
      have hresult : e.result = d.result := h
      rw [microStep_complete, microStep_complete, hresult]
      exact .next (.ended _ (State.completeRead_fsm s _))

/-- R180: any number of micro-steps. -/
theorem outcomeAlike_microSteps {i : Instr} {t u : State} (h : State.Alike i t u) (n : Nat) :
    OutcomeAlike i (t.microSteps n) (u.microSteps n) := by
  induction n generalizing t u with
  | zero => exact .next h
  | succ n ih =>
    have hstep := outcomeAlike_microStep h
    simp only [State.microSteps]
    generalize t.microStep = o, u.microStep = o' at hstep ⊢
    cases hstep with
    | next h' => exact ih h'
    | refused r => exact .refused r

/-- R265: the first micro-step of a command finds its live variables written, whatever the engine held. -/
theorem alike_start (i : Instr) (s : State) (d : Datapath) :
    State.Alike i (s.start (opcode i)) ({ s with dp := d }.start (opcode i)) := by
  simp only [State.start, decodeOp_opcode]
  cases i with
  | init => exact .running s .initLoad _ _ trivial
  | compress => exact .running s .load _ _ (.inl rfl)
  | hash => exact alike_startStream s (i := .hash) trivial _
  | hmac =>
    simp only [State.startHmac]
    split
    · refine alike_startStream s ?_ _
      exact ⟨rfl, fun h => absurd rfl h⟩
    · split
      · exact .running s .keyPad _ _ ⟨rfl, rfl⟩
      · exact .running s .keyByte _ _ ⟨rfl, rfl⟩
  | merkle =>
    refine alike_startStream s ?_ _
    exact ⟨rfl, rfl, nofun⟩

/-- States that are alike differ at most in the internal state. -/
theorem State.Alike.same_but_dp {i : Instr} {t u : State} (h : State.Alike i t u) :
    t.fsm = u.fsm ∧ { t with dp := u.dp } = u := by
  cases h <;> exact ⟨rfl, rfl⟩

/-- Settles O50: the two runs start alike and every micro-step keeps them so. -/
theorem idleInternalStateNeverMatters : Obligations.IdleInternalStateNeverMatters := by
  intro i s d n hb hp
  have hp' : { s with dp := d }.preCheck i = .none :=
    (preCheck_congr i rfl rfl rfl rfl rfl rfl rfl rfl).trans hp
  have hrun : OutcomeAlike i ((s.writeReg .cmd (encode i)).microSteps n)
      (({ s with dp := d }.writeReg .cmd (encode i)).microSteps n) := by
    rw [writeReg_cmd_start hb hp, writeReg_cmd_start (s := { s with dp := d }) hb hp']
    exact outcomeAlike_microSteps (alike_start i (s.accepted (encode i)) d) n
  generalize (s.writeReg .cmd (encode i)).microSteps n = o at hrun ⊢
  generalize ({ s with dp := d }.writeReg .cmd (encode i)).microSteps n = o' at hrun ⊢
  cases hrun with
  | next h => exact h.same_but_dp
  | refused r => rfl

end Sys2Proof.Machine
end

section
/-!
PROOFS. The statements of 42_hash_commands.md: INIT, COMPRESS and HASH complete with the H of their
rules, the only error after acceptance is a bus error, and a message streamed block by block comes to the
H of HASH.
-/

namespace Sys2Proof.Machine

/-! ### The offer and COMPLETE of a command (R190, R265) -/

/-- R190: the flags of a command that completed. -/
theorem offer_complete_status (s : State) (i : Instr) (r : Words8) :
    ((s.offer (encode i)).complete r).status =
      { s.status with busy := false, done := true, err := false, ecode := .none, lastop := opcode i } := by
  simp only [State.complete_status, State.offer_status, opField_encode]

/-- R193: INIT. -/
theorem exec_init_eq (s : State) :
    exec .init s = .next ((s.offer (encode .init)).complete iv) := rfl

/-- R195: COMPRESS. -/
theorem exec_compress_eq (s : State) :
    exec .compress s =
      .next ((s.offer (encode .compress)).complete (compress s.h s.blk.toList)) := rfl

/-- R169, R170: the words of the digest are the chaining state after the last block. -/
theorem deser_sha256 (m : Bytes) : deser (sha256 m) = chain m := deser_ser_eq _

/-- R199: HASH of a readable message that no write raced with. -/
theorem exec_hash_chain {s : State} (hp : s.preCheck .hash = .none) (h : s.operandsReadable .hash)
    (hr : s.raced = false) :
    exec .hash s = .next ((s.offer (encode .hash)).complete (chain s.message)) := by
  rw [exec_hash_readable hp h, State.completeRead_of_not_raced (s.offer _) _ hr, deser_sha256]

section
variable {s : State} {i : Instr} {v : Word}

/-- R265: the flags once the word `v` of a command has been accepted. -/
theorem writeReg_cmd_status (hv : encode i = v) (hb : s.status.busy = false)
    (hp : s.preCheck i = .none) :
    (s.writeReg .cmd v).status =
      { s.status with busy := true, done := false, err := false, ecode := .none, lastop := opcode i } := by
  subst hv
  rw [writeReg_cmd_launch hb hp, State.launch_status, State.offer_status, opField_encode]

/-- R180, R183: the micro-steps from the acceptance of the word `v` come to what its command does. -/
theorem writeReg_cmd_microSteps (hv : encode i = v) (hb : s.status.busy = false)
    (hr : s.raced = false) (hp : s.preCheck i = .none) :
    (s.writeReg .cmd v).microSteps (s.workCount i) = exec i s := by
  subst hv
  obtain ⟨hrun, hexec, -⟩ := microStepsComputeTheCommand i s hb hr hp
  exact hrun.trans hexec

end

/-- Settles O17: INIT is the offer and COMPLETE(IV), and its micro-steps are the counted ones. -/
theorem initLoadsTheIv : Obligations.InitLoadsTheIv := by
  have hword : encode .init = 0x00000001 := by decide
  refine ⟨hword, fun s => ⟨rfl, _, exec_init_eq s, rfl, offer_complete_status s .init iv, rfl, rfl, rfl,
    rfl, fun hb hr => ⟨writeReg_cmd_status hword hb rfl, ?micro⟩, fun hwib => ?word⟩⟩
  case micro => exact writeReg_cmd_microSteps hword hb hr rfl
  case word =>
    simp only [offer_complete_status, hwib]
    rfl

/-- Settles O18: COMPRESS is the offer and COMPLETE of the compression, its micro-steps are the counted
ones, and the block of "abc" is that of `compressionRounds`. -/
theorem compressUpdatesTheChainingState : Obligations.CompressUpdatesTheChainingState := by
  have hword : encode .compress = 0x00000002 := by decide
  refine ⟨hword, fun s => ⟨rfl, _, exec_compress_eq s, rfl, rfl, offer_complete_status s .compress _, rfl,
    rfl, fun hb hr => ⟨writeReg_cmd_status hword hb rfl, ?micro⟩, fun hiv habc => ?digest⟩⟩
  case micro => exact writeReg_cmd_microSteps hword hb hr rfl
  case digest =>
    obtain ⟨-, -, hdigest⟩ := compressionRounds
    rw [State.complete_h, hiv, habc]
    exact hdigest

/-- Settles O19: the checks pass, every byte is read, and H takes the words of the digest. -/
theorem hashLeavesTheDigest : Obligations.HashLeavesTheDigest := by
  refine ⟨by decide, fun s hlen hrange hread hr => ?_⟩
  have hp : s.preCheck .hash = .none := preCheck_hash_none.mpr ⟨hlen, hrange⟩
  exact ⟨_, exec_hash_chain hp hread hr, rfl, rfl, rfl, offer_complete_status s .hash _, rfl, rfl⟩

/-- Settles O23: of the ways an accepted command can end (`exec_accepted`) only the bus error of a
command that reads memory leaves ERR set. -/
theorem onlyBusErrorAfterAcceptance : Obligations.OnlyBusErrorAfterAcceptance := by
  refine ⟨fun i s t hp ht herr => ?onlyBusError, fun i s hi => ?completes⟩
  case onlyBusError =>
    obtain ⟨r, hr⟩ | ⟨hi, ⟨r, hr⟩ | ⟨a, ha⟩ | ⟨a, ha⟩⟩ := exec_accepted hp
    · cases hr.symm.trans ht
      rw [offer_complete_status] at herr
      cases herr
    · cases hr.symm.trans ht
      rw [State.completeRead_status] at herr
      cases herr
    · cases ha.symm.trans ht
      exact ⟨rfl, hi⟩
    · cases ha.symm.trans ht
  case completes =>
    obtain rfl | rfl := hi
    · exact ⟨_, exec_init_eq s, rfl, rfl⟩
    · exact ⟨_, exec_compress_eq s, rfl, rfl⟩

/-! ### A message streamed block by block (R197) -/

/-- R48: a block as the host writes it to BLK0..BLK15. -/
def blockRegs (b : List Word) : Vector Word 16 := Vector.ofFn fun j => b.getD j.val 0

theorem blockRegs_toList {b : List Word} (hb : b.length = 16) : (blockRegs b).toList = b := by
  refine List.ext_getElem (by simp [hb]) fun j h₁ h₂ => ?_
  simp [blockRegs, List.getElem?_eq_getElem h₂]

/-- R163: every parsed block of a padded message has 16 words. -/
theorem block_length {m : Bytes} {b : List Word} (hb : b ∈ parse (pad m)) : b.length = 16 := by
  obtain ⟨hparse, -⟩ := parsedBlocks
  obtain ⟨hcount, hblocks⟩ := hparse (pad m) (blockCount m.length) (pad_length m)
  obtain ⟨k, hk, rfl⟩ := List.getElem_of_mem hb
  rw [← List.getD_eq_getElem _ [] hk]
  exact (hblocks k (hcount ▸ hk)).1

/-- R195: the state after block `b` has been written to BLK and COMPRESS has run. -/
def State.compressBlock (s : State) (b : List Word) : State :=
  ({ s with blk := blockRegs b }.offer (encode .compress)).complete (compress s.h (blockRegs b).toList)

theorem exec_compress_block (s : State) (b : List Word) :
    exec .compress { s with blk := blockRegs b } = .next (s.compressBlock b) := rfl

theorem compressBlock_h (s : State) (b : List Word) :
    (s.compressBlock b).h = compress s.h (blockRegs b).toList := rfl

/-- R197: one COMPRESS per block of a padded message folds H over the blocks. -/
theorem foldl_compressBlock_h (m : Bytes) (s : State) :
    ((parse (pad m)).foldl State.compressBlock s).h = (parse (pad m)).foldl compress s.h := by
  calc ((parse (pad m)).foldl State.compressBlock s).h
      = (parse (pad m)).foldl (fun h b => compress h (blockRegs b).toList) s.h :=
        (List.foldl_hom State.h fun x b => (compressBlock_h x b).symm).symm
    _ = (parse (pad m)).foldl compress s.h :=
        List.foldl_ext _ _ _ fun h b hb => by rw [blockRegs_toList (block_length hb)]

/-- Settles O49: INIT leaves the IV, each COMPRESS takes H one block on, and HASH leaves the chaining
state after the last block. -/
theorem streamingEqualsMonolithic : Obligations.StreamingEqualsMonolithic := fun s hp hread hr =>
  ⟨_, _, exec_init_eq s, exec_hash_chain hp hread hr, _,
    List.foldl_hom Host.Outcome.next exec_compress_block,
    foldl_compressBlock_h s.message _⟩

end Sys2Proof.Machine
end

section
/-!
PROOFS. The statements of 43_hmac.md: what key normalisation does at each key length, that the tag
depends on the key only through it, and that HMAC leaves the tag in H.
-/

namespace Sys2Proof.Machine

/-! ### Key normalisation (R220) -/

/-- R220: a key of at most 64 bytes is padded with zeros. -/
theorem normKey_of_length_le {key : Bytes} (h : key.length ≤ 64) :
    normKey key = key ++ zeros (64 - key.length) := by
  rw [normKey, if_neg h.not_gt]

/-- R220: a longer key is hashed, and its digest padded with zeros. -/
theorem normKey_of_length_gt {key : Bytes} (h : 64 < key.length) :
    normKey key = sha256 key ++ zeros 32 := by
  rw [normKey, if_pos h, sha256_length]

/-- R221: a key of 64 bytes is used as it is. -/
theorem normKey_of_length_eq {key : Bytes} (h : key.length = 64) : normKey key = key := by
  rw [normKey_of_length_le h.le, h]
  exact List.append_nil key

/-- R221: the digest of a longer key is normalised as the key is. -/
theorem normKey_sha256 {key : Bytes} (h : 64 < key.length) : normKey (sha256 key) = normKey key := by
  have hdigest : (sha256 key).length ≤ 64 := by rw [sha256_length]; decide
  rw [normKey_of_length_le hdigest, normKey_of_length_gt h, sha256_length]

/-- R221: zeros at the end of a key, up to 64 bytes, are absorbed by the padding. -/
theorem normKey_append_zeros {key : Bytes} {j : Nat} (h : key.length + j ≤ 64) :
    normKey (key ++ zeros j) = normKey key := by
  have hlen : (key ++ zeros j).length = key.length + j := by simp
  rw [normKey_of_length_le (hlen.trans_le h), normKey_of_length_le (Nat.le_of_add_right_le h), hlen,
    List.append_assoc, zeros, zeros, List.replicate_append_replicate, zeros]
  congr 2
  omega

/-! ### The tag -/

/-- R220: the tag depends on the key only through its normal form. -/
theorem hmacTag_congr {k k' : Bytes} (h : normKey k = normKey k') (m : Bytes) :
    hmacTag k m = hmacTag k' m := by
  rw [hmacTag, h, hmacTag]

/-- R220: the construction with the exclusive-ors of its inner and outer key written out. -/
theorem hmacTag_eq (key msg : Bytes) :
    hmacTag key msg =
      sha256 (List.zipWith (· ^^^ ·) (normKey key) (List.replicate 64 0x5c) ++
        sha256 (List.zipWith (· ^^^ ·) (normKey key) (List.replicate 64 0x36) ++ msg)) := rfl

/-- R161: 65 bytes are padded to two blocks. -/
theorem parse_pad_length_of_65 {m : Bytes} (h : m.length = 65) : (parse (pad m)).length = 2 := by
  rw [parse_eq (pad_length m), splitBlocks_length, h]
  rfl

/-- Settles O14: the construction is `hmacTag_eq`; each law on keys is one on normalised keys. -/
theorem hmacKeyNormalisation : Obligations.HmacKeyNormalisation := by
  refine ⟨?construction, by decide, fun k hk => normKey_of_length_eq hk,
    fun k hk => ⟨normKey_of_length_gt (by omega), parse_pad_length_of_65 hk⟩,
    fun k m hk => hmacTag_congr (normKey_sha256 hk).symm m,
    fun k m j hj => hmacTag_congr (normKey_append_zeros hj).symm m⟩
  case construction =>
    rintro key msg _ _ rfl rfl
    exact ⟨normKey_length key, rfl, hmacTag_eq key msg, sha256_length _⟩

/-! ### The command (R225) -/

/-- R225: HMAC of a readable key and message that no write raced with. -/
theorem exec_hmac_complete {s : State} (hp : s.preCheck .hmac = .none) (h : s.operandsReadable .hmac)
    (hr : s.raced = false) :
    exec .hmac s = .next ((s.offer (encode .hmac)).complete (deser (hmacTag s.key s.message))) := by
  rw [exec_hmac_readable hp h, State.completeRead_of_not_raced (s.offer _) _ hr]

/-- R170, R220: the words of the tag serialise back to it. -/
theorem ser_deser_hmacTag (key msg : Bytes) : ser (deser (hmacTag key msg)) = hmacTag key msg :=
  ser_deser (sha256_length _)

/-- Settles O20: the checks pass, every byte of key and message is read, and H takes the words of the
tag. -/
theorem hmacLeavesTheTag : Obligations.HmacLeavesTheTag := by
  refine ⟨by decide, fun s hlen hmsg hkey hread hr => ?_⟩
  have hp : s.preCheck .hmac = .none := preCheck_hmac_none.mpr ⟨hlen, hmsg, hkey⟩
  refine ⟨_, exec_hmac_complete hp hread hr, ?tag, rfl, offer_complete_status s .hmac _, rfl, rfl⟩
  case tag =>
    rintro _ rfl _ rfl
    rw [State.complete_h, ser_deser_hmacTag]
    exact hmacTag_eq s.key s.message

end Sys2Proof.Machine
end

section
/-!
PROOFS. The statements of 44_merkle.md: one layer of the reduction, the laws of the root, and that
MERKLE leaves the root of its items in H.
-/

namespace Sys2Proof.Machine

/-! ### A layer of even size (R240) -/

/-- R240: a layer of even size is left as it is. -/
theorem evenLayer_of_even {layer : List Bytes} (h : layer.length % 2 = 0) :
    evenLayer layer = layer := by
  rw [evenLayer, if_neg (by omega)]

/-- R240: a layer of odd size gets its last node once more. -/
theorem evenLayer_concat {layer : List Bytes} (h : layer.length % 2 = 0) (d : Bytes) :
    evenLayer (layer ++ [d]) = layer ++ [d, d] := by
  have hodd : (layer ++ [d]).length % 2 = 1 := by rw [List.length_append, List.length_singleton]; omega
  rw [evenLayer, if_pos hodd, List.getLastD_concat, List.append_assoc]
  rfl

/-- A layer has even size, or it is a layer of even size and one node. -/
theorem even_or_concat (layer : List Bytes) :
    layer.length % 2 = 0 ∨ ∃ init d, layer = init ++ [d] ∧ init.length % 2 = 0 := by
  obtain rfl | ⟨init, d, rfl⟩ := layer.eq_nil_or_concat'
  · exact .inl rfl
  · have hlen : (init ++ [d]).length = init.length + 1 := by simp
    obtain heven | hodd := Nat.mod_two_eq_zero_or_one init.length
    · exact .inr ⟨init, d, rfl, heven⟩
    · exact .inl (by omega)

/-- R240: the last node in the rule's own form. -/
theorem evenLayer_eq (layer : List Bytes) :
    evenLayer layer =
      if layer.length % 2 = 1 then layer ++ [layer.getD (layer.length - 1) []] else layer := by
  rw [evenLayer, List.getLastD_eq_getLast?, List.getLast?_eq_getElem?, List.getD_eq_getElem?_getD]

theorem evenLayer_length_even (layer : List Bytes) : (evenLayer layer).length % 2 = 0 := by
  rw [evenLayer_length]
  omega

/-- R246: the raw last item doubled or its hash doubled, the leaves are the same. -/
theorem map_evenLayer (f : Bytes → Bytes) (items : List Bytes) :
    (evenLayer items).map f = evenLayer (items.map f) := by
  obtain heven | ⟨init, d, rfl, heven⟩ := even_or_concat items
  · rw [evenLayer_of_even heven, evenLayer_of_even (by rwa [List.length_map])]
  · rw [evenLayer_concat heven, List.map_append, List.map_append]
    exact (evenLayer_concat (by rwa [List.length_map]) (f d)).symm

/-- R246: an odd last item may as well be given twice. -/
theorem merkleRoot_concat {items : List Bytes} (h : items.length % 2 = 0) (x : Bytes) :
    merkleRoot (items ++ [x]) = merkleRoot (items ++ [x, x]) := by
  have heven : (items ++ [x, x]).length % 2 = 0 := by
    rw [List.length_append]
    exact (Nat.add_mod_right _ 2).trans h
  rw [merkleRoot, merkleRoot, evenLayer_concat h, evenLayer_of_even heven]

/-! ### The reduction (R240) -/

/-- R240: a layer of one node is its own root. -/
theorem reduceLayer_singleton (d : Bytes) : reduceLayer [d] = d := rfl

/-- R240: a layer of two nodes has their parent for its root. -/
theorem reduceLayer_pair (l r : Bytes) : reduceLayer [l, r] = sha256 (l ++ r) := by
  rw [reduceLayer_step (by simp), evenLayer_of_even (by simp)]
  rfl

/-- R240: the parents by index. -/
theorem hashPairs_eq_map (layer : List Bytes) :
    hashPairs layer = (List.range (layer.length / 2)).map fun i =>
      sha256 (layer.getD (2 * i) [] ++ layer.getD (2 * i + 1) []) := by
  refine List.ext_getElem (by simp [hashPairs_length]) fun i hi _ => ?_
  rw [List.getElem_map, List.getElem_range, ← List.getD_eq_getElem _ [] hi,
    hashPairs_getD (by rwa [hashPairs_length] at hi)]

/-- R240: pairs do not reach across a boundary at an even place. -/
theorem hashPairs_append {l : List Bytes} (h : l.length % 2 = 0) (r : List Bytes) :
    hashPairs (l ++ r) = hashPairs l ++ hashPairs r := by
  induction l using hashPairs.induct with
  | case1 a b rest ih =>
    simp only [List.cons_append, hashPairs]
    rw [ih ((Nat.add_mod_right rest.length 2).symm.trans h)]
  | case2 l hpair =>
    match l, h, hpair with
    | [], _, _ => rfl
    | a :: b :: rest, _, hpair => exact absurd rfl (hpair a b rest)

/-- R240: one layer of the reduction of an even layer. -/
theorem reduceLayer_of_even {layer : List Bytes} (h0 : layer ≠ []) (h : layer.length % 2 = 0) :
    reduceLayer layer = reduceLayer (hashPairs layer) := by
  have hpos := List.length_pos_iff.mpr h0
  rw [reduceLayer_step (by omega), evenLayer_of_even h]

/-- The first node of a layer of digests is 32 bytes. -/
theorem headD_length {layer : List Bytes} (h : layer ≠ []) (hbytes : ∀ d ∈ layer, d.length = 32) :
    (layer.headD []).length = 32 := by
  obtain ⟨d, rest, rfl⟩ := List.exists_cons_of_ne_nil h
  exact hbytes d List.mem_cons_self

/-- R240: however many layers are reduced, digests leave a node of 32 bytes. -/
theorem reduceLayers_length (n : Nat) {layer : List Bytes} (h : layer ≠ [])
    (hbytes : ∀ d ∈ layer, d.length = 32) : (reduceLayers n layer).length = 32 := by
  induction n generalizing layer with
  | zero => exact headD_length h hbytes
  | succ n ih =>
    rw [reduceLayers]
    split
    case isTrue => exact headD_length h hbytes
    case isFalse hlong =>
      have hparents : hashPairs (evenLayer layer) ≠ [] := by
        refine List.length_pos_iff.mp ?_
        rw [hashPairs_length, evenLayer_length]
        omega
      exact ih hparents (hashPairs_bytes _)

/-- R240: a layer of two halves of 2^k nodes has the parent of the halves' roots for its root. -/
theorem reduceLayer_append {k : Nat} {l r : List Bytes} (hl : l.length = 2 ^ k)
    (hr : r.length = 2 ^ k) : reduceLayer (l ++ r) = sha256 (reduceLayer l ++ reduceLayer r) := by
  induction k generalizing l r with
  | zero =>
    obtain ⟨a, rfl⟩ := List.length_eq_one_iff.mp hl
    obtain ⟨b, rfl⟩ := List.length_eq_one_iff.mp hr
    exact reduceLayer_pair a b
  | succ k ih =>
    have hpos : 0 < 2 ^ k := Nat.two_pow_pos k
    rw [pow_succ] at hl hr
    have hl0 : l ≠ [] := List.length_pos_iff.mp (by omega)
    have hr0 : r ≠ [] := List.length_pos_iff.mp (by omega)
    have hle : l.length % 2 = 0 := by omega
    have hre : r.length % 2 = 0 := by omega
    have hlre : (l ++ r).length % 2 = 0 := by rw [List.length_append]; omega
    calc reduceLayer (l ++ r)
        = reduceLayer (hashPairs l ++ hashPairs r) := by
          rw [reduceLayer_of_even (List.append_ne_nil_of_left_ne_nil hl0 r) hlre, hashPairs_append hle]
      _ = sha256 (reduceLayer (hashPairs l) ++ reduceLayer (hashPairs r)) :=
          ih (by rw [hashPairs_length]; omega) (by rw [hashPairs_length]; omega)
      _ = sha256 (reduceLayer l ++ reduceLayer r) := by
          rw [← reduceLayer_of_even hl0 hle, ← reduceLayer_of_even hr0 hre]

/-! ### The root -/

/-- R240: the root of a non-empty sequence of items is 32 bytes. -/
theorem merkleRoot_length {items : List Bytes} (h : items ≠ []) : (merkleRoot items).length = 32 := by
  refine reduceLayers_length _ (List.length_pos_iff.mp ?nonempty) fun d hd => ?digest
  case nonempty =>
    have hpos := List.length_pos_iff.mpr h
    rw [List.length_map, evenLayer_length]
    omega
  case digest =>
    obtain ⟨x, -, rfl⟩ := List.mem_map.mp hd
    exact sha256_length x

/-- R245: the root of two items is the hash of their two leaves. -/
theorem merkleRoot_pair (x y : Bytes) : merkleRoot [x, y] = sha256 (sha256 x ++ sha256 y) := by
  rw [merkleRoot, evenLayer_of_even (by simp)]
  exact reduceLayer_pair (sha256 x) (sha256 y)

/-- R246: one item is paired with itself. -/
theorem merkleRoot_singleton (x : Bytes) : merkleRoot [x] = sha256 (sha256 x ++ sha256 x) :=
  (merkleRoot_concat (items := []) rfl x).trans (merkleRoot_pair x x)

/-- Settles O15: the doubling is `evenLayer_eq`, a layer of one node stands as it is, and a longer one
goes to its parents by `reduceLayer_step` and `hashPairs_eq_map`. -/
theorem merkleRootAlgorithm : Obligations.MerkleRootAlgorithm := by
  refine ⟨?root, reduceLayer_singleton, ?layer⟩
  case root =>
    intro items x h hx
    rw [← evenLayer_eq] at hx
    subst hx
    have hpos := List.length_pos_iff.mpr h
    exact ⟨evenLayer_length_even items, by rw [evenLayer_length]; omega, rfl, merkleRoot_length h⟩
  case layer =>
    intro layer even h heven
    rw [← evenLayer_eq] at heven
    rw [reduceLayer_step h, hashPairs_eq_map, heven]

/-- Settles O16: the small roots are `merkleRoot_singleton` and `merkleRoot_pair`, the laws on an odd
number of items are those of `evenLayer`, and the halves are `reduceLayer_append`. -/
theorem merkleRootLaws : Obligations.MerkleRootLaws :=
  ⟨merkleRoot_singleton, merkleRoot_pair, fun _ x h => merkleRoot_concat h x,
    fun xs _ => map_evenLayer sha256 xs, fun _ _ hlr ⟨_, hk⟩ => reduceLayer_append hk (hlr ▸ hk)⟩

/-! ### The command (R245) -/

/-- R113, R243: the items are the leaves below ITEM_COUNT. -/
theorem items_eq_map_leafAddr (s : State) :
    s.items = (List.range s.itemCount.toNat).map fun j => s.bytesAt (s.leafAddr j) Config.itemBytes :=
  List.map_congr_left fun j hj => by rw [leafAddr_of_lt (List.mem_range.mp hj)]

/-- R243: leaf n, where there is one, hashes item n - 1 once more. -/
theorem leafAddr_itemCount {s : State} {m : Nat} (h : s.itemCount.toNat = m + 1) :
    s.leafAddr (m + 1) = s.leafAddr m := by
  rw [State.leafAddr, State.leafAddr, h]
  congr 2
  omega

/-- R243: the leaves read the items, the last one once more where their number is odd. -/
theorem leafAddrs_bytes (s : State) :
    (s.leafAddrs.map fun a => s.bytesAt a Config.itemBytes) = evenLayer s.items := by
  rw [State.leafAddrs, List.map_map, items_eq_map_leafAddr, paddedCount]
  obtain heven | hodd := Nat.mod_two_eq_zero_or_one s.itemCount.toNat
  · rw [evenLayer_of_even (by simpa using heven), heven]
    rfl
  · obtain ⟨m, hm⟩ : ∃ m, s.itemCount.toNat = m + 1 := ⟨s.itemCount.toNat - 1, by omega⟩
    have heven : m % 2 = 0 := by omega
    rw [hodd, hm, List.range_succ, List.range_succ, List.map_append, List.map_append, List.map_append,
      List.append_assoc]
    refine .trans ?_ (evenLayer_concat (by simpa using heven) _).symm
    simp [leafAddr_itemCount hm]

/-- R245: MERKLE of readable items that no write raced with. -/
theorem exec_merkle_complete {s : State} (hp : s.preCheck .merkle = .none)
    (h : s.operandsReadable .merkle) (hr : s.raced = false) :
    exec .merkle s = .next ((s.offer (encode .merkle)).complete (deser (merkleRoot s.items))) := by
  rw [exec_merkle_readable hp h, State.completeRead_of_not_raced (s.offer _) _ hr, leafAddrs_bytes]
  rfl

/-- Settles O21: the checks pass, the leaves are the items with an odd last one doubled, and H takes the
words of their root. -/
theorem merkleLeavesTheRoot : Obligations.MerkleLeavesTheRoot := by
  refine ⟨by decide, fun s hpos hcap hrange hread hr => ?_⟩
  have hp : s.preCheck .merkle = .none :=
    preCheck_merkle_none.mpr ⟨Nat.one_le_iff_ne_zero.mp hpos, hcap, hrange⟩
  have hitems : s.items ≠ [] := by
    refine List.length_pos_iff.mp ?_
    rwa [State.items, List.length_map, List.length_range]
  refine ⟨_, exec_merkle_complete hp hread hr, ?root, rfl, offer_complete_status s .merkle _, rfl, rfl⟩
  case root =>
    rw [State.complete_h]
    exact ser_deser (merkleRoot_length hitems)

end Sys2Proof.Machine
end

section
/-!
PROOFS. The statements of 45_host_access.md: what a register read returns and a register write does,
idle and busy, how acceptance starts the engine, and the frame of the five commands.
-/

namespace Sys2Proof.Machine

/-! ### The frame of the commands (R190, R272) -/

/-- R272: what no command writes: CTRL, the operand registers and BLK, and the surroundings of the
block. -/
structure State.HostStateKept (s t : State) : Prop where
  ie : t.ie = s.ie
  msgAddr : t.msgAddr = s.msgAddr
  msgLenLo : t.msgLenLo = s.msgLenLo
  msgLenHi : t.msgLenHi = s.msgLenHi
  keyAddr : t.keyAddr = s.keyAddr
  keyLen : t.keyLen = s.keyLen
  itemAddr : t.itemAddr = s.itemAddr
  itemCount : t.itemCount = s.itemCount
  blk : t.blk = s.blk
  mem : t.mem = s.mem
  platform : t.platform = s.platform
  rst : t.rst = s.rst
  rdata : t.rdata = s.rdata
  schedule : t.schedule = s.schedule

/-- R272: each way a command can end keeps the host's state. -/
theorem exec_hostStateKept {i : Instr} {s t : State} (ht : exec i s = .next t) :
    s.HostStateKept t := by
  obtain rfl | ⟨r, rfl⟩ | ⟨r, rfl⟩ | ⟨a, rfl⟩ := exec_next_cases ht
  · constructor <;> rfl
  · constructor <;> rfl
  · constructor <;> simp
  · constructor <;> rfl

/-- R190, R301, R310: a command leaves the engine idle with exactly one of DONE and ERR set. -/
theorem exec_flags {i : Instr} {s t : State} (ht : exec i s = .next t) :
    t.fsm = .idle ∧ t.status.busy = false ∧ t.status.wib = s.status.wib ∧
      t.status.lastop = opcode i ∧ (t.status.done = true ↔ t.status.err = false) := by
  obtain rfl | ⟨r, rfl⟩ | ⟨r, rfl⟩ | ⟨a, rfl⟩ := exec_next_cases ht <;>
    simp [opField_encode]

/-- Settles O22: the ends of a command (`exec_next_cases`) keep what the host wrote; one whose checks
fail ends as `exec_rejected` says. -/
theorem commandFrame : Obligations.CommandFrame := by
  intro i s t ht
  have kept := exec_hostStateKept ht
  obtain ⟨hfsm, hbusy, hwib, hlastop, hdone⟩ := exec_flags ht
  refine ⟨kept.ie, kept.msgAddr, kept.msgLenLo, kept.msgLenHi, kept.keyAddr, kept.keyLen, kept.itemAddr,
    kept.itemCount, kept.blk, hwib, hlastop, fun a => by rw [kept.mem], kept.mem, kept.platform,
    kept.rst, kept.rdata, kept.schedule, hbusy, hfsm, hdone, fun hp => ?rejected⟩
  case rejected =>
    cases (exec_rejected hp).symm.trans ht
    exact ⟨rfl, rfl⟩

/-! ### Acceptance (R265) -/

/-- R301: a word whose checks pass is the word of a command whose checks pass. -/
theorem preCheckWord_none {s : State} {v : Word} (h : s.preCheckWord v = .none) :
    ∃ i, decode v = .instr i ∧ s.preCheck i = .none := by
  unfold State.preCheckWord at h
  split at h
  next => cases h
  next i hi => exact ⟨i, hi, h⟩

/-- R193, R195, R199, R225, R243: the first micro-step of a command. -/
def State.firstPhase (s : State) : Instr → Phase
  | .init => .initLoad
  | .compress => .load
  | .hash => .put
  | .hmac => if s.keyLen.toNat > 64 then .put else if s.keyLen.toNat = 0 then .keyPad else .keyByte
  | .merkle => .put

/-- R265: the start of a command puts the engine at its first micro-step. -/
theorem start_fsm (s : State) (i : Instr) :
    (s.start (opcode i)).fsm = .run (opcode i) (s.firstPhase i) := by
  cases i with
  | hmac =>
    show (s.startHmac (opcode .hmac)).fsm = _
    unfold State.startHmac State.firstPhase
    split_ifs <;> rfl
  | init | compress | hash | merkle => rfl

/-- Settles O28: a word whose checks pass is some `encode i`, its acceptance is `State.launch`, and
`start_fsm` names the first micro-step. -/
theorem acceptanceStartsTheEngine : Obligations.AcceptanceStartsTheEngine := by
  intro s v hb hv
  obtain ⟨i, hi, hp⟩ := preCheckWord_none hv
  obtain rfl := decode_eq_instr_iff.1 hi
  have hfsm : (s.launch (encode i)).fsm = .run (opField (encode i)) (s.firstPhase i) := by
    rw [State.launch_fsm, opField_encode, start_fsm]
    rfl
  refine ⟨_, s.firstPhase i, i, writeReg_cmd_launch hb hp, hi, State.launch_status s _,
    State.launch_errAddr s _, hfsm, ?phase, by simp⟩
  case phase => cases i <;> rfl

/-! ### The dispatch of a write (R263) -/

/-- R263: a write to a register other than CTRL and STATUS depends on BUSY. -/
theorem writeReg_of_ne {r : Reg} (hctrl : r ≠ .ctrl) (hstatus : r ≠ .status) (s : State) (v : Word) :
    s.writeReg r v = if s.status.busy then s.dropWrite else s.writeIdle r v := by
  unfold State.writeReg
  split
  · exact absurd rfl hctrl
  · exact absurd rfl hstatus
  · rfl

/-- R268: such a write while busy. -/
theorem writeReg_busy {s : State} {r : Reg} (hb : s.status.busy = true) (hctrl : r ≠ .ctrl)
    (hstatus : r ≠ .status) (v : Word) : s.writeReg r v = s.dropWrite :=
  (writeReg_of_ne hctrl hstatus s v).trans (if_pos hb)

/-- R263: such a write while idle. -/
theorem writeReg_idle {s : State} {r : Reg} (hb : s.status.busy = false) (hctrl : r ≠ .ctrl)
    (hstatus : r ≠ .status) (v : Word) : s.writeReg r v = s.writeIdle r v :=
  (writeReg_of_ne hctrl hstatus s v).trans (if_neg (Bool.eq_false_iff.1 hb))

/-- Settles O29, by the dispatch of a write while busy. -/
theorem writesWhileBusyAreDropped : Obligations.WritesWhileBusyAreDropped :=
  fun _ _ v hb hctrl hstatus => writeReg_busy hb hctrl hstatus v

/-- Settles O31: the dispatch of a write while idle comes to "no effect" at each of these registers. -/
theorem readOnlyWritesAreIgnored : Obligations.ReadOnlyWritesAreIgnored := by
  intro s r v hb hr
  cases r with
  | id | version | nodeCap | errAddr | hex | reserved =>
    exact writeReg_idle hb (by simp) (by simp) v
  | _ => simp at hr

/-! ### A write that stores (R264, R270, R271) -/

/-- The eight words as a list, after word i was replaced. -/
theorem wordsList_setWordAt (u : Words8) {i : Nat} (hi : i < 8) (x : Word) :
    wordsList (setWordAt u i x) = (wordsList u).set i x := by
  interval_cases i <;> rfl

/-- A word after word i was replaced: the new word at i, every other as before. -/
theorem wordAt_setWordAt (u : Words8) {i j : Nat} (hi : i < 8) (hj : j < 8) (x : Word) :
    wordAt (setWordAt u i x) j = if i = j then x else wordAt u j := by
  have hlen : j < (wordsList u).length := hj
  rw [← wordsList_getD _ hj, ← wordsList_getD _ hj, wordsList_setWordAt u hi,
    List.getD_eq_getElem _ _ (by simpa using hlen), List.getElem_set, List.getD_eq_getElem _ _ hlen]

/-- R205: HEXk shows half of word k / 2 and depends on no other. -/
theorem hexWord_congr {u u' : Words8} {k : Nat} (h : wordAt u (k / 2) = wordAt u' (k / 2)) :
    hexWord u k = hexWord u' k := by
  simp only [hexWord, h]

/-- R264, R270, R271: the registers in which a write while idle stores its word. -/
def Reg.IsStore (r : Reg) : Prop :=
  r ∈ [Reg.msgAddr, .msgLenLo, .msgLenHi, .keyAddr, .keyLen, .itemAddr, .itemCount] ∨
    (∃ j, r = .blk j) ∨ ∃ i, r = .h i

/-- R263: CMD, CTRL and STATUS are not among them. -/
theorem Reg.IsStore.ne {r : Reg} (hr : r.IsStore) : r ≠ .cmd ∧ r ≠ .ctrl ∧ r ≠ .status := by
  refine ⟨?_, ?_, ?_⟩ <;> (rintro rfl; simp [Reg.IsStore] at hr)

/-- R264: the register that was written reads as the word. -/
theorem regValue_writeIdle_self {r : Reg} (hr : r.IsStore) (s : State) (v : Word) :
    (s.writeIdle r v).regValue r = v := by
  cases r with
  | blk j => exact Vector.getElem_set_self j.isLt
  | h i => exact (wordAt_setWordAt s.h i.isLt i.isLt v).trans (if_pos rfl)
  | msgAddr | msgLenLo | msgLenHi | keyAddr | keyLen | itemAddr | itemCount => rfl
  | _ => simp [Reg.IsStore] at hr

/-- R264, R205: every other register reads as before, but the two HEX words of an Hi that was
written. -/
theorem regValue_writeIdle_of_ne {r r' : Reg} (hr : r ≠ .cmd) (hne : r' ≠ r)
    (hhex : ∀ (i : Fin 8) (k : Fin 16), r = .h i → r' = .hex k → k.val / 2 ≠ i.val) (s : State)
    (v : Word) : (s.writeIdle r v).regValue r' = s.regValue r' := by
  cases r with
  | cmd => exact absurd rfl hr
  | blk j =>
    cases r' with
    | blk j' =>
      have hj : j.val ≠ j'.val := fun h => hne (congrArg Reg.blk (Fin.ext h.symm))
      exact Vector.getElem_set_ne j.isLt j'.isLt hj
    | _ => rfl
  | h i =>
    cases r' with
    | h i' =>
      have hi : i.val ≠ i'.val := fun h => hne (congrArg Reg.h (Fin.ext h.symm))
      exact (wordAt_setWordAt s.h i.isLt i'.isLt v).trans (if_neg hi)
    | hex k =>
      have hk : i.val ≠ k.val / 2 := (hhex i k rfl rfl).symm
      exact hexWord_congr ((wordAt_setWordAt s.h i.isLt (by omega) v).trans (if_neg hk))
    | _ => rfl
  | _ => cases r' <;> simp [State.writeIdle, State.regValue] at hne ⊢

/-- R264: a write while idle to a register other than CMD changes nothing but the operand registers, BLK
and H. -/
theorem writeIdle_frame {r : Reg} (hr : r ≠ .cmd) (s : State) (v : Word) :
    { s.writeIdle r v with
      msgAddr := s.msgAddr, msgLenLo := s.msgLenLo, msgLenHi := s.msgLenHi, keyAddr := s.keyAddr
      keyLen := s.keyLen, itemAddr := s.itemAddr, itemCount := s.itemCount, blk := s.blk, h := s.h }
      = s := by
  cases r with
  | cmd => exact absurd rfl hr
  | _ => rfl

/-- R301: the length check of HASH. -/
theorem preCheck_hash_lengthOverflow {s : State} (h : Config.maxHashedBytes ≤ s.msgLen) :
    s.preCheck .hash = .lengthOverflow := if_pos h

/-- R43: a length whose upper word is 0x20000000 is not below 2^61. -/
theorem le_msgLen_of_msgLenHi {s : State} (h : s.msgLenHi = 0x20000000) :
    Config.maxHashedBytes ≤ s.msgLen := by
  have hhi : s.msgLenHi.toNat = 0x20000000 := by rw [h]; rfl
  simp only [Config.maxHashedBytes, State.msgLen, hhi]
  omega

/-- Settles O30: the register written reads back, the others read as before, and nothing else changed;
a length that is too long is stored all the same. -/
theorem idleWritesStore : Obligations.IdleWritesStore := by
  refine ⟨fun s hb => ?tooLong, fun s r v hb hr => ?stored⟩
  case tooLong =>
    rw [writeReg_idle (r := .msgLenHi) hb nofun nofun]
    exact ⟨readReg_rdata_idle (s := s.writeIdle .msgLenHi 0x20000000) hb _,
      preCheck_hash_lengthOverflow (le_msgLen_of_msgLenHi rfl)⟩
  case stored =>
    have hstore : r.IsStore := hr
    obtain ⟨hcmd, hctrl, hstatus⟩ := hstore.ne
    rw [writeReg_idle hb hctrl hstatus]
    exact ⟨regValue_writeIdle_self hstore s v,
      fun r' hne hhex => regValue_writeIdle_of_ne hcmd hne hhex s v, writeIdle_frame hcmd s v⟩

/-! ### Register reads (R260, R262) -/

/-- R262: the registers that read as a free value while busy. -/
theorem isResult_iff {r : Reg} : r.isResult = true ↔ (∃ i, r = .h i) ∨ ∃ k, r = .hex k := by
  cases r <;> simp [Reg.isResult]

/-- R262: a read of H or HEX while busy takes a draw. -/
theorem readReg_draw {s : State} {r : Reg} (hb : s.status.busy = true) (hr : r.isResult = true) :
    s.readReg r = { s with rdata := Config.freeWord s.draws, draws := s.draws + 1 } := by
  simp only [State.readReg, hb, hr, Bool.and_self, if_true]

/-- R260: every other read puts the register's value on the read data. -/
theorem readReg_value {s : State} {r : Reg} (h : s.status.busy = false ∨ r.isResult = false) :
    s.readReg r = { s with rdata := s.regValue r } := by
  obtain h | h := h <;> simp [State.readReg, h]

/-- R35: the CTRL word is IE in bit 0. -/
theorem ctrlWord_eq (b : Bool) : ctrlWord b = if b then 1 else 0 := by cases b <;> decide

/-- Settles O32: the read by `readReg_value`, the values of the table by the definition of `regValue`,
and the values after reset by a read while idle. -/
theorem registerReads : Obligations.RegisterReads := by
  refine ⟨fun s r h => ?read, fun s => ⟨rfl, rfl, rfl, ctrlWord_eq s.ie, rfl, rfl, rfl, rfl, rfl, rfl, rfl,
    rfl, rfl, rfl, fun _ => rfl, fun _ => rfl, fun _ => rfl, fun _ => rfl⟩,
    fun p => ⟨readReg_rdata_idle rfl _, ?statusWord, readReg_rdata_idle rfl _⟩⟩
  case read =>
    refine readReg_value (h.imp_right fun ⟨hh, hhex⟩ => Bool.eq_false_iff.2 fun hr => ?_)
    obtain ⟨i, hi⟩ | ⟨k, hk⟩ := isResult_iff.1 hr
    · exact hh i hi
    · exact hhex k hk
  case statusWord => exact (readReg_rdata_idle rfl _).trans cleared_toWord

/-- Settles O33: each read takes the next draw (log entry 3). -/
theorem busyResultReadsAreAnyWord : Obligations.BusyResultReadsAreAnyWord := by
  intro s r r' hb hr hr'
  have first := readReg_draw hb (isResult_iff.2 hr)
  have busy : (s.readReg r).status.busy = true := by rw [first]; exact hb
  refine ⟨first, ?_⟩
  rw [readReg_draw busy (isResult_iff.2 hr'), first]

/-! ### A STATUS write (R266) -/

/-- R300: no two error codes have one number. -/
theorem code_injective {e e' : ErrCode} (h : e.code = e'.code) : e = e' := by
  revert h
  cases e <;> cases e' <;> decide

/-- R37: the STATUS word shows every field. -/
theorem toWord_injective {f g : Status} (h : f.toWord = g.toWord) : f = g := by
  obtain ⟨hbusy, hdone, herr, hwib⟩ := toWord_flagBits f
  obtain ⟨-, hcode, hlastop, -⟩ := toWord_fields f
  obtain ⟨hbusy', hdone', herr', hwib'⟩ := toWord_flagBits g
  obtain ⟨-, hcode', hlastop', -⟩ := toWord_fields g
  have hecode : f.ecode = g.ecode := code_injective (by rw [← hcode, ← hcode', h])
  cases f; cases g
  simp_all

/-- R266: the flags and ERR_ADDR after a STATUS write. -/
theorem writeStatus_eq (s : State) (v : Word) :
    s.writeStatus v =
      { s with
        status :=
          { busy := s.status.busy
            done := if v.getLsbD 1 then false else s.status.done
            err := if v.getLsbD 2 then false else s.status.err
            wib := if v.getLsbD 3 then false else s.status.wib
            ecode := if v.getLsbD 2 then .none else s.status.ecode
            lastop := s.status.lastop }
        errAddr := if v.getLsbD 2 then 0 else s.errAddr } := by
  have clear : ∀ flag b : Bool, (flag && !b) = if b then false else flag := by decide
  simp only [State.writeStatus, clear]

/-- Settles O35: the write by `writeStatus_eq`; in the example the word shows every flag. -/
theorem statusWriteClearsFlags : Obligations.StatusWriteClearsFlags := by
  refine ⟨fun s v => writeStatus_eq s v, fun s hs => ?written⟩
  case written =>
    have hstatus : s.status = { Status.cleared with done := true, wib := true, lastop := 1 } :=
      toWord_injective (hs.trans (by decide))
    have hdone : (s.writeStatus 0x2).status = { Status.cleared with wib := true, lastop := 1 } := by
      rw [writeStatus_eq, hstatus]
      simp [Status.cleared]
    show (s.writeStatus 0x2).status.toWord = _
    rw [hdone]
    decide

/-! ### A CTRL write (R267, R342) -/

/-- R267: a CTRL write with bit 1 clear. -/
theorem writeReg_ctrl_ie {v : Word} (h : v.getLsbD 1 = false) (s : State) :
    s.writeReg .ctrl v = { s with ie := v.getLsbD 0 } := if_neg (Bool.eq_false_iff.1 h)

/-- R342: a CTRL write with bit 1 set. -/
theorem writeReg_ctrl_softReset {v : Word} (h : v.getLsbD 1 = true) (s : State) :
    s.writeReg .ctrl v = s.blockReset := if_pos h

/-- R340, R342: a soft reset is the reset input asserted and released. -/
theorem assertReset_releaseReset {s : State} (hrst : s.rst = false) :
    s.assertReset.releaseReset = s.blockReset := by
  show { s.blockReset with rst := false } = s.blockReset
  rw [← hrst]
  rfl

/-- R59: every register of a block that was reset reads as after a hardware reset. -/
theorem blockReset_regValue (s : State) (r : Reg) :
    s.blockReset.regValue r = (State.resetOn s.platform).regValue r := by cases r <;> rfl

/-- R264 to R268: no write but a soft reset stops a running command. -/
theorem writeReg_keeps_running {s : State} {r : Reg} {v : Word} (hb : s.status.busy = true)
    (hr : r = .ctrl → v.getLsbD 1 = false) :
    (s.writeReg r v).fsm = s.fsm ∧ (s.writeReg r v).dp = s.dp ∧
      (s.writeReg r v).status.busy = true := by
  by_cases hctrl : r = .ctrl
  · subst hctrl
    rw [writeReg_ctrl_ie (hr rfl)]
    exact ⟨rfl, rfl, hb⟩
  · by_cases hstatus : r = .status
    · subst hstatus
      exact ⟨rfl, rfl, hb⟩
    · rw [writeReg_busy hb hctrl hstatus]
      exact ⟨rfl, rfl, hb⟩

/-- Settles O36: bit 1 of the word tells the soft reset from the write of IE. -/
theorem ctrlWriteAndSoftReset : Obligations.CtrlWriteAndSoftReset := by
  refine ⟨fun s v h => writeReg_ctrl_ie h s, fun s v h hrst => ?asResetInput, fun s v h => ?values,
    fun s r v hb hr => writeReg_keeps_running hb hr⟩
  case asResetInput => rw [writeReg_ctrl_softReset h, assertReset_releaseReset hrst]
  case values =>
    rw [writeReg_ctrl_softReset h]
    exact ⟨blockReset_regValue s, rfl, cleared_toWord, rfl, rfl, rfl⟩

end Sys2Proof.Machine
end

section
/-!
PROOFS. The statements of 60_exceptions.md: the acceptance checks in their order and the rejection, the
bus error that ends a command, and the interrupt output.
-/

namespace Sys2Proof.Machine

/-! ### The acceptance checks (R301) -/

/-- R91: a buffer that fails the range check, in exact arithmetic. -/
theorem not_inRange_iff {base n : Nat} : (!inRange base n) = true ↔ base + n > 2 ^ 32 := by
  rw [Bool.not_eq_true', inRange, decide_eq_false_iff_not, Nat.not_le]
  rfl

/-- R301: the checks of a word that stands for a command are those of its command. -/
theorem preCheckWord_encode (s : State) (i : Instr) : s.preCheckWord (encode i) = s.preCheck i := by
  simp only [State.preCheckWord, decode_encode_eq]

/-- R110: the fields of a command's word, as extracts. -/
theorem encode_fields (i : Instr) :
    (encode i).extractLsb' 4 28 = 0 ∧ (encode i).extractLsb' 0 4 = opcode i :=
  decode_eq_instr_iff_fields.1 (decode_encode_eq i)

/-- R301, R302: the first failing check of a command word, ILLEGAL_CMD before the checks of a
command. -/
theorem preCheckWord_eq (s : State) (v : Word) : s.preCheckWord v =
    if v.extractLsb' 4 28 ≠ 0 ∨ v.extractLsb' 0 4 ∉ [(0x1 : BitVec 4), 0x2, 0x3, 0x4, 0x5] then .illegalCmd
    else if v.extractLsb' 0 4 = 0x1 ∨ v.extractLsb' 0 4 = 0x2 then .none
    else if v.extractLsb' 0 4 = 0x3 then s.preCheck .hash
    else if v.extractLsb' 0 4 = 0x4 then s.preCheck .hmac
    else s.preCheck .merkle := by
  by_cases hv : ∃ i, decode v = .instr i
  · obtain ⟨i, hi⟩ := hv
    obtain rfl := decode_eq_instr_iff.1 hi
    obtain ⟨hrsvd, hop⟩ := encode_fields i
    rw [preCheckWord_encode, hrsvd, hop]
    cases i with
    | init => rw [if_neg (by decide), if_pos (by decide), State.preCheck]
    | compress => rw [if_neg (by decide), if_pos (by decide), State.preCheck]
    | hash => rw [if_neg (by decide), if_neg (by decide), if_pos (by decide)]
    | hmac => rw [if_neg (by decide), if_neg (by decide), if_neg (by decide), if_pos (by decide)]
    | merkle => rw [if_neg (by decide), if_neg (by decide), if_neg (by decide), if_neg (by decide)]
  · have hfields : ¬(v.extractLsb' 4 28 = 0 ∧
        v.extractLsb' 0 4 ∈ [(0x1 : BitVec 4), 0x2, 0x3, 0x4, 0x5]) :=
      mt exists_decode_eq_instr_iff.2 hv
    rw [preCheckWord_illegal fun i hi => hv ⟨i, hi⟩, if_pos (not_and_or.1 hfields)]

/-- R301: the rejection of a word offered to an idle engine changes DONE, ERR, ECODE, LASTOP and
ERR_ADDR. -/
theorem offer_reject_eq {s : State} (hb : s.status.busy = false) (hf : s.fsm = .idle) (v : Word)
    (e : ErrCode) :
    (s.offer v).reject e =
      { s with
        status := { s.status with done := false, err := true, ecode := e, lastop := opField v }
        errAddr := 0 } := by
  rw [State.reject, State.offer, ← hb, ← hf]

/-- R301: a CMD write while idle of a word whose checks fail. -/
theorem writeReg_cmd_reject {s : State} {v : Word} (hb : s.status.busy = false)
    (hc : s.preCheckWord v ≠ .none) :
    s.writeReg .cmd v = (s.offer v).reject (s.preCheckWord v) := by
  rw [writeReg_cmd_accept hb, accept_reject hc]

/-- Settles O27: the order of the checks is `preCheckWord_eq`, each range check in the arithmetic of
`not_inRange_iff`; the rejection is `offer_reject_eq`, and no row of the opcode map has OP 7. -/
theorem acceptanceChecks : Obligations.AcceptanceChecks := by
  refine ⟨fun s v => ?order, fun s v hb hf hc => ?frame, fun s hb hwib => ?illegal⟩
  case order =>
    rw [preCheckWord_eq]
    simp only [State.preCheck, not_inRange_iff]
    rfl
  case frame => rw [writeReg_cmd_reject hb hc, offer_reject_eq hb hf]; rfl
  case illegal =>
    have hno : decode 0x00000007 = .illegal .undefinedOpcode :=
      decode_undefinedOpcode (by decide) (by decide)
    rw [writeReg_cmd_illegal hb fun i => hno ▸ nofun]
    simp only [State.reject_status, State.offer_status, hwib]
    rfl

/-! ### A bus error ends the command (R306, R310) -/

/-- R310: the state an error during execution leaves. -/
theorem offer_raise_eq (s : State) (i : Instr) (a : Nat) :
    (s.offer (encode i)).raise .busError a =
      { s with
        status :=
          { s.status with
            busy := false, done := false, err := true, ecode := .busError, lastop := opcode i }
        errAddr := BitVec.ofNat 32 a, h := freeWords8 s.draws, draws := s.draws + 8
        fsm := .idle, dp := Datapath.unspecified, raced := false } := by
  rw [← opField_encode i]
  rfl

/-- R243: items that can be read whole do not hide a read that fails after them. -/
theorem readItems_append_of_fails {s : State} {l rest : List Nat}
    (hl : ∀ x ∈ l, s.bufferReadable x Config.itemBytes)
    (hfail : ∀ items, s.readItems rest ≠ .ok items) : s.readItems (l ++ rest) = s.readItems rest := by
  induction l with
  | nil => rfl
  | cons x l ih =>
    have hx := State.readBuf_ok (hl x List.mem_cons_self)
    have htail := ih fun y hy => hl y (List.mem_cons_of_mem x hy)
    rw [List.cons_append, State.readItems, hx, htail]
    cases hrest : s.readItems rest with
    | ok items => exact absurd hrest (hfail items)
    | busError e => rfl
    | sideEffect e => rfl

/-- R306: the first byte of a buffer that is not admitted, seen from an item that holds it. -/
theorem firstBusError_item {s : State} {base n j b : Nat} (hb : b < Config.itemBytes)
    (h : s.firstBusError base n (Config.itemBytes * j + b)) :
    s.firstBusError (base + Config.itemBytes * j) Config.itemBytes b := by
  obtain ⟨-, hread, hbad⟩ := h
  exact ⟨hb, hread.sub le_rfl, by rwa [Nat.add_assoc]⟩

/-- R306, R243: the reads of the leaves end at the first byte of the item buffer that is not admitted:
byte b of item j, after the items before it were read whole. -/
theorem readItems_leafAddrs_busError {s : State} {k : Nat}
    (h : s.firstBusError s.itemAddr.toNat (Config.itemBytes * s.itemCount.toNat) k) :
    s.readItems s.leafAddrs = .busError (s.itemAddr.toNat + k) := by
  obtain ⟨j, b, hb, rfl⟩ : ∃ j b, b < Config.itemBytes ∧ k = Config.itemBytes * j + b :=
    ⟨_, _, Nat.mod_lt k (by decide), (Nat.div_add_mod k Config.itemBytes).symm⟩
  have ⟨hk, hread, _⟩ := h
  have hj : j < s.itemCount.toNat :=
    Nat.lt_of_mul_lt_mul_left ((Nat.le_add_right _ b).trans_lt hk)
  obtain ⟨rest, hleaves⟩ := leafAddrs_split hj
  have before : ∀ x ∈ (List.range j).map s.leafAddr, s.bufferReadable x Config.itemBytes := by
    intro x hx
    obtain ⟨i, hi, rfl⟩ := List.mem_map.mp hx
    have hi : i < j := List.mem_range.mp hi
    rw [leafAddr_of_lt (hi.trans hj)]
    exact item_readable hread ((Nat.mul_le_mul_left _ hi).trans (Nat.le_add_right _ b))
  have here : s.readItems ((s.itemAddr.toNat + Config.itemBytes * j) :: rest) =
      .busError (s.itemAddr.toNat + (Config.itemBytes * j + b)) := by
    rw [State.readItems, State.readBuf_busError (firstBusError_item hb h), Nat.add_assoc]
  rw [hleaves, readItems_append_of_fails before (by simp [here]), here]

/-- Settles O24: the first read of the command that gives no byte answers a bus error, whatever comes
after it (log entry 15), and `State.raise` ends the command. -/
theorem busErrorEndsTheCommand : Obligations.BusErrorEndsTheCommand := by
  intro i s a hp hbad
  rw [← offer_raise_eq]
  cases i with
  | init => exact hbad.elim
  | compress => exact hbad.elim
  | hash =>
    obtain ⟨k, hk, rfl⟩ := hbad
    rw [exec_hash_eq hp, State.readBuf_busError hk]
    rfl
  | hmac =>
    rw [exec_hmac_eq hp]
    obtain ⟨k, hk, rfl⟩ | ⟨hkey, k, hk, rfl⟩ := hbad
    · rw [State.readBuf_busError hk]
      rfl
    · rw [State.readBuf_ok hkey, withRead_ok, State.readBuf_busError hk]
      rfl
  | merkle =>
    obtain ⟨k, hk, rfl⟩ := hbad
    rw [exec_merkle_eq hp, readItems_leafAddrs_busError hk]
    rfl

/-! ### The interrupt output (R320) -/

/-- R320: the level by its sources. -/
theorem irq_iff {s : State} :
    s.irq = true ↔ s.ie = true ∧ (s.status.done = true ∨ s.status.err = true) := by
  simp only [State.irq, Bool.and_eq_true, Bool.or_eq_true]

/-- R320: no interrupt while it is not enabled. -/
theorem irq_of_not_ie {s : State} (h : s.ie = false) : s.irq = false := by
  rw [State.irq, h, Bool.false_and]

/-- R320: no interrupt while neither source is set. -/
theorem irq_of_flags_clear {s : State} (hdone : s.status.done = false) (herr : s.status.err = false) :
    s.irq = false := by
  rw [State.irq, hdone, herr, Bool.or_false, Bool.and_false]

/-- R320: with a source set the level is IE. -/
theorem irq_of_flag_set {s : State} (h : s.status.done = true ∨ s.status.err = true) :
    s.irq = s.ie := by
  rw [State.irq, Bool.or_eq_true_iff.2 h, Bool.and_true]

/-- R265, R320: an accepted word leaves both sources clear. -/
theorem irq_writeReg_cmd_accepted {s : State} {v : Word} (hb : s.status.busy = false)
    (hv : s.preCheckWord v = .none) : (s.writeReg .cmd v).irq = false := by
  obtain ⟨i, hi, hp⟩ := preCheckWord_none hv
  obtain rfl := decode_eq_instr_iff.1 hi
  rw [writeReg_cmd_launch hb hp]
  exact irq_of_flags_clear (by rw [State.launch_status]; rfl) (by rw [State.launch_status]; rfl)

/-- R190, R310, R320: however a command ends, DONE or ERR is set. -/
theorem irq_exec {i : Instr} {s t : State} (ht : exec i s = .next t) : t.irq = s.ie := by
  obtain ⟨-, -, -, -, hdone⟩ := exec_flags ht
  have source : t.status.done = true ∨ t.status.err = true := by
    cases herr : t.status.err with
    | false => exact .inl (hdone.2 herr)
    | true => exact .inr rfl
  rw [irq_of_flag_set source, (exec_hostStateKept ht).ie]

/-- R267, R320: a CTRL write that resets the block or clears IE. -/
theorem irq_writeReg_ctrl (s : State) {v : Word} (hv : v.getLsbD 0 = false ∨ v.getLsbD 1 = true) :
    (s.writeReg .ctrl v).irq = false := by
  cases hreset : v.getLsbD 1 with
  | true => rw [writeReg_ctrl_softReset hreset]; rfl
  | false =>
    have hie : v.getLsbD 0 = false := hv.resolve_right (Bool.eq_false_iff.1 hreset)
    rw [writeReg_ctrl_ie hreset]
    exact irq_of_not_ie hie

/-- Settles O38: each way the sources come and go, by what it leaves of IE, DONE and ERR. -/
theorem interruptOutput : Obligations.InterruptOutput := by
  refine ⟨fun s => irq_iff, fun s v hb hv => irq_writeReg_cmd_accepted hb hv, fun s v hb hc => ?rejected,
    fun i s t ht => irq_exec ht, fun s v hdone herr => ?acknowledged, fun s => ⟨rfl, rfl⟩,
    fun s v hv => irq_writeReg_ctrl s hv⟩
  case rejected =>
    rw [writeReg_cmd_reject hb hc]
    exact irq_of_flag_set (.inr rfl)
  case acknowledged =>
    show (s.writeStatus v).irq = false
    rw [writeStatus_eq]
    exact irq_of_flags_clear (if_pos hdone) (if_pos herr)

end Sys2Proof.Machine
end

section
/-!
PROOFS. The statements of 70_reset_and_hazards.md that speak of whole commands: the result of a command
depends on its operands alone (R358), and a WAIT ends (R355).
-/

namespace Sys2Proof.Machine

/-! ### The result depends on the operands alone (R358) -/

/-- R113, R358: the operand registers and the platform of the two states are equal. -/
structure State.SameOperands (s t : State) : Prop where
  platform : s.platform = t.platform
  msgAddr : s.msgAddr = t.msgAddr
  msgLenLo : s.msgLenLo = t.msgLenLo
  msgLenHi : s.msgLenHi = t.msgLenHi
  keyAddr : s.keyAddr = t.keyAddr
  keyLen : s.keyLen = t.keyLen
  itemAddr : s.itemAddr = t.itemAddr
  itemCount : s.itemCount = t.itemCount

/-- R92, R358: memory holds the same bytes in the read set of command `i`. -/
def State.SameReadSet (s t : State) (i : Instr) : Prop :=
  ∀ a, s.inReadSet a i = true → Memory.get s.mem a = Memory.get t.mem a

/-- R358: two commands have ended alike, with the same H where they completed. -/
structure State.SameEnd (s t : State) : Prop where
  done : s.status.done = t.status.done
  err : s.status.err = t.status.err
  ecode : s.status.ecode = t.status.ecode
  errAddr : s.errAddr = t.errAddr
  h : s.status.done = true → s.h = t.h

/-- R358: outcomes of a command that end alike: both end, or both are refused for one reason. -/
inductive OutcomeSameEnd :
    Host.Outcome State Fault Refusal → Host.Outcome State Fault Refusal → Prop
  | next {s t : State} (h : s.SameEnd t) : OutcomeSameEnd (.next s) (.next t)
  | refused (r : Refusal) : OutcomeSameEnd (.refused r) (.refused r)

section
variable {s t : State}

theorem State.SameOperands.preCheck (ho : s.SameOperands t) (i : Instr) :
    s.preCheck i = t.preCheck i :=
  preCheck_congr i ho.msgAddr ho.msgLenLo ho.msgLenHi ho.keyAddr ho.keyLen ho.itemAddr ho.itemCount
    ho.platform

theorem State.SameOperands.msgLen (ho : s.SameOperands t) : s.msgLen = t.msgLen := by
  rw [State.msgLen, ho.msgLenHi, ho.msgLenLo, State.msgLen]

theorem State.SameOperands.leafAddrs (ho : s.SameOperands t) : s.leafAddrs = t.leafAddrs := by
  have haddr : s.leafAddr = t.leafAddr := by
    funext i
    rw [State.leafAddr, ho.itemAddr, ho.itemCount, State.leafAddr]
  rw [State.leafAddrs, haddr, ho.itemCount, State.leafAddrs]

/-- R16: a buffer that holds the same bytes answers alike. -/
theorem State.SameOperands.readBuf (ho : s.SameOperands t) {base n : Nat}
    (hm : ∀ a, inBuffer base n a = true → Memory.get s.mem a = Memory.get t.mem a) :
    s.readBuf base n = t.readBuf base n :=
  State.readBuf_congr ho.platform fun i hi => hm (base + i) (by simp [inBuffer, hi])

/-- R243: so do the leaves of an item buffer that holds the same bytes. -/
theorem State.SameOperands.readItems (ho : s.SameOperands t) (hm : s.SameReadSet t .merkle) :
    s.readItems s.leafAddrs = t.readItems s.leafAddrs := by
  refine State.readItems_congr ho.platform _ fun a ha k hk => hm (a + k) ?_
  obtain ⟨j, hj, rfl⟩ := mem_leafAddrs ha
  have hend : Config.itemBytes * (j + 1) ≤ Config.itemBytes * s.itemCount.toNat :=
    Nat.mul_le_mul_left _ hj
  rw [Nat.mul_succ] at hend
  simp only [State.inReadSet, inBuffer, Bool.and_eq_true, decide_eq_true_eq]
  omega

/-- R301: two rejections for one reason. -/
theorem sameEnd_reject (s t : State) (v : Word) (e : ErrCode) :
    ((s.offer v).reject e).SameEnd ((t.offer v).reject e) :=
  ⟨rfl, rfl, rfl, rfl, nofun⟩

/-- R190: two completions with one result. -/
theorem sameEnd_complete (s t : State) (v : Word) (r : Words8) :
    ((s.offer v).complete r).SameEnd ((t.offer v).complete r) :=
  ⟨rfl, rfl, rfl, rfl, fun _ => rfl⟩

/-- R190, R352: the same of commands that read memory nobody wrote meanwhile. -/
theorem sameEnd_completeRead (hs : s.raced = false) (ht : t.raced = false) (v : Word) (r : Words8) :
    ((s.offer v).completeRead r).SameEnd ((t.offer v).completeRead r) := by
  rw [State.completeRead_of_not_raced (s.offer v) r hs, State.completeRead_of_not_raced (t.offer v) r ht]
  exact sameEnd_complete s t v r

/-- R83, R306: one and the same answer to a read. -/
theorem outcomeSameEnd_withRead {α : Type} (s t : State) (v : Word) (r : ReadResult α)
    {k k' : α → Host.Outcome State Fault Refusal} (hk : ∀ x, OutcomeSameEnd (k x) (k' x)) :
    OutcomeSameEnd ((s.offer v).withRead r k) ((t.offer v).withRead r k') := by
  cases r with
  | ok x => exact hk x
  | busError a => exact .next ⟨rfl, rfl, rfl, rfl, nofun⟩
  | sideEffect a => exact .refused _

/-- R358: a command whose checks pass ends alike on equal operands and equal bytes read. -/
theorem outcomeSameEnd_exec_accepted {i : Instr} (ho : s.SameOperands t) (hs : s.raced = false)
    (ht : t.raced = false) (hc : i = .compress → s.h = t.h ∧ s.blk = t.blk) (hm : s.SameReadSet t i)
    (hp : s.preCheck i = .none) : OutcomeSameEnd (exec i s) (exec i t) := by
  have hp' : t.preCheck i = .none := (ho.preCheck i).symm.trans hp
  cases i with
  | init => exact .next (sameEnd_complete s t _ iv)
  | compress =>
    obtain ⟨hh, hblk⟩ := hc rfl
    rw [exec_compress_eq, exec_compress_eq, hh, hblk]
    exact .next (sameEnd_complete s t _ _)
  | hash =>
    rw [exec_hash_eq hp, exec_hash_eq hp', ho.readBuf hm, ho.msgAddr, ho.msgLen]
    exact outcomeSameEnd_withRead s t _ _ fun _ => .next (sameEnd_completeRead hs ht _ _)
  | hmac =>
    have hkey : s.readBuf s.keyAddr.toNat s.keyLen.toNat = t.readBuf s.keyAddr.toNat s.keyLen.toNat :=
      ho.readBuf fun a ha => hm a (by simp [State.inReadSet, ha])
    have hmsg : s.readBuf s.msgAddr.toNat s.msgLen = t.readBuf s.msgAddr.toNat s.msgLen :=
      ho.readBuf fun a ha => hm a (by simp [State.inReadSet, ha])
    rw [exec_hmac_eq hp, exec_hmac_eq hp', hkey, hmsg, ho.keyAddr, ho.keyLen, ho.msgAddr, ho.msgLen]
    exact outcomeSameEnd_withRead s t _ _ fun _ => outcomeSameEnd_withRead s t _ _ fun _ =>
      .next (sameEnd_completeRead hs ht _ _)
  | merkle =>
    rw [exec_merkle_eq hp, exec_merkle_eq hp', ho.readItems hm, ho.leafAddrs]
    exact outcomeSameEnd_withRead s t _ _ fun _ => .next (sameEnd_completeRead hs ht _ _)

/-- R358: so does every command; the checks look at the operands alone. -/
theorem outcomeSameEnd_exec {i : Instr} (ho : s.SameOperands t) (hs : s.raced = false)
    (ht : t.raced = false) (hc : i = .compress → s.h = t.h ∧ s.blk = t.blk) (hm : s.SameReadSet t i) :
    OutcomeSameEnd (exec i s) (exec i t) := by
  by_cases hp : s.preCheck i = .none
  · exact outcomeSameEnd_exec_accepted ho hs ht hc hm hp
  · rw [exec_rejected hp, exec_rejected (ho.preCheck i ▸ hp), ← ho.preCheck i]
    exact .next (sameEnd_reject s t _ _)

end

/-- Settles O42: the checks, the bytes read and the result are functions of the operands
(`outcomeSameEnd_exec`). -/
theorem resultDependsOnOperandsAlone : Obligations.ResultDependsOnOperandsAlone := by
  intro i s t hplat hs ht hma hlo hhi hka hkl hia hic hc hm
  have hend := outcomeSameEnd_exec ⟨hplat, hma, hlo, hhi, hka, hkl, hia, hic⟩ hs ht hc hm
  generalize exec i s = o at hend ⊢
  generalize exec i t = o' at hend ⊢
  cases hend with
  | next h =>
    refine ⟨fun r => ⟨nofun, nofun⟩, fun s' hs' => ?_⟩
    cases hs'
    exact ⟨_, rfl, h.done, h.err, h.ecode, h.errAddr, h.h⟩
  | refused r =>
    refine ⟨fun _ => Iff.rfl, fun s' hs' => ?_⟩
    cases hs'

/-! ### A WAIT ends (R118, R355) -/

/-- R38: BUSY holds only while the engine runs a command, and that command's checks pass. -/
theorem running_of_busy {s : State} (h : Inv s) (hb : s.status.busy = true) :
    ∃ op ph i, s.fsm = .run op ph ∧ decodeOp op = .instr i ∧ s.preCheck i = .none ∧ s.rst = false := by
  have hengine := h.engine
  unfold State.engineOk at hengine
  split at hengine
  next => exact absurd hb (by simp [hengine.busy])
  next op ph hf =>
    obtain ⟨i, hi, hp, -, -⟩ := hengine.command
    exact ⟨op, ph, i, hf, hi, hp, hengine.notReset⟩

/-- R83, R306: a command whose checks pass ends, or is refused at a read that has side effects. -/
theorem exec_ends_or_refused {i : Instr} {s : State} (hp : s.preCheck i = .none) :
    (∃ a, exec i s = .refused (.sideEffectRead a)) ∨ ∃ t, exec i s = .next t := by
  obtain ⟨r, hr⟩ | ⟨-, ⟨r, hr⟩ | ⟨a, hr⟩ | hr⟩ := exec_accepted hp
  · exact .inr ⟨_, hr⟩
  · exact .inr ⟨_, hr⟩
  · exact .inr ⟨_, hr⟩
  · exact .inl hr

/-- R355: during a WAIT with BUSY = 1 the engine moves. -/
theorem step_wait_busy {s : State} {rest : List Event} (hs : s.schedule = .host .wait :: rest)
    (hb : s.status.busy = true) : step s = s.engineCommand := by
  simp only [step, State.agentStep, hs, State.hostAction, hb, if_true]

/-- R118: with BUSY = 0 a WAIT reads STATUS and is over. -/
theorem step_wait_idle {s : State} {rest : List Event} (hs : s.schedule = .host .wait :: rest)
    (hb : s.status.busy = false) (hrst : s.rst = false) :
    step s = .next { s with schedule := rest, rdata := s.status.toWord } := by
  have hsel : { s with schedule := rest }.selectReg (s.platform.regBase + offsetOf .status) 4 = .ok .status :=
    selectReg_offset (s := { s with schedule := rest }) hrst (by decide)
  simp only [step, State.agentStep, hs, State.hostAction, hb, State.busRead, hsel]
  rw [readReg_value (.inr rfl)]
  rfl

/-- Settles O52: the step under the WAIT is the whole command (`step_wait_busy`), which keeps the
schedule and leaves BUSY = 0 (`exec_flags`), and then the WAIT is over (`step_wait_idle`). -/
theorem waitTerminates : Obligations.WaitTerminates := by
  intro s rest hinv hb hs
  obtain ⟨op, ph, i, hf, hi, hp, hrst⟩ := running_of_busy hinv hb
  rw [step_wait_busy hs hb, engineCommand_run hf hi]
  refine (exec_ends_or_refused hp).imp_right fun ⟨t, ht⟩ => ?_
  have kept := exec_hostStateKept ht
  obtain ⟨-, hidle, -⟩ := exec_flags ht
  have hsched : t.schedule = .host .wait :: rest := kept.schedule.trans hs
  exact ⟨t, ht, hidle, hsched, step_wait_idle hsched hidle (kept.rst.trans hrst)⟩

end Sys2Proof.Machine
end

section
/-!
PROOFS. R357 of 70_reset_and_hazards.md: the work of a command does not depend on the data.  Two runs that
differ in H, BLK and memory agree, at every micro-step, in the shape of the internal state
(`Datapath.SameShape`): the counters, and the data up to the lengths of its byte sequences.
-/

namespace Sys2Proof.Machine

/-! ### Streams with their bytes blanked (R172) -/

/-- R357: a segment without the bytes it holds. -/
def Segment.blank : Segment → Segment
  | .mem base n => .mem base n
  | .held bs => .held (zeros bs.length)

/-- R357: where a byte comes from, without the byte held. -/
def ByteSource.blank : ByteSource → ByteSource
  | .read a => .read a
  | .held _ => .held 0

theorem segmentLen_blank (g : Segment) : segmentLen g.blank = segmentLen g := by
  cases g with
  | mem base n => rfl
  | held bs => exact zeros_length bs.length

theorem map_segmentLen_blank (segs : List Segment) :
    (segs.map Segment.blank).map segmentLen = segs.map segmentLen := by
  rw [List.map_map]
  exact List.map_congr_left fun g _ => segmentLen_blank g

/-- R172: the next byte of a stream and the rest of it, blanked, are those of the blanked stream. -/
theorem popByte_map_blank (segs : List Segment) :
    popByte (segs.map Segment.blank) =
      (popByte segs).map (Prod.map ByteSource.blank (List.map Segment.blank)) := by
  induction segs using popByte.induct with
  | case1 => rfl
  | case2 base rest ih => exact ih
  | case3 base n rest => rfl
  | case4 rest ih => exact ih
  | case5 b bs rest => rfl

section
variable {segs segs' : List Segment}

theorem map_segmentLen_of_blank (h : segs'.map Segment.blank = segs.map Segment.blank) :
    segs'.map segmentLen = segs.map segmentLen := by
  rw [← map_segmentLen_blank segs', h, map_segmentLen_blank]

theorem streamLen_of_blank (h : segs'.map Segment.blank = segs.map Segment.blank) :
    streamLen segs' = streamLen segs := by
  rw [streamLen, map_segmentLen_of_blank h, streamLen]

theorem dataTail_of_blank (h : segs'.map Segment.blank = segs.map Segment.blank) :
    dataTail segs' = dataTail segs := by
  rw [dataTail, streamLen_of_blank h, dataTail]

/-- R172, R357: streams alike up to the bytes they hold are both at their end, or both read the same
address next, or both take a byte they hold; what is left of them is alike again. -/
theorem popByte_of_blank (h : segs'.map Segment.blank = segs.map Segment.blank) :
    (popByte segs = none ∧ popByte segs' = none) ∨
    ∃ rest rest', rest'.map Segment.blank = rest.map Segment.blank ∧
      ((∃ a, popByte segs = some (.read a, rest) ∧ popByte segs' = some (.read a, rest')) ∨
       ∃ b b', popByte segs = some (.held b, rest) ∧ popByte segs' = some (.held b', rest')) := by
  have hpop := congrArg popByte h
  rw [popByte_map_blank, popByte_map_blank] at hpop
  cases hs : popByte segs with
  | none =>
    rw [hs, Option.map_none, Option.map_eq_none_iff] at hpop
    exact .inl ⟨rfl, hpop⟩
  | some next =>
    obtain ⟨src, rest⟩ := next
    rw [hs, Option.map_some, Option.map_eq_some_iff] at hpop
    obtain ⟨⟨src', rest'⟩, hs', hnext⟩ := hpop
    rw [Prod.map_apply, Prod.map_apply, Prod.mk.injEq] at hnext
    obtain ⟨hsrc, hrest⟩ := hnext
    refine .inr ⟨rest, rest', hrest, ?_⟩
    match src, src', hsrc with
    | .read a, .read _, rfl => exact .inl ⟨a, rfl, hs'⟩
    | .held x, .held x', _ => exact .inr ⟨x, x', rfl, hs'⟩

end

/-! ### The shape of the internal state -/

/-- R357: the internal states are equal up to the words computed and the bytes held. -/
structure Datapath.SameShape (d e : Datapath) : Prop where
  t : e.t = d.t
  pos : e.pos = d.pos
  consumed : e.consumed = d.consumed
  segs : e.segs.map Segment.blank = d.segs.map Segment.blank
  bitlen : e.bitlen = d.bitlen
  tail : e.tail = d.tail
  k0 : e.k0.length = d.k0.length
  hmacPhase : e.hmacPhase = d.hmacPhase
  node : e.node.map List.length = d.node.map List.length
  m : e.m = d.m
  p : e.p = d.p
  stage : e.stage = d.stage

theorem Datapath.SameShape.refl (d : Datapath) : d.SameShape d :=
  ⟨rfl, rfl, rfl, rfl, rfl, rfl, rfl, rfl, rfl, rfl, rfl, rfl⟩

/-- R357: another H, BLK and memory. -/
def State.withData (s : State) (h : Words8) (b : Vector Word 16) (m : Memory) : State :=
  { s with h := h, blk := b, mem := m }

/-- Two engines at the same phase of a command with internal states of one shape, or two that have ended
with the same flags. -/
inductive State.InStep : State → State → Prop
  | running (s : State) (h : Words8) (b : Vector Word 16) (m : Memory) (op : BitVec 4) (ph : Phase)
      (d e : Datapath) (hshape : d.SameShape e) :
      InStep (s.goto op ph d) ((s.withData h b m).goto op ph e)
  | ended (t u : State) (ht : t.fsm = .idle) (hu : u.fsm = .idle) (hstatus : t.status = u.status)
      (herr : t.errAddr = u.errAddr) (hdp : t.dp = u.dp) : InStep t u

/-- Outcomes in step: states that are, or the same refusal. -/
inductive OutcomeInStep :
    Host.Outcome State Fault Refusal → Host.Outcome State Fault Refusal → Prop
  | next {t u : State} (h : t.InStep u) : OutcomeInStep (.next t) (.next u)
  | refused (r : Refusal) : OutcomeInStep (.refused r) (.refused r)

section
variable (s : State) (h : Words8) (b : Vector Word 16) (m : Memory) (op : BitVec 4) {d e : Datapath}

/-- R80, R306: whether a read gives a byte does not depend on what memory holds. -/
theorem outcomeInStep_withRead (a : Nat) {k k' : Byte → Host.Outcome State Fault Refusal}
    (hk : ∀ x x', OutcomeInStep (k x) (k' x')) :
    OutcomeInStep (s.withRead (s.memRead a) k)
      ((s.withData h b m).withRead ((s.withData h b m).memRead a) k') := by
  have hplat : (s.withData h b m).platform = s.platform := rfl
  simp only [State.memRead, hplat]
  split
  · split
    · exact .refused _
    · exact hk _ _
  · exact .next (.ended _ _ rfl rfl rfl rfl rfl)

/-! ### A stream begins, takes a byte and ends -/

/-- R172: the counters of a stream that begins are those of its length. -/
theorem inStep_startStream (hd : d.SameShape e) {segs segs' : List Segment}
    (hsegs : segs'.map Segment.blank = segs.map Segment.blank) :
    State.InStep (s.goto op .put (d.startStream segs))
      ((s.withData h b m).goto op .put (e.startStream segs')) :=
  have hlen : streamLen segs' = streamLen segs := streamLen_of_blank hsegs
  .running s h b m op .put _ _
    { hd with
      pos := rfl, consumed := rfl, segs := hsegs, bitlen := by simp only [Datapath.startStream, hlen]
      tail := dataTail_of_blank hsegs }

/-- R172: PutByte. -/
theorem inStep_putByte (hd : d.SameShape e) (x x' : Byte) {segs segs' : List Segment}
    (hsegs : segs'.map Segment.blank = segs.map Segment.blank) (n : Nat) (tail : Tail) :
    State.InStep ((s.goto op .put d).putByte op x segs n tail)
      (((s.withData h b m).goto op .put e).putByte op x' segs' n tail) := by
  rw [putByte_goto, putByte_goto, hd.pos]
  exact .running s h b m op _ _ _
    { hd with pos := congrArg (· + 1) hd.pos, consumed := rfl, segs := hsegs, tail := rfl }

/-- R172: BYTE and PAD. -/
theorem outcomeInStep_microPut (hd : d.SameShape e) :
    OutcomeInStep ((s.goto op .put d).microPut op) (((s.withData h b m).goto op .put e).microPut op) := by
  simp only [State.microPut, State.goto_dp, hd.tail, hd.bitlen, hd.pos, putData_goto, putPad_goto,
    memRead_goto, withRead_goto, hd.consumed]
  cases d.tail with
  | data =>
    obtain ⟨hs, hs'⟩ | ⟨rest, rest', hrest, ⟨a, hs, hs'⟩ | ⟨x, x', hs, hs'⟩⟩ := popByte_of_blank hd.segs
    · rw [hs, hs']
      exact .next (.running s h b m op .put d e hd)
    · rw [hs, hs']
      dsimp only
      rw [dataTail_of_blank hrest]
      exact outcomeInStep_withRead s h b m a fun _ _ =>
        .next (inStep_putByte s h b m op hd _ _ hrest _ _)
    · rw [hs, hs']
      dsimp only
      rw [dataTail_of_blank hrest]
      exact .next (inStep_putByte s h b m op hd _ _ hrest _ _)
  | term => exact .next (inStep_putByte s h b m op hd _ _ hd.segs _ _)
  | zero => exact .next (inStep_putByte s h b m op hd _ _ hd.segs _ _)
  | len j => exact .next (inStep_putByte s h b m op hd _ _ hd.segs _ _)
  | done => exact .next (.running s h b m op .put d e hd)

/-- R172: two segments of held bytes, alike in their lengths. -/
theorem blank_held_held {l l' r r' : Bytes} (hl : l'.length = l.length) (hr : r'.length = r.length) :
    [Segment.held l', .held r'].map Segment.blank = [Segment.held l, .held r].map Segment.blank := by
  simp only [List.map_cons, List.map_nil, Segment.blank, hl, hr]

theorem innerKey_length_congr {k k' : Bytes} (hk : k'.length = k.length) :
    (innerKey k').length = (innerKey k).length := by
  simp only [innerKey, xorBytes, List.length_zipWith, hk]

theorem outerKey_length_congr {k k' : Bytes} (hk : k'.length = k.length) :
    (outerKey k').length = (outerKey k).length := by
  simp only [outerKey, xorBytes, List.length_zipWith, hk]

/-- R225: the HMAC wrapper after a stream. -/
theorem inStep_hmacStreamDone (hd : d.SameShape e) {x x' : Bytes} (hx : x'.length = x.length) :
    State.InStep (s.hmacStreamDone op x d) ((s.withData h b m).hmacStreamDone op x' e) := by
  simp only [State.hmacStreamDone, hd.hmacPhase]
  cases d.hmacPhase with
  | keyHash => exact .running s h b m op .keyPad _ _ { hd with k0 := hx, hmacPhase := rfl }
  | inner =>
    refine inStep_startStream s h b m op ?_ (blank_held_held (outerKey_length_congr hd.k0) hx)
    exact { hd with hmacPhase := rfl }
  | outer => exact .running s h b m op .complete _ _ { hd with hmacPhase := rfl }

/-- R56: a node of a buffer, by the lengths of the nodes. -/
theorem node_getD_length {l l' : List Bytes} (hl : l'.map List.length = l.map List.length) (j : Nat) :
    (l'.getD j []).length = (l.getD j []).length := by
  rw [← List.getD_map (f := List.length), hl, List.getD_map]

/-- R244: the hash of a pair. -/
theorem inStep_startPair (hd : d.SameShape e) :
    State.InStep (s.startPair op d) ((s.withData h b m).startPair op e) := by
  simp only [State.startPair, hd.p]
  exact inStep_startStream s h b m op hd
    (blank_held_held (node_getD_length hd.node _) (node_getD_length hd.node _))

/-- R244: the head of the reduction. -/
theorem inStep_reduceHead (hd : d.SameShape e) :
    State.InStep (s.reduceHead op d) ((s.withData h b m).reduceHead op e) := by
  simp only [State.reduceHead, hd.m]
  split
  · exact .running s h b m op .complete _ _ { hd with m := rfl }
  · split
    · exact .running s h b m op .dup _ _ hd
    · exact inStep_startPair s h b m op { hd with m := rfl, p := rfl }

/-- R243, R244: the Merkle node hasher after a stream. -/
theorem inStep_merkleStreamDone (hd : d.SameShape e) {x x' : Bytes} (hx : x'.length = x.length) :
    State.InStep (s.merkleStreamDone op x d) ((s.withData h b m).merkleStreamDone op x' e) := by
  have hcount : e.node.length = d.node.length := by simpa using congrArg List.length hd.node
  have hitems : (s.withData h b m).itemCount = s.itemCount := rfl
  have hleaf : (e.node ++ [x']).map List.length = (d.node ++ [x]).map List.length := by
    simp only [List.map_append, hd.node, List.map_cons, hx, List.map_nil]
  have hset : (e.node.set d.p x').map List.length = (d.node.set d.p x).map List.length := by
    simp only [List.map_set, hd.node, hx]
  simp only [State.merkleStreamDone, hd.stage, hcount, hitems, hd.p, hd.m]
  cases d.stage with
  | leaf =>
    dsimp only
    split
    · refine inStep_startStream s h b m op ?_ rfl
      exact { hd with node := hleaf, stage := rfl, p := rfl, m := rfl }
    · exact inStep_reduceHead s h b m op { hd with node := hleaf, stage := rfl, p := rfl, m := rfl }
  | reduce =>
    dsimp only
    split
    · exact inStep_startPair s h b m op { hd with node := hset, stage := rfl, p := rfl, m := rfl }
    · refine inStep_reduceHead s h b m op { hd with node := ?_, stage := rfl, p := rfl, m := rfl }
      simp only [List.map_take, hset]

/-- R172: a stream has ended and the command goes on. -/
theorem inStep_streamDone (hd : d.SameShape e) {x x' : Bytes} (hx : x'.length = x.length) :
    State.InStep (s.streamDone op x d) ((s.withData h b m).streamDone op x' e) := by
  unfold State.streamDone
  split
  · exact inStep_hmacStreamDone s h b m op hd hx
  · exact inStep_merkleStreamDone s h b m op hd hx
  · exact .running s h b m op .complete _ _ { hd with }

/-! ### A compression -/

/-- R172, R195: LOAD. -/
theorem inStep_load (hd : d.SameShape e) :
    State.InStep ((s.goto op .load d).microLoad op) (((s.withData h b m).goto op .load e).microLoad op) :=
  .running s h b m op .round _ _ { hd with t := rfl }

/-- R172, R195: ROUND. -/
theorem inStep_round (hd : d.SameShape e) :
    State.InStep ((s.goto op .round d).microRound op)
      (((s.withData h b m).goto op .round e).microRound op) := by
  simp only [State.microRound, State.goto_dp, hd.t]
  exact .running s h b m op _ _ _ { hd with t := rfl }

/-- R172, R195: FEED. -/
theorem inStep_feed (hd : d.SameShape e) :
    State.InStep ((s.goto op .feed d).microFeed op) (((s.withData h b m).goto op .feed e).microFeed op) := by
  simp only [State.microFeed, State.goto_dp, hd.tail, streamDone_goto]
  split
  · exact .running s h b m op .complete _ _ { hd with tail := rfl }
  · split
    · refine inStep_streamDone s h b m op ?_ (by rw [ser_length, ser_length])
      exact { hd with pos := rfl, tail := rfl }
    · exact .running s h b m op .put _ _ { hd with pos := rfl, tail := rfl }

/-! ### The wrappers' own micro-steps -/

/-- R225: BYTE of the key's copy form. -/
theorem outcomeInStep_keyByte (hd : d.SameShape e) :
    OutcomeInStep ((s.goto op .keyByte d).microKeyByte op)
      (((s.withData h b m).goto op .keyByte e).microKeyByte op) := by
  simp only [State.microKeyByte, State.goto_dp, hd.k0, memRead_goto, withRead_goto]
  refine outcomeInStep_withRead s h b m _ fun x x' => .next (.running s h b m op _ _ _ { hd with k0 := ?_ })
  simp only [List.length_append, hd.k0, List.length_singleton]

/-- R225: KEYPAD. -/
theorem inStep_keyPad (hd : d.SameShape e) :
    State.InStep ((s.goto op .keyPad d).microKeyPad op)
      (((s.withData h b m).goto op .keyPad e).microKeyPad op) := by
  refine .running s h b m op .mask _ _ { hd with k0 := ?_ }
  simp only [State.goto_dp, List.length_append, hd.k0]

/-- R225: MASK. -/
theorem inStep_mask (hd : d.SameShape e) :
    State.InStep ((s.goto op .mask d).microMask op) (((s.withData h b m).goto op .mask e).microMask op) := by
  refine inStep_startStream s h b m op ?shape ?segs
  case shape => exact { hd with hmacPhase := rfl }
  case segs =>
    simp only [State.goto_dp, List.map_cons, Segment.blank, innerKey_length_congr hd.k0]
    rfl

/-- R244: DUP. -/
theorem inStep_dup (hd : d.SameShape e) :
    State.InStep ((s.goto op .dup d).microDup op) (((s.withData h b m).goto op .dup e).microDup op) := by
  refine inStep_startPair s h b m op { hd with node := ?_, m := congrArg (· + 1) hd.m, p := rfl }
  simp only [State.goto_dp, List.map_append, hd.node, List.map_cons, hd.m, node_getD_length hd.node,
    List.map_nil]

end

/-! ### Every micro-step (R180, R357) -/

/-- R357: a micro-step keeps two engines in step. -/
theorem outcomeInStep_microStep {t u : State} (h : t.InStep u) :
    OutcomeInStep t.microStep u.microStep := by
  cases h with
  | ended t u ht hu hstatus herr hdp =>
    simp only [State.microStep, ht, hu]
    exact .next (.ended t u ht hu hstatus herr hdp)
  | running s h b m op ph d e hd =>
    cases ph with
    | initLoad => exact .next (.running s h b m op .complete _ _ { hd with })
    | put => exact outcomeInStep_microPut s h b m op hd
    | load => exact .next (inStep_load s h b m op hd)
    | round => exact .next (inStep_round s h b m op hd)
    | feed => exact .next (inStep_feed s h b m op hd)
    | keyByte => exact outcomeInStep_keyByte s h b m op hd
    | keyPad => exact .next (inStep_keyPad s h b m op hd)
    | mask => exact .next (inStep_mask s h b m op hd)
    | dup => exact .next (inStep_dup s h b m op hd)
    | complete =>
      rw [microStep_complete, microStep_complete]
      refine .next (.ended _ _ (State.completeRead_fsm _ _) (State.completeRead_fsm _ _) ?_ ?_ ?_)
      · rw [State.completeRead_status, State.completeRead_status]; rfl
      · rw [State.completeRead_errAddr, State.completeRead_errAddr]; rfl
      · rw [State.completeRead_dp, State.completeRead_dp]

/-- R180: any number of micro-steps. -/
theorem outcomeInStep_microSteps {t u : State} (h : t.InStep u) (n : Nat) :
    OutcomeInStep (t.microSteps n) (u.microSteps n) := by
  induction n generalizing t u with
  | zero => exact .next h
  | succ n ih =>
    have hstep := outcomeInStep_microStep h
    simp only [State.microSteps]
    generalize t.microStep = o, u.microStep = o' at hstep ⊢
    cases hstep with
    | next h' => exact ih h'
    | refused r => exact .refused r

/-- R265: a command starts in step, whatever the data. -/
theorem inStep_start (i : Instr) (s : State) (h : Words8) (b : Vector Word 16) (m : Memory) :
    State.InStep (s.start (opcode i)) ((s.withData h b m).start (opcode i)) := by
  have hlen : (s.withData h b m).keyLen = s.keyLen := rfl
  simp only [State.start, decodeOp_opcode]
  cases i with
  | hmac =>
    simp only [State.startHmac, hlen]
    split
    · exact .running s h b m _ .put _ _ (.refl _)
    · split
      · exact .running s h b m _ .keyPad _ _ (.refl _)
      · exact .running s h b m _ .keyByte _ _ (.refl _)
  | init | compress | hash | merkle => exact .running s h b m _ _ _ _ (.refl _)

/-- R357: engines in step agree in all that decides the next micro-step. -/
theorem State.InStep.sameWork {t u : State} (h : t.InStep u) :
    t.fsm = u.fsm ∧ t.errAddr = u.errAddr ∧ t.status = u.status ∧ t.dp.SameShape u.dp := by
  cases h with
  | running s h b m op ph d e hd => exact ⟨rfl, rfl, rfl, hd⟩
  | ended t u ht hu hstatus herr hdp => exact ⟨ht.trans hu.symm, herr, hstatus, hdp ▸ .refl t.dp⟩

/-- R357: internal states of one shape read the same address next. -/
theorem Datapath.SameShape.popByte_read {d e : Datapath} (hd : d.SameShape e) {a : Nat}
    {rest : List Segment} (hread : popByte d.segs = some (.read a, rest)) :
    ∃ rest', popByte e.segs = some (.read a, rest') := by
  obtain ⟨hs, -⟩ | ⟨_, rest', -, ⟨a', hs, hs'⟩ | ⟨x, x', hs, -⟩⟩ := popByte_of_blank hd.segs
  · cases hs.symm.trans hread
  · cases hs.symm.trans hread
    exact ⟨rest', hs'⟩
  · cases hs.symm.trans hread

/-- R357: the runs of a command accepted with any two choices of data are in step. -/
theorem outcomeInStep_accepted {i : Instr} {s : State} (hb : s.status.busy = false)
    (hp : s.preCheck i = .none) (h : Words8) (b : Vector Word 16) (m : Memory) (n : Nat) :
    OutcomeInStep ((s.writeReg .cmd (encode i)).microSteps n)
      (((s.withData h b m).writeReg .cmd (encode i)).microSteps n) := by
  have hp' : (s.withData h b m).preCheck i = .none :=
    (preCheck_congr i rfl rfl rfl rfl rfl rfl rfl rfl).trans hp
  rw [writeReg_cmd_start hb hp, writeReg_cmd_start (s := s.withData h b m) hb hp']
  exact outcomeInStep_microSteps (inStep_start i (s.accepted (encode i)) h b m) n

/-- Settles O51: the two runs start in step and every micro-step keeps them so. -/
theorem workIsDataIndependent : Obligations.WorkIsDataIndependent := by
  intro i s h b m n hb hp
  have hrun : OutcomeInStep ((s.writeReg .cmd (encode i)).microSteps n)
      (({ s with h := h, blk := b, mem := m }.writeReg .cmd (encode i)).microSteps n) :=
    outcomeInStep_accepted hb hp h b m n
  generalize (s.writeReg .cmd (encode i)).microSteps n = o at hrun ⊢
  generalize ({ s with h := h, blk := b, mem := m }.writeReg .cmd (encode i)).microSteps n = o' at hrun ⊢
  cases hrun with
  | refused r => rfl
  | next h =>
    obtain ⟨hfsm, herr, hstatus, hd⟩ := h.sameWork
    exact ⟨hfsm, herr, hstatus, hd.tail.symm, hd.pos.symm, hd.consumed.symm, hd.bitlen.symm,
      (map_segmentLen_of_blank hd.segs).symm, hd.k0.symm, fun a rest => hd.popByte_read⟩

end Sys2Proof.Machine
end

section
/-!
PROOFS. The host's side of 20_memory.md and of 00_scope.md R20: a byte the host writes to memory, a bus
access outside the register block, and the event that each step takes from the schedule.
-/

namespace Sys2Proof.Machine

/-! ### Accesses outside the register block (R81) -/

/-- R81: with the reset input released, an address outside the block's 256 bytes reaches no register. -/
theorem selectReg_outside {s : State} {addr : Nat} (hrst : s.rst = false)
    (hout : addr < s.platform.regBase ∨ s.platform.regBase + 256 ≤ addr) (size : Nat) :
    s.selectReg addr size = .error (.outsideRegisterSpace addr) := by
  unfold State.selectReg
  rw [if_neg (ne_true_of_eq_false hrst), if_pos hout]

/-- Settles O53: both accesses answer what `selectReg` does. -/
theorem accessOutsideTheBlock : Obligations.AccessOutsideTheBlock := by
  intro s addr size hrst hout
  simp only [State.busWrite, State.busRead, selectReg_outside hrst hout, implies_true, and_self]

/-! ### Bytes the host writes (R80) -/

/-- R80: memory ends at 2^32, and a host write there or above is a fault. -/
theorem writeMem_of_ge {a : Nat} (ha : Config.memSize ≤ a) (s : State) (b : Byte) :
    s.writeMem a b = .fault (.noSuchAddress a) :=
  if_neg (Nat.not_lt.mpr ha)

/-- Settles O40: below 2^32 the write is `Memory.set`, whose rules are `Memory.wf_set` and
`Memory.get_set`. -/
theorem hostMemoryWrite : Obligations.HostMemoryWrite := by
  refine ⟨fun s a b hwf ha => ⟨_, writeMem_of_lt ha b, Memory.wf_set b hwf ha, ?written, ?others, rfl⟩,
    fun s a b ha => writeMem_of_ge ha s b⟩
  case written => exact (Memory.get_set a a b hwf).trans (if_pos rfl)
  case others => exact fun x hx => (Memory.get_set a x b hwf).trans (if_neg hx)

/-! ### A step is the step of the agent the schedule names (R20) -/

/-- R20: the schedule names an action of the host. -/
theorem step_of_schedule_host {s : State} {op : HostOp} {rest : List Event}
    (hs : s.schedule = .host op :: rest) : step s = s.hostAction op rest := by
  simp only [step, State.agentStep, hs]

/-- R20: the schedule names one micro-step of the engine. -/
theorem step_of_schedule_micro {s : State} {rest : List Event} (hs : s.schedule = .micro :: rest) :
    step s = { s with schedule := rest }.microStep := by
  simp only [step, State.agentStep, hs]

/-- R182: an idle engine has nothing to do. -/
theorem engineCommand_idle {s : State} (hf : s.fsm = .idle) : s.engineCommand = .next s := by
  simp only [State.engineCommand, hf]

/-- R118: with BUSY = 0 a WAIT is one read of STATUS. -/
theorem hostAction_wait_idle {s : State} (hb : s.status.busy = false) (rest : List Event) :
    s.hostAction .wait rest =
      { s with schedule := rest }.busRead (s.platform.regBase + offsetOf .status) 4 :=
  if_neg (ne_true_of_eq_false hb)

/-- R117: a read with an asserted value, when the read goes on. -/
theorem busExpect_of_busRead_next {s t : State} {addr : Nat} (ht : s.busRead addr 4 = .next t)
    (v : Word) : s.busExpect addr v =
      if t.rdata = v then .next t else .fault (.assertionFailed addr t.rdata v) := by
  simp only [State.busExpect, ht]

/-- R117: a read with an asserted value, when the read is refused. -/
theorem busExpect_of_busRead_refused {s : State} {addr : Nat} {e : Refusal}
    (he : s.busRead addr 4 = .refused e) (v : Word) : s.busExpect addr v = .refused e := by
  simp only [State.busExpect, he]

/-- Settles O46: event by event.  Most host actions are their definition; WAIT and the assertion have
cases of their own. -/
theorem scheduleNamesTheAgent : Obligations.ScheduleNamesTheAgent := by
  intro s rest
  refine ⟨fun hs hf => (step_of_schedule_nil hs).trans (engineCommand_idle hf), step_of_schedule_micro,
    fun _ _ _ => step_of_schedule_host, fun _ _ => step_of_schedule_host,
    fun _ _ => step_of_schedule_host, step_of_schedule_host, step_of_schedule_host,
    fun hs => ⟨fun hf => ?commandIdle, fun op ph i hf hi => ?commandRuns⟩,
    fun hs => ⟨fun hb => ?waitOver, fun hb op ph i hf hi => ?waitRuns⟩,
    fun addr v hs => ⟨fun t ht => ⟨fun hv => ?agrees, fun hv => ?differs⟩, fun e he => ?refused⟩⟩
  case commandIdle =>
    exact (step_of_schedule_command hs).trans (engineCommand_idle (s := { s with schedule := rest }) hf)
  case commandRuns =>
    exact (step_of_schedule_command hs).trans (engineCommand_run (s := { s with schedule := rest }) hf hi)
  case waitOver => exact (step_of_schedule_host hs).trans (hostAction_wait_idle hb rest)
  case waitRuns => exact (step_wait_busy hs hb).trans (engineCommand_run hf hi)
  case agrees =>
    exact (step_of_schedule_host hs).trans ((busExpect_of_busRead_next ht v).trans (if_pos hv))
  case differs =>
    exact (step_of_schedule_host hs).trans ((busExpect_of_busRead_next ht v).trans (if_neg hv))
  case refused => exact (step_of_schedule_host hs).trans (busExpect_of_busRead_refused he v)

end Sys2Proof.Machine
end
